-- ==== Sys2Proof/Word.lean ====
section
/-! DEFINITION. The plain types the CORE is made of: bytes and words, line levels, pin roles, wire frames and
CommandSequence entries (spec/00_scope.md R14, R16; spec/10_state.md R24; spec/30_encoding.md R91, R92, R98). -/

namespace Sys2Proof

/-- A byte, bit 7 the most significant (00_scope.md R14). -/
abbrev Byte := BitVec 8

/-- An operation word or a value on the host port (10_state.md R29, R32). -/
abbrev Word := BitVec 32

/-- A 24-bit pixel R ++ G ++ B (10_state.md R34). -/
abbrev Pixel := BitVec 24

/-- The level of a line: 0 or 1 (00_scope.md R14). -/
inductive Level where
  | low
  | high
  deriving DecidableEq, Repr, Inhabited

/-- The five logical pin roles, in the order of their codes 0 to 4 (30_encoding.md R98). -/
inductive PinRole where
  | reset
  | dc
  | cs
  | busy
  | power
  deriving DecidableEq, Repr

/-- The four output roles; BUSY is the only input (10_state.md R24). -/
inductive OutPin where
  | reset
  | dc
  | cs
  | power
  deriving DecidableEq, Repr

/-- What one wire frame carries: the DC level and the SPI byte (30_encoding.md R91). A pair `(dc, b)` of the wire
view (10_state.md R41) has the same two fields. -/
structure Frame where
  dc : Level
  byte : Byte
  deriving DecidableEq, Repr

/-- One entry of a CommandSequence: a command byte and its data bytes (00_scope.md glossary; 30_encoding.md R92). -/
structure Entry where
  cmd : Byte
  data : List Byte
  deriving DecidableEq, Repr

/-- The frames of an entry in the order they are sent: the command frame, then one data frame per data byte
(30_encoding.md R92; 42_panel_sequences.md R160; 44_wire_commands.md R210). -/
def Entry.frames (e : Entry) : List Frame :=
  ⟨.low, e.cmd⟩ :: e.data.map (Frame.mk .high)

end Sys2Proof
end

