-- ==== Sys2Proof/Machine/Constants.lean ====
section
/-! DEFINITION. The fixed numbers of the CORE: geometry, capacities, table lengths and delays (spec/00_scope.md R5, R6,
R7, R8; spec/10_state.md R33, R34). -/

namespace Sys2Proof.Machine

/-- PANEL_W, in pixels (R5). -/
def panelWidth : Nat := 176

/-- PANEL_H, in pixels (R5). -/
def panelHeight : Nat := 264

/-- BYTE_W = ceil(PANEL_W / 8) (R5). -/
def byteWidth : Nat := 22

/-- FRAME_LEN = BYTE_W × PANEL_H (R5). -/
def frameLen : Nat := 5808

/-- BUF_CAP, the number of bytes of BUF (R8, R33). -/
def bufCap : Nat := 8192

/-- The number of entries of IMG (R34). -/
def imgCap : Nat := 46464

/-- The length of LUT_VCOM (R7). -/
def lutVcomLen : Nat := 44

/-- The length of each of LUT_W2W, LUT_B2W, LUT_B2B, LUT_W2B (R7). -/
def lutLen : Nat := 42

/-- T_RESET_HIGH1, ms (R6). -/
def resetHighFirst : Nat := 200

/-- T_RESET_LOW, ms (R6). -/
def resetLow : Nat := 5

/-- T_RESET_HIGH2, ms (R6). -/
def resetHighLast : Nat := 200

/-- T_BUSY_POLL, ms between two reads of BUSY (R6). -/
def pollInterval : Nat := 200

/-- T_SETTLE, ms inside DISPLAYFRAME (R6). -/
def settleTime : Nat := 2000

end Sys2Proof.Machine
end

