-- ==== Sys2Proof/Config.lean ====
section
/-! DEFINITION. What an implementation fixes and the free values. The spec gives the lengths of the ROM tables and
constraints on PREFIX_SEQ but not their contents (spec/00_scope.md R7, R8; spec/42_panel_sequences.md R161), and leaves the
environment's answers free (spec/00_scope.md R10; spec/92_eei_decisions.md D38). All of these are opaque: no proof can see a
value of them. -/

namespace Sys2Proof

/-- The level of BUSY at the n-th read, where no listed answer says otherwise (40_transport.md R122; log 4). -/
opaque Config.freeBusy : Nat → Level

/-- Whether the n-th spiWrite succeeds, where no listed answer says otherwise (40_transport.md R124; log 4). -/
opaque Config.freeSpi : Nat → Bool

/-- Whether the n-th ACQUIRE is granted, where no listed answer says otherwise (40_transport.md R125; log 4). -/
opaque Config.freeGrant : Nat → Bool

/-- The implementation's PREFIX_SEQ before it is checked against R161 (log 5). -/
opaque Config.rawPrefix : List Entry

/-- The constraints of 42_panel_sequences.md R161 (c) and (d): only 0x01, 0x06, 0xF8 and 0x16 occur as commands, and each
of 0x01, 0x06 and 0xF8 occurs. -/
def admissiblePrefix (p : List Entry) : Bool :=
  p.all (fun e => [0x01#8, 0x06#8, 0xF8#8, 0x16#8].contains e.cmd) &&
    [0x01#8, 0x06#8, 0xF8#8].all (fun c => p.any (fun e => e.cmd == c))

/-- PREFIX_SEQ: any CommandSequence that meets R161. Where the raw constant does not meet it, the least list that does
stands in, so that the value ranges over exactly the admissible sequences (log 5). -/
def Config.prefixSeq : List Entry :=
  if admissiblePrefix Config.rawPrefix then Config.rawPrefix else [⟨0x01, []⟩, ⟨0x06, []⟩, ⟨0xF8, []⟩]

/-- LUT_VCOM (00_scope.md R7). -/
opaque Config.lutVcom : Vector Byte Machine.lutVcomLen

/-- LUT_W2W (00_scope.md R7). -/
opaque Config.lutW2w : Vector Byte Machine.lutLen

/-- LUT_B2W (00_scope.md R7). -/
opaque Config.lutB2w : Vector Byte Machine.lutLen

/-- LUT_B2B (00_scope.md R7). -/
opaque Config.lutB2b : Vector Byte Machine.lutLen

/-- LUT_W2B (00_scope.md R7). -/
opaque Config.lutW2b : Vector Byte Machine.lutLen

/-- BUSY_TIMEOUT_POLLS before the constraint M ≥ 1 of 00_scope.md R8: `some m` stands for M = m + 1. -/
opaque Config.rawTimeout : Option Nat

/-- BUSY_TIMEOUT_POLLS: none, or some M with M ≥ 1 (00_scope.md R8; 41_panel_primitives.md R145; log 6). -/
def Config.busyTimeoutPolls : Option Nat := Config.rawTimeout.map (· + 1)

/-- SPI_HZ, read by no rule (00_scope.md R8). -/
opaque Config.spiHz : Nat

/-- The physical pin number of each role, read by no rule (00_scope.md R8; 40_transport.md R133). -/
opaque Config.pinNumber : PinRole → Nat

/-- The SPI bus and device numbers, read by no rule (00_scope.md R8). -/
opaque Config.spiBusDevice : Nat × Nat

/-- The parameters the operations read: the ROM's contents and the poll bound (00_scope.md R7, R8; 10_state.md R35). -/
structure Setup where
  powerPrefix : List Entry
  lutVcom : Vector Byte Machine.lutVcomLen
  lutW2w : Vector Byte Machine.lutLen
  lutB2w : Vector Byte Machine.lutLen
  lutB2b : Vector Byte Machine.lutLen
  lutW2b : Vector Byte Machine.lutLen
  pollLimit : Option Nat
  deriving DecidableEq, Repr

/-- The parameters of the machine modelled: every one of them open. -/
def Config.setup : Setup where
  powerPrefix := Config.prefixSeq
  lutVcom := Config.lutVcom
  lutW2w := Config.lutW2w
  lutB2w := Config.lutB2w
  lutB2b := Config.lutB2b
  lutW2b := Config.lutW2b
  pollLimit := Config.busyTimeoutPolls

end Sys2Proof
end

