-- ==== Sys2Proof/Syntax.lean ====
section
/-! DEFINITION. The operations of the CORE, one constructor per row of spec/opcode_table.json: sixteen host operations
(spec/30_encoding.md R100) and eighteen wire commands (spec/44_wire_commands.md R211 to R228). -/

namespace Sys2Proof

/-- One row of the opcode table with its operands. A wire command carries the data bytes that follow it (R92). -/
inductive Instr where
  | acquire
  | release
  | setPin (role : PinRole) (level : Level)
  | readPin (role : PinRole)
  | sleep (ms : BitVec 16)
  | writeByte (b : Byte)
  | writeBytes
  | reset
  | sendCmd (b : Byte)
  | sendData (b : Byte)
  | readBusy
  | init
  | init4Gray
  | clear (f : Byte)
  | displayFrame
  | encode
  | panelSetting (d : Byte)
  | powerSetting (ds : List Byte)
  | powerOn
  | boosterSoftStart (ds : List Byte)
  | writePlaneOld (ds : List Byte)
  | displayRefresh
  | writePlaneNew (ds : List Byte)
  | partialRefreshControl (ds : List Byte)
  | lutVcom (ds : List Byte)
  | lutW2w (ds : List Byte)
  | lutB2w (ds : List Byte)
  | lutB2b (ds : List Byte)
  | lutW2b (ds : List Byte)
  | pllControl (d : Byte)
  | vcomAndInterval (d : Byte)
  | resolutionSetting (width height : BitVec 16)
  | vcomDc (d : Byte)
  | powerOptimization (ds : List Byte)
  deriving DecidableEq, Repr

end Sys2Proof
end

