-- ==== Sys2Proof/WellFormed.lean ====
section
/-! DEFINITION. Which operations are well formed. Every host operation is. A wire command whose number of data bytes
the spec fixes carries exactly that many (spec/30_encoding.md R92; spec/44_wire_commands.md R229); the commands of
PREFIX_SEQ carry any number. -/

namespace Sys2Proof

/-- The data bytes an operation carries, where the number of them is not already in its type. -/
def Instr.carries : Instr → List Byte
  | .writePlaneOld ds | .writePlaneNew ds | .lutVcom ds | .lutW2w ds | .lutB2w ds | .lutB2b ds | .lutW2b ds => ds
  | _ => []

/-- The number of data bytes the spec fixes for an operation whose type leaves it open (44_wire_commands.md R229). -/
def Instr.fixedCount : Instr → Option Nat
  | .writePlaneOld _ => some Machine.frameLen
  | .writePlaneNew _ => some Machine.frameLen
  | .lutVcom _ => some Machine.lutVcomLen
  | .lutW2w _ => some Machine.lutLen
  | .lutB2w _ => some Machine.lutLen
  | .lutB2b _ => some Machine.lutLen
  | .lutW2b _ => some Machine.lutLen
  | _ => none

/-- The check: a fixed count is met. -/
def Instr.wellFormed (i : Instr) : Bool :=
  match i.fixedCount with
  | some n => i.carries.length == n
  | none => true

end Sys2Proof
end

