-- ==== Sys2Proof/Decode.lean ====
section
/-! DEFINITION. Decoding and encoding at both levels: the 32-bit operation word of the host port
(spec/30_encoding.md R95 to R102) and the frames of a wire command (spec/30_encoding.md R91, R92; spec/44_wire_commands.md).
Each decoder is total and rejects by name. -/

namespace Sys2Proof

/-- Why a word or a list of frames spells no operation. -/
inductive DecodeError where
  /-- `opc` is not one of the sixteen (R102 a). -/
  | noSuchOpc
  /-- A 1 in a bit the format requires to be 0 (R102 b). -/
  | reservedBit
  /-- SETPIN or READPIN with role 5, 6 or 7 (R102 c). -/
  | reservedRole
  /-- No frame at all. -/
  | noFrame
  /-- The first frame is a data frame. -/
  | dataFirst
  /-- A command frame follows inside the entry. -/
  | secondCommand
  /-- The command byte is not in the command set (R93). -/
  | unknownCommand
  /-- The number of data bytes is not the one the spec fixes (R92). -/
  | wrongDataCount
  deriving DecidableEq, Repr

/-! ## Host level: the operation word -/

/-- `opc = w[31:24]` (R95). -/
def opcField (w : Word) : Byte := w.extractLsb' 24 8

/-- `b = imm16[7:0]` (R97). -/
def byteField (w : Word) : Byte := w.extractLsb' 0 8

/-- `ms = imm16` (R99). -/
def msField (w : Word) : BitVec 16 := w.extractLsb' 0 16

/-- `level = imm16[0]` (R98). -/
def levelField (w : Word) : Level := if w.getLsbD 0 then .high else .low

/-- `role = sub[2:0] = w[18:16]`; codes 5, 6 and 7 are reserved (R98). -/
def roleField (w : Word) : Except DecodeError PinRole :=
  match (w.extractLsb' 16 3).toNat with
  | 0 => .ok .reset
  | 1 => .ok .dc
  | 2 => .ok .cs
  | 3 => .ok .busy
  | 4 => .ok .power
  | _ => .error .reservedRole

/-- A row of the opcode map: the word with every operand field zero, the bits it fixes, and the operation a word of
the row spells (R100). -/
structure OpRow where
  code : Word
  mask : Word
  build : Word → Except DecodeError Instr

/-- The opcode map of R100, in its order. -/
def opRows : List OpRow :=
  [⟨0xC0000000, 0xFFFFFFFF, fun _ => .ok .acquire⟩,
   ⟨0xC1000000, 0xFFFFFFFF, fun _ => .ok .release⟩,
   ⟨0xC2000000, 0xFFF8FFFE, fun w => (roleField w).map (fun r => .setPin r (levelField w))⟩,
   ⟨0xC3000000, 0xFFF8FFFF, fun w => (roleField w).map .readPin⟩,
   ⟨0xC4000000, 0xFFFF0000, fun w => .ok (.sleep (msField w))⟩,
   ⟨0xC5000000, 0xFFFFFF00, fun w => .ok (.writeByte (byteField w))⟩,
   ⟨0xC6000000, 0xFFFFFFFF, fun _ => .ok .writeBytes⟩,
   ⟨0xD0000000, 0xFFFFFFFF, fun _ => .ok .reset⟩,
   ⟨0xD1000000, 0xFFFFFF00, fun w => .ok (.sendCmd (byteField w))⟩,
   ⟨0xD2000000, 0xFFFFFF00, fun w => .ok (.sendData (byteField w))⟩,
   ⟨0xD3000000, 0xFFFFFFFF, fun _ => .ok .readBusy⟩] ++
  [⟨0xE0000000, 0xFFFFFFFF, fun _ => .ok .init⟩,
   ⟨0xE1000000, 0xFFFFFFFF, fun _ => .ok .init4Gray⟩,
   ⟨0xE2000000, 0xFFFFFF00, fun w => .ok (.clear (byteField w))⟩,
   ⟨0xE3000000, 0xFFFFFFFF, fun _ => .ok .displayFrame⟩,
   ⟨0xF0000000, 0xFFFFFFFF, fun _ => .ok .encode⟩]

/-- The operation a 32-bit word spells, or why it is illegal (R100, R102). -/
def decodeWord (w : Word) : Except DecodeError Instr :=
  match opRows.find? (fun r => opcField r.code == opcField w) with
  | none => .error .noSuchOpc
  | some r => if w &&& r.mask = r.code then r.build w else .error .reservedBit

/-! ## Wire level: the frames of one entry -/

/-- A command of the command set and how its data bytes are read (44_wire_commands.md R229). -/
structure WireRow where
  cmd : Byte
  build : List Byte → Except DecodeError Instr

/-- No data byte. -/
def noData (i : Instr) : List Byte → Except DecodeError Instr
  | [] => .ok i
  | _ :: _ => .error .wrongDataCount

/-- Exactly one data byte. -/
def oneData (f : Byte → Instr) : List Byte → Except DecodeError Instr
  | [d] => .ok (f d)
  | _ => .error .wrongDataCount

/-- The four data bytes of RESOLUTION_SETTING: two 16-bit values, each high byte first (R94 a). -/
def resolutionData : List Byte → Except DecodeError Instr
  | [wh, wl, hh, hl] => .ok (.resolutionSetting (wh ++ wl) (hh ++ hl))
  | _ => .error .wrongDataCount

/-- Whether a list has exactly `n` elements. -/
def hasLength {α : Type} : List α → Nat → Bool
  | [], n => n == 0
  | _ :: _, 0 => false
  | _ :: t, n + 1 => hasLength t n

/-- Exactly `n` data bytes. -/
def countedData (n : Nat) (f : List Byte → Instr) (ds : List Byte) : Except DecodeError Instr :=
  if hasLength ds n then .ok (f ds) else .error .wrongDataCount

/-- Any number of data bytes, for the commands whose data PREFIX_SEQ gives (R92). -/
def anyData (f : List Byte → Instr) (ds : List Byte) : Except DecodeError Instr := .ok (f ds)

/-- The panel command set of 44_wire_commands.md R229, in its order. -/
def wireRows : List WireRow :=
  [⟨0x00, oneData .panelSetting⟩,
   ⟨0x01, anyData .powerSetting⟩,
   ⟨0x04, noData .powerOn⟩,
   ⟨0x06, anyData .boosterSoftStart⟩,
   ⟨0x10, countedData Machine.frameLen .writePlaneOld⟩,
   ⟨0x12, noData .displayRefresh⟩,
   ⟨0x13, countedData Machine.frameLen .writePlaneNew⟩,
   ⟨0x16, anyData .partialRefreshControl⟩,
   ⟨0x20, countedData Machine.lutVcomLen .lutVcom⟩] ++
  [⟨0x21, countedData Machine.lutLen .lutW2w⟩,
   ⟨0x22, countedData Machine.lutLen .lutB2w⟩,
   ⟨0x23, countedData Machine.lutLen .lutB2b⟩,
   ⟨0x24, countedData Machine.lutLen .lutW2b⟩,
   ⟨0x30, oneData .pllControl⟩,
   ⟨0x50, oneData .vcomAndInterval⟩,
   ⟨0x61, resolutionData⟩,
   ⟨0x82, oneData .vcomDc⟩,
   ⟨0xF8, anyData .powerOptimization⟩]

/-- The wire command an entry spells (R92, R93). -/
def decodeEntry (e : Entry) : Except DecodeError Instr :=
  match wireRows.find? (fun r => r.cmd == e.cmd) with
  | none => .error .unknownCommand
  | some r => r.build e.data

/-- The wire command that the frames of ONE entry spell: a command frame, then data frames only. A receiver tells a
command from data by `dc` alone (R92). -/
def decodeFrames : List Frame → Except DecodeError Instr
  | [] => .error .noFrame
  | ⟨.high, _⟩ :: _ => .error .dataFirst
  | ⟨.low, c⟩ :: fs =>
    if fs.all (fun f => f.dc == .high) then decodeEntry ⟨c, fs.map Frame.byte⟩ else .error .secondCommand

/-- A stream of frames cut into the data bytes before its first command frame and its entries: an entry ends at the
next frame with `dc = 0` (R92). -/
def cutEntries : List Frame → List Byte × List Entry
  | [] => ([], [])
  | f :: fs =>
    match f.dc, cutEntries fs with
    | .high, (ds, es) => (f.byte :: ds, es)
    | .low, (ds, es) => ([], ⟨f.byte, ds⟩ :: es)

/-- The wire commands a whole stream of frames spells, in order. -/
def decodeStream (fs : List Frame) : Except DecodeError (List Instr) :=
  match cutEntries fs with
  | ([], es) => es.mapM decodeEntry
  | (_ :: _, _) => .error .dataFirst

/-! ## Encoding -/

/-- The role code (R98). -/
def PinRole.code : PinRole → BitVec 3
  | .reset => 0
  | .dc => 1
  | .cs => 2
  | .busy => 3
  | .power => 4

/-- The level as a bit: 0 low, 1 high (R101). -/
def Level.bit : Level → BitVec 1
  | .low => 0
  | .high => 1

/-- An operation word from its three fields (R95). -/
def packWord (opc sub : Byte) (imm16 : BitVec 16) : Word := opc ++ sub ++ imm16

/-- Format N (R96). -/
def formatN (opc : Byte) : Word := packWord opc 0 0

/-- Format B (R97). -/
def formatB (opc b : Byte) : Word := packWord opc 0 (b.zeroExtend 16)

/-- Format P (R98). -/
def formatP (opc : Byte) (role : PinRole) (imm16 : BitVec 16) : Word := packWord opc (role.code.zeroExtend 8) imm16

/-- Format T (R99). -/
def formatT (opc : Byte) (ms : BitVec 16) : Word := packWord opc 0 ms

/-- How an operation stands outside the CORE: a word on the host port or frames on the wire (R90). -/
inductive Encoding where
  | word (w : Word)
  | frames (fs : List Frame)
  deriving DecidableEq, Repr

/-- A wire command's encoding. -/
def wireForm (cmd : Byte) (ds : List Byte) : Encoding := .frames (Entry.frames ⟨cmd, ds⟩)

/-- The high and the low byte of a 16-bit value, high byte first (20_memory.md R62 c). -/
def bytesOf16 (v : BitVec 16) : List Byte := [v.extractLsb' 8 8, v.extractLsb' 0 8]

/-- The encoding of an operation, from the tables of R95 to R100 and of 44_wire_commands.md. -/
def encode : Instr → Encoding
  | .acquire => .word (formatN 0xC0)
  | .release => .word (formatN 0xC1)
  | .setPin role level => .word (formatP 0xC2 role (level.bit.zeroExtend 16))
  | .readPin role => .word (formatP 0xC3 role 0)
  | .sleep ms => .word (formatT 0xC4 ms)
  | .writeByte b => .word (formatB 0xC5 b)
  | .writeBytes => .word (formatN 0xC6)
  | .reset => .word (formatN 0xD0)
  | .sendCmd b => .word (formatB 0xD1 b)
  | .sendData b => .word (formatB 0xD2 b)
  | .readBusy => .word (formatN 0xD3)
  | .init => .word (formatN 0xE0)
  | .init4Gray => .word (formatN 0xE1)
  | .clear f => .word (formatB 0xE2 f)
  | .displayFrame => .word (formatN 0xE3)
  | .encode => .word (formatN 0xF0)
  | .panelSetting d => wireForm 0x00 [d]
  | .powerSetting ds => wireForm 0x01 ds
  | .powerOn => wireForm 0x04 []
  | .boosterSoftStart ds => wireForm 0x06 ds
  | .writePlaneOld ds => wireForm 0x10 ds
  | .displayRefresh => wireForm 0x12 []
  | .writePlaneNew ds => wireForm 0x13 ds
  | .partialRefreshControl ds => wireForm 0x16 ds
  | .lutVcom ds => wireForm 0x20 ds
  | .lutW2w ds => wireForm 0x21 ds
  | .lutB2w ds => wireForm 0x22 ds
  | .lutB2b ds => wireForm 0x23 ds
  | .lutW2b ds => wireForm 0x24 ds
  | .pllControl d => wireForm 0x30 [d]
  | .vcomAndInterval d => wireForm 0x50 [d]
  | .resolutionSetting w h => wireForm 0x61 (bytesOf16 w ++ bytesOf16 h)
  | .vcomDc d => wireForm 0x82 [d]
  | .powerOptimization ds => wireForm 0xF8 ds

/-- The operation an encoding spells. -/
def decode : Encoding → Except DecodeError Instr
  | .word w => decodeWord w
  | .frames fs => decodeFrames fs

/-! ## The opcode table's numbering -/

/-- How many data bytes an entry of the table's 8-bit row is given when all of them are zero: the number the spec fixes,
and none where PREFIX_SEQ gives it (R92). -/
def zeroDataCount (cmd : Byte) : Nat :=
  match cmd.toNat with
  | 0x00 => 1
  | 0x10 => Machine.frameLen
  | 0x13 => Machine.frameLen
  | 0x20 => Machine.lutVcomLen
  | 0x21 => Machine.lutLen
  | 0x22 => Machine.lutLen
  | 0x23 => Machine.lutLen
  | 0x24 => Machine.lutLen
  | 0x30 => 1
  | 0x50 => 1
  | 0x61 => 4
  | 0x82 => 1
  | _ => 0

/-- The frames of a wire row of the table: its command byte, then data bytes of zero. -/
def tableFrames (cmd : Byte) : List Frame :=
  ⟨.low, cmd⟩ :: List.replicate (zeroDataCount cmd) ⟨.high, 0⟩

/-- The instruction this decoder reads from a row of the opcode table whose bits are `w`: a row of 32 bits is an
operation word of the host port (one register, no byte order, R62 d), a row of 8 bits is a command byte on the wire, its
data bytes zero. -/
def decodeTableWord (nbits w : Nat) : Option Instr :=
  if nbits = 32 then (decodeWord (BitVec.ofNat 32 w)).toOption
  else if nbits = 8 then (decodeFrames (tableFrames (BitVec.ofNat 8 w))).toOption
  else none

end Sys2Proof
end

