-- ==== Sys2Proof/Machine/State.lean ====
section
/-! DEFINITION. The state of the CORE (spec/10_state.md R20), the events of its trace (R40), the reasons a step can stop,
and the state after reset (spec/10_state.md R42; spec/70_reset_and_hazards.md R280). -/

namespace Sys2Proof.Machine

/-- TR_STATE, the Transport lifecycle (10_state.md R22). -/
inductive TrState where
  | unacquired
  | acquired
  | released
  deriving DecidableEq, Repr

/-- PD_STATE, the PanelDriver state machine (10_state.md R26). -/
inductive PdState where
  | poweredOff
  | resetting
  | configuring
  | idle
  | refreshing
  deriving DecidableEq, Repr

/-- PD_MODE, the initialization variant last completed since the last reset pulse (10_state.md R27). -/
inductive PdMode where
  | none
  | standard
  | gray4
  deriving DecidableEq, Repr

/-- The value of STATUS.ERR, by name (60_exceptions.md R240). -/
inductive Err where
  | ok
  | hardwareUnavailable
  | transferFailure
  | invalidFrameSize
  | unsupportedImageSize
  | panelTimeout
  | invalidPinRole
  | notAcquired
  | illegalOperation
  | contractViolation
  deriving DecidableEq, Repr

/-- What the CORE last drove on an output, `unknown` where it has driven nothing since the pin was opened or where the
pin is not open (10_state.md R24). -/
inductive PinLevel where
  | unknown
  | driven (l : Level)
  deriving DecidableEq, Repr

/-- PIN[RESET], PIN[DC], PIN[CS], PIN[POWER] (10_state.md R24). -/
structure Pins where
  reset : PinLevel
  dc : PinLevel
  cs : PinLevel
  power : PinLevel
  deriving DecidableEq, Repr

/-- All four outputs undriven. -/
def Pins.closed : Pins := ⟨.unknown, .unknown, .unknown, .unknown⟩

/-- One event of TRACE (10_state.md R40). -/
inductive Event where
  | opened
  | pinWrite (r : OutPin) (l : Level)
  | pinRead (l : Level)
  | sleep (ms : Nat)
  | spiWrite (b : Byte)
  | spiFault (b : Byte)
  | closed
  deriving DecidableEq, Repr

/-- The sequencer position (10_state.md R23): IDLE, or an operation in flight with `k`, the number of its
micro-operations already performed, and `n`, the local read counter of WAITIDLE (41_panel_primitives.md R144). -/
inductive Pc where
  | idle
  | running (op : Instr) (k n : Nat)
  deriving DecidableEq, Repr

/-- The host-visible address spaces (20_memory.md R60). -/
inductive Space where
  | reg
  | buf
  | img
  deriving DecidableEq, Repr

/-- One move of the host on its port: an access to REG, BUF or IMG (20_memory.md R60, R65; 70_reset_and_hazards.md R296),
or one wire entry composed with SENDCMD and SENDDATA (70_reset_and_hazards.md R293; log 7). A write to REG index 0 issues
the operation the word spells (10_state.md R29). -/
inductive HostMove where
  | read (space : Space) (index : Nat)
  | writeReg (index : Nat) (v : Word)
  | writeBuf (index : Nat) (v : Byte)
  | writeImg (index : Nat) (v : Pixel)
  | entry (fs : List Frame)
  deriving DecidableEq, Repr

/-- The answers of the environment to one kind of question: those already listed, in order, and the number of answers
given so far. Beyond the list an answer is a free value of Config (00_scope.md R10; log 4). -/
structure Feed (α : Type) where
  known : List α
  drawn : Nat
  deriving DecidableEq, Repr

/-- The three situations the sources forbid or do not define (60_exceptions.md R249). -/
inductive Contract where
  /-- ACQUIRE when TR_STATE is ACQUIRED or RELEASED (U1). -/
  | acquireAgain
  /-- CLEAR or DISPLAYFRAME when PD_STATE is not Idle or PD_MODE is NONE (U2). -/
  | notReady
  /-- WRITEBYTES with BUF_LEN > BUF_CAP (U5). -/
  | bufferTooLong
  deriving DecidableEq, Repr

/-- The machine has no fault: every error of the spec ends an operation with a code in STATUS.ERR and gives control back
to the host (60_exceptions.md R250), so it is a next state, and nothing in the spec stops the CORE. -/
inductive Fault where
  deriving DecidableEq, Repr

/-- The reasons a step has no meaning. -/
inductive Refusal where
  /-- Raised by exec for an instruction that has no meaning yet. Safe: nothing can be proved through it. -/
  | notModelled (mnemonic : String)
  /-- Raised by ACQUIRE, WRITEBYTES, CLEAR and DISPLAYFRAME in the situations of 60_exceptions.md R249, which a model must
  refuse (the hardware would report code 0x09). Safe: the run has no meaning from there on. -/
  | contractViolation (cause : Contract)
  /-- Raised by any reader of a BUF or IMG entry that nothing has written since reset (20_memory.md R67, U7). Safe. -/
  | unwritten (space : Space) (index : Nat)
  /-- Raised by a host access to an index its space does not have (20_memory.md R66, U5). Safe. -/
  | outOfRange (space : Space) (index : Nat)
  /-- Raised by an operation or a host access that arrives while another operation is in flight (20_memory.md R66, R71,
  U5). Safe. No step of the machine reaches it, since the host has no move then (R72). -/
  | untimely
  /-- Raised by a host move whose frames are no entry of the panel command set (30_encoding.md R92, R93). Safe. -/
  | notAnEntry (why : DecodeError)
  deriving DecidableEq, Repr

/-- The state of the CORE (10_state.md R20), the fault mark of its run (60_exceptions.md R252), and the model's own fields
for the two other agents, host and environment (00_scope.md R10). -/
structure State where
  /-- TR_STATE (R22). -/
  trState : TrState
  /-- PIN[·] (R24). -/
  pins : Pins
  /-- PD_STATE (R26). -/
  pdState : PdState
  /-- PD_MODE (R27). -/
  pdMode : PdMode
  /-- STATUS.ERR (R28). -/
  err : Err
  /-- STATUS.RDVAL (R28). -/
  rdval : Level
  /-- BUF_LEN (R30). -/
  bufLen : BitVec 16
  /-- IMG_W (R31). -/
  imgW : BitVec 16
  /-- IMG_H (R31). -/
  imgH : BitVec 16
  /-- BUF: the entries written so far, addresses rising (R33). -/
  buf : List Host.Cell
  /-- IMG: the entries written so far, addresses rising (R34). -/
  img : List (Nat × Pixel)
  /-- The sequencer position (R23). -/
  pc : Pc
  /-- TRACE (R40). -/
  trace : List Event
  /-- Whether the run is faulted (60_exceptions.md R252). -/
  faultMark : Bool
  /-- Model's own: the moves the host will make, in order (log 2). -/
  host : List HostMove
  /-- Model's own: what the port gave back at the host's last read (log 3). -/
  hostData : Word
  /-- Model's own: the environment's answers to ACQUIRE (log 4). -/
  grants : Feed Bool
  /-- Model's own: the environment's answers to spiWrite (log 4). -/
  spiOk : Feed Bool
  /-- Model's own: the levels of BUSY the environment answers (log 4). -/
  busy : Feed Level
  deriving DecidableEq, Repr

/-- The CORE right after reset (10_state.md R42; 70_reset_and_hazards.md R280). The model's own fields start empty. -/
def State.reset : State where
  trState := .unacquired
  pins := Pins.closed
  pdState := .poweredOff
  pdMode := .none
  err := .ok
  rdval := .low
  bufLen := 0
  imgW := 0
  imgH := 0
  buf := []
  img := []
  pc := .idle
  trace := []
  faultMark := false
  host := []
  hostData := 0
  grants := ⟨[], 0⟩
  spiOk := ⟨[], 0⟩
  busy := ⟨[], 0⟩

end Sys2Proof.Machine
end

