-- ==== Sys2Proof/Machine/Memory.lean ====
section
/-! DEFINITION. The memories BUF and IMG as lists of (index, value) pairs in one canonical form, indexes strictly rising
(spec/10_state.md R33, R34; spec/20_memory.md R67). -/

namespace Sys2Proof.Machine

/-- What an entry that nothing has written reads as: no value (20_memory.md R67; 10_state.md R42). -/
def Memory.unlisted {α : Type} : Option α := none

/-- MemRead of one entry (00_scope.md R15). -/
def Memory.read {α : Type} : List (Nat × α) → Nat → Option α
  | [], _ => Memory.unlisted
  | (b, v) :: m, a => if a = b then some v else Memory.read m a

/-- MemWrite of one entry (00_scope.md R15). -/
def Memory.write {α : Type} : List (Nat × α) → Nat → α → List (Nat × α)
  | [], a, v => [(a, v)]
  | (b, u) :: m, a, v =>
    if a < b then (a, v) :: (b, u) :: m
    else if a = b then (a, v) :: m
    else (b, u) :: Memory.write m a v

/-- The canonical form: indexes strictly rising. No entry equals what an unlisted index reads as, since that is no
value. -/
abbrev Memory.wf {α : Type} (m : List (Nat × α)) : Prop := m.Pairwise (fun x y => x.1 < y.1)

/-- Every index listed is below the space's capacity. -/
abbrev Memory.within {α : Type} (cap : Nat) (m : List (Nat × α)) : Prop := ∀ c ∈ m, c.1 < cap

/-- Writing the same value to the entries 0 to n − 1. -/
def Memory.fill {α : Type} (v : α) : Nat → List (Nat × α) → List (Nat × α)
  | 0, m => m
  | n + 1, m => Memory.write (Memory.fill v n m) n v

end Sys2Proof.Machine
end

