-- ==== Sys2Proof/Machine/Operands.lean ====
section
/-! DEFINITION. The operand forms: pin roles as output pins, the pins by role, and the environment's answers
(spec/10_state.md R24, R25; spec/30_encoding.md R98; spec/40_transport.md R122, R124). -/

namespace Sys2Proof.Machine

/-- The output pin a role names; BUSY is input only (10_state.md R24). -/
def outputOf : PinRole → Option OutPin
  | .reset => some .reset
  | .dc => some .dc
  | .cs => some .cs
  | .busy => none
  | .power => some .power

/-- PIN[r]. -/
def Pins.get (p : Pins) : OutPin → PinLevel
  | .reset => p.reset
  | .dc => p.dc
  | .cs => p.cs
  | .power => p.power

/-- PIN[r] <- l. -/
def Pins.set (p : Pins) (r : OutPin) (l : PinLevel) : Pins :=
  match r with
  | .reset => { p with reset := l }
  | .dc => { p with dc := l }
  | .cs => { p with cs := l }
  | .power => { p with power := l }

/-- The answer the environment gives to the question `n` questions from now: listed, or else free (log 4). -/
def Feed.answer {α : Type} (free : Nat → α) (f : Feed α) (n : Nat) : α :=
  match f.known[n]? with
  | some a => a
  | none => free (f.drawn + n)

/-- The feed after `n` more answers. -/
def Feed.skip {α : Type} (f : Feed α) (n : Nat) : Feed α := ⟨f.known.drop n, f.drawn + n⟩

/-- The level of BUSY at the read `n` reads from now (40_transport.md R122). -/
def State.busyAt (s : State) (n : Nat) : Level := s.busy.answer Config.freeBusy n

/-- Whether the spiWrite `n` writes from now succeeds (40_transport.md R124). -/
def State.spiAt (s : State) (n : Nat) : Bool := s.spiOk.answer Config.freeSpi n

/-- Whether the ACQUIRE `n` attempts from now is granted (40_transport.md R125). -/
def State.grantAt (s : State) (n : Nat) : Bool := s.grants.answer Config.freeGrant n

end Sys2Proof.Machine
end

