-- ==== Sys2Proof/Machine/Ops.lean ====
section
/-! DEFINITION. The operations every meaning is made of: events, raising an error, the entry checks, the four
micro-operations and the sequencer that performs an operation's list, one in each step (spec/00_scope.md R15; spec/10_state.md R23;
spec/40_transport.md R120 to R124; spec/41_panel_primitives.md R144, R145; spec/60_exceptions.md R248 to R252). -/

namespace Sys2Proof.Machine

/-- The three outcomes of a step. -/
abbrev Outcome := Host.Outcome State Fault Refusal

/-! ## Events, errors, the end of an operation -/

/-- One more micro-operation performed: `pc <- (op, k + 1)` (10_state.md R23). -/
def Pc.advance : Pc → Pc
  | .idle => .idle
  | .running op k n => .running op (k + 1) n

/-- One more read of WAITIDLE: `n <- n + 1` (41_panel_primitives.md R144). -/
def Pc.countRead : Pc → Pc
  | .idle => .idle
  | .running op k n => .running op k (n + 1)

/-- `k`, the micro-operations performed so far. -/
def Pc.done : Pc → Nat
  | .idle => 0
  | .running _ k _ => k

/-- The reads WAITIDLE has made so far. -/
def Pc.reads : Pc → Nat
  | .idle => 0
  | .running _ _ n => n

/-- `emit(e)` (00_scope.md R15), which also counts the micro-operation that `e` records. -/
def State.emit (s : State) (e : Event) : State :=
  { s with trace := s.trace ++ [e], pc := s.pc.advance }

/-- TAKING AN ERROR, the CORE's one exception: `x[STATUS.ERR] <- code(E); pc <- IDLE`, nothing saved, no mode changed, control
back to the host (60_exceptions.md R250). There is no return instruction (R253): the host's next operation is it. -/
def State.raise (s : State) (e : Err) : State :=
  { s with err := e, pc := .idle }

/-- The normal end of an operation: ERR is 0 and the sequencer is idle (10_state.md R23, R28). -/
def State.complete (s : State) : State :=
  { s with err := .ok, pc := .idle }

/-- The start of an operation: no micro-operation performed yet (10_state.md R23). -/
def State.begin (s : State) (op : Instr) : State :=
  { s with pc := .running op 0 0 }

/-- The run is faulted from here on (60_exceptions.md R252). -/
def State.markFaulted (s : State) : State :=
  { s with faultMark := true }

/-! ## Entry checks, in the order of 60_exceptions.md R248 -/

/-- An operation is accepted only while pc = IDLE (20_memory.md R66, R71). -/
def needIdle (s : State) (go : Outcome) : Outcome :=
  match s.pc with
  | .idle => go
  | .running _ _ _ => .refused .untimely

/-- `need_acquired` (40_transport.md R120). -/
def needAcquired (s : State) (go : Outcome) : Outcome :=
  match s.trState with
  | .acquired => go
  | .unacquired => .next (s.raise .notAcquired)
  | .released => .next (s.raise .notAcquired)

/-- `need_ready` (42_panel_sequences.md R166); not ready is a contract violation, which a model refuses (R249). -/
def needReady (s : State) (go : Outcome) : Outcome :=
  if s.pdState = .idle ∧ s.pdMode ≠ .none then go else .refused (.contractViolation .notReady)

/-! ## Micro-operations -/

/-- One micro-operation of an operation's list. `sleepInto` is a sleep together with which PD_STATE changes (10_state.md R26);
`spiBuf` writes a byte of BUF (40_transport.md R131); `close` is the closing step of RELEASE (40_transport.md R126); `poll` is a
read of BUSY inside WAITIDLE with its optional bound (41_panel_primitives.md R144). -/
inductive Micro where
  | setPin (r : OutPin) (l : Level)
  | readPin
  | sleep (ms : Nat)
  | sleepInto (ms : Nat) (p : PdState)
  | spiWrite (b : Byte)
  | spiBuf (k : Nat)
  | close
  | poll (limit : Option Nat)
  deriving DecidableEq, Repr

/-- What performing a micro-operation leads to: the operation goes on; or an error has ended it; or the model refuses. -/
inductive Flow where
  | on (s : State)
  | out (s : State)
  | refused (r : Refusal)
  deriving DecidableEq, Repr

/-- `setPin(r, l)` (40_transport.md R121). -/
def State.drive (s : State) (r : OutPin) (l : Level) : State :=
  { s with pins := s.pins.set r (.driven l) }.emit (.pinWrite r l)

/-- `readPin()` (40_transport.md R122): the level is the environment's. -/
def State.sample (s : State) : State :=
  { s with rdval := s.busyAt 0, busy := s.busy.skip 1 }.emit (.pinRead (s.busyAt 0))

/-- `sleep(n)` (40_transport.md R123). -/
def State.delay (s : State) (ms : Nat) : State :=
  s.emit (.sleep ms)

/-- `spiWrite(b)` (40_transport.md R124): whether it succeeds is the environment's answer. A failure is recorded and raises
TransferFailure. -/
def State.shiftOut (s : State) (b : Byte) : Flow :=
  let s' := { s with spiOk := s.spiOk.skip 1 }
  match s.spiAt 0 with
  | true => .on (s'.emit (.spiWrite b))
  | false => .out ((s'.emit (.spiFault b)).markFaulted.raise .transferFailure)

/-- The closing step of RELEASE (40_transport.md R126). -/
def State.closePins (s : State) : State :=
  { s with trState := .released, pins := Pins.closed, pdState := .poweredOff, pdMode := .none }.emit .closed

/-- One read of WAITIDLE (41_panel_primitives.md R144, R145): BUSY = 1 at the read that reaches the bound raises PanelTimeout,
without a further sleep. -/
def State.poll (s : State) (limit : Option Nat) : Flow :=
  let s' := { s with pc := s.pc.countRead }.sample
  match s.busyAt 0 with
  | .low => .on s'
  | .high => if limit = some s'.pc.reads then .out (s'.markFaulted.raise .panelTimeout) else .on s'

/-- One micro-operation performed. -/
def micro : Micro → State → Flow
  | .setPin r l, s => .on (s.drive r l)
  | .readPin, s => .on s.sample
  | .sleep ms, s => .on (s.delay ms)
  | .sleepInto ms p, s => .on (State.delay { s with pdState := p } ms)
  | .spiWrite b, s => s.shiftOut b
  | .spiBuf k, s =>
    match Memory.read s.buf k with
    | some b => s.shiftOut b
    | none => .refused (.unwritten .buf k)
  | .close, s => .on s.closePins
  | .poll limit, s => s.poll limit

/-! ## Micro-operation lists -/

/-- What PD_STATE and PD_MODE become, where they change at all. -/
structure Mark where
  state : Option PdState
  mode : Option PdMode
  deriving DecidableEq, Repr

/-- Neither changes. -/
def Mark.keep : Mark := ⟨none, none⟩

/-- The writes of PD_STATE and PD_MODE that a mark stands for. -/
def State.mark (s : State) (m : Mark) : State :=
  { s with pdState := m.state.getD s.pdState, pdMode := m.mode.getD s.pdMode }

/-- A WAITIDLE inside an operation: the bound on its reads, and what the operation does after it. -/
structure Wait where
  limit : Option Nat
  after : List Micro
  deriving DecidableEq, Repr

/-- The micro-operation list of an operation (10_state.md R23): what it does before its WAITIDLE, if it has one, the wait, and
the writes of PD_STATE and PD_MODE together with its first and with its last micro-operation (10_state.md R26, R27). -/
structure Plan where
  enter : Mark
  before : List Micro
  wait : Option Wait
  leave : Mark
  deriving DecidableEq, Repr

/-- A list without a wait that leaves PD_STATE and PD_MODE alone. -/
def Plan.plain (ms : List Micro) : Plan := ⟨Mark.keep, ms, none, Mark.keep⟩

/-- WAITIDLE when `n` reads have been made and the last of them answered `last`: reads of 1, each with its sleep, and then the
next read; or, the last read having answered 0, that read and what follows the wait (41_panel_primitives.md R144 a). -/
def Wait.items (w : Wait) : Nat → Level → List Micro
  | 0, _ => [.poll w.limit]
  | n + 1, .low => (List.replicate n [.poll w.limit, .sleep pollInterval]).flatten ++ .poll w.limit :: w.after
  | n + 1, .high => (List.replicate (n + 1) [.poll w.limit, .sleep pollInterval]).flatten ++ [.poll w.limit]

/-- The micro-operation list as far as the BUSY levels read so far determine it (10_state.md R23). -/
def Plan.items (p : Plan) (n : Nat) (last : Level) : List Micro :=
  p.before ++ (match p.wait with | none => [] | some w => w.items n last)

/-- The list as the state determines it: the last level WAITIDLE read is RDVAL (10_state.md R28; log 12). -/
def State.items (s : State) (p : Plan) : List Micro := p.items s.pc.reads s.rdval

/-- The operation ends OK, PD_STATE and PD_MODE written together with its last micro-operation. -/
def State.finish (s : State) (p : Plan) : State := (s.mark p.leave).complete

/-- After a micro-operation that went through: when the list is exhausted the operation ends (10_state.md R23). -/
def State.settle (s : State) (p : Plan) : State :=
  match (s.items p)[s.pc.done]? with
  | none => s.finish p
  | some _ => s

/-- THE STEP OF AN OPERATION: the micro-operation at index `k` is performed, and `pc <- (op, k + 1)`, or IDLE when the list is
exhausted or an error is raised (10_state.md R23). An empty list ends the operation at once. -/
def performNext (p : Plan) (s : State) : Outcome :=
  match (s.items p)[s.pc.done]? with
  | none => .next (s.finish p)
  | some m =>
    match micro m s with
    | .on t => .next (t.settle p)
    | .out t => .next t
    | .refused r => .refused r

/-- An operation issued: no micro-operation performed yet, PD_STATE and PD_MODE as they become together with the first. -/
def State.start (s : State) (op : Instr) (p : Plan) : State := (s.begin op).mark p.enter

/-- An operation with a micro-operation list. From IDLE its entry checks `check` decide, and if they let it through it performs
its first micro-operation; while it is in flight it performs its next one; while another is in flight it has no meaning
(20_memory.md R66, R71; log 1). -/
def operate (op : Instr) (p : Plan) (check : Outcome → Outcome) (s : State) : Outcome :=
  match s.pc with
  | .idle => check (performNext p (s.start op p))
  | .running i _ _ => if i = op then performNext p s else .refused .untimely

/-! ## Wire frames -/

/-- The four micro-operations of a frame: DC, CS low, the byte, CS high (30_encoding.md R91). -/
def frameItems (f : Frame) : List Micro :=
  [.setPin .dc f.dc, .setPin .cs .low, .spiWrite f.byte, .setPin .cs .high]

/-- Frames one after the other. -/
def framesItems (fs : List Frame) : List Micro := fs.flatMap frameItems

/-- The frames of `SEQ(s)`: each entry's command frame and data frames, in order (30_encoding.md R105). -/
def seqFrames (es : List Entry) : List Frame := es.flatMap Entry.frames

/-- The data frame D(BUF[k]) (42_panel_sequences.md R165). -/
def bufFrameItems (k : Nat) : List Micro :=
  [.setPin .dc .high, .setPin .cs .low, .spiBuf k, .setPin .cs .high]

end Sys2Proof.Machine
end

