-- ==== Sys2Proof/Machine/Encoder.lean ====
section
/-! DEFINITION. The FrameEncoder (spec/43_frame_encoder.md R190 to R198). -/

namespace Sys2Proof.Machine

/-- The two orientations an image may have (R191). -/
inductive Orientation where
  | portrait
  | landscape
  deriving DecidableEq, Repr

/-- The orientation of an image of the size given, if the size is one of the two accepted (R191). -/
def orientationOf (w h : BitVec 16) : Option Orientation :=
  if w.toNat = panelWidth ∧ h.toNat = panelHeight then some .portrait
  else if w.toNat = panelHeight ∧ h.toNat = panelWidth then some .landscape
  else none

/-- The width in pixels of an image of the orientation. -/
def Orientation.width : Orientation → Nat
  | .portrait => panelWidth
  | .landscape => panelHeight

/-- The height in pixels of an image of the orientation. -/
def Orientation.height : Orientation → Nat
  | .portrait => panelHeight
  | .landscape => panelWidth

/-- A pixel is black exactly when R = G = B = 0 (R192). -/
def isBlack (p : Pixel) : Bool := p == 0

/-- The byte of BUF that holds the bit of source pixel (x, y) (R191, R193, R194). -/
def targetIndex : Orientation → Nat → Nat → Nat
  | .portrait, x, y => (x + y * panelWidth) / 8
  | .landscape, x, y => (y + (panelHeight - 1 - x) * panelWidth) / 8

/-- The mask of that bit (R191, R193, R194). -/
def targetMask : Orientation → Nat → Nat → Byte
  | .portrait, x, _ => 0x80#8 >>> (x % 8)
  | .landscape, _, y => 0x80#8 >>> (y % 8)

/-- The pixels in the order the loops visit them: rows from the top, each from the left (R191). -/
def pixelOrder (w h : Nat) : List (Nat × Nat) :=
  (List.range h).flatMap (fun y => (List.range w).map (fun x => (x, y)))

/-- The loop body over the pixels listed: a black pixel clears its bit (R191). An entry never written is refused (R191 f;
20_memory.md R67). -/
def encodePixels (o : Orientation) (img : List (Nat × Pixel)) :
    List (Nat × Nat) → List Host.Cell → Except Refusal (List Host.Cell)
  | [], buf => .ok buf
  | (x, y) :: rest, buf =>
    match Memory.read img (x + y * o.width) with
    | none => .error (.unwritten .img (x + y * o.width))
    | some p =>
      match isBlack p with
      | false => encodePixels o img rest buf
      | true =>
        match Memory.read buf (targetIndex o x y) with
        | none => .error (.unwritten .buf (targetIndex o x y))
        | some b => encodePixels o img rest (Memory.write buf (targetIndex o x y) (b &&& ~~~ targetMask o x y))

/-- The FrameBuffer an image packs into: all white, then the loops (R191). -/
def packImage (o : Orientation) (img : List (Nat × Pixel)) (buf : List Host.Cell) : Except Refusal (List Host.Cell) :=
  encodePixels o img (pixelOrder o.width o.height) (Memory.fill 0xFF frameLen buf)

/-- ENCODE (R191): one step, no event, no acquisition needed (R190). -/
def execEncode (s : State) : Outcome :=
  needIdle s
    (match orientationOf s.imgW s.imgH with
     | none => .next (s.raise .unsupportedImageSize)
     | some o =>
       match packImage o s.img s.buf with
       | .error r => .refused r
       | .ok buf => .next { s with buf := buf, bufLen := BitVec.ofNat 16 frameLen }.complete)

end Sys2Proof.Machine
end

