-- ==== Sys2Proof/Machine/Primitives.lean ====
section
/-! DEFINITION. The PanelDriver primitives (spec/41_panel_primitives.md R140 to R146). -/

namespace Sys2Proof.Machine

/-- RESETPULSE, six micro-operations, the last of them as given (R141). -/
def resetPulse (last : Micro) : List Micro :=
  [.setPin .reset .high, .sleep resetHighFirst, .setPin .reset .low, .sleep resetLow, .setPin .reset .high, last]

/-- PD_STATE becomes Resetting and PD_MODE NONE together with the first micro-operation of the pulse (R141). -/
def pulseMark : Mark := ⟨some .resetting, some .none⟩

/-- The micro-operations of RESET (R141). -/
def resetPlan : Plan := ⟨pulseMark, resetPulse (.sleep resetHighLast), none, ⟨some .idle, none⟩⟩

/-- RESET (R141): ends in Idle, with the panel reset but not configured. -/
def execReset (s : State) : Outcome := operate .reset resetPlan (needAcquired s) s

/-- SENDCMD: the command frame C(b) (R142). -/
def execSendCmd (b : Byte) (s : State) : Outcome :=
  operate (.sendCmd b) (.plain (frameItems ⟨.low, b⟩)) (needAcquired s) s

/-- SENDDATA: the data frame D(b) (R143). -/
def execSendData (b : Byte) (s : State) : Outcome :=
  operate (.sendData b) (.plain (frameItems ⟨.high, b⟩)) (needAcquired s) s

/-- The micro-operations of READBUSY with the poll bound `limit`: WAITIDLE alone (R144). -/
def readBusyPlan (limit : Option Nat) : Plan := ⟨Mark.keep, [], some ⟨limit, []⟩, Mark.keep⟩

/-- READBUSY with the poll bound `limit` (R144). -/
def readBusyWith (limit : Option Nat) (s : State) : Outcome :=
  operate .readBusy (readBusyPlan limit) (needAcquired s) s

/-- READBUSY (R144). -/
def execReadBusy (s : State) : Outcome := readBusyWith Config.setup.pollLimit s

end Sys2Proof.Machine
end

