-- ==== Sys2Proof/Machine/Sequences.lean ====
section
/-! DEFINITION. The PanelDriver sequences (spec/42_panel_sequences.md R160 to R171). Each takes the open parameters of
the ROM as an argument, so that a test may name them; the meaning itself uses Config.setup. -/

namespace Sys2Proof.Machine

/-- CFG_STD (R167). -/
def cfgStd : List Entry := [⟨0x00, [0xAF]⟩, ⟨0x30, [0x3A]⟩, ⟨0x82, [0x12]⟩, ⟨0x50, [0x57]⟩]

/-- CFG_GRAY4 (R168). -/
def cfgGray4 : List Entry :=
  [⟨0x00, [0xBF]⟩, ⟨0x30, [0x90]⟩, ⟨0x61, [0x00, 0xB0, 0x01, 0x08]⟩, ⟨0x82, [0x12]⟩, ⟨0x50, [0x57]⟩]

/-- LUT_SEQ (R169). -/
def lutSeq (c : Setup) : List Entry :=
  [⟨0x20, c.lutVcom.toList⟩, ⟨0x21, c.lutW2w.toList⟩, ⟨0x22, c.lutB2w.toList⟩, ⟨0x23, c.lutB2b.toList⟩,
   ⟨0x24, c.lutW2b.toList⟩]

/-- The frames both INIT variants send before their wait: PREFIX_SEQ, then POWER_ON (R162, R163). -/
def initFrames (c : Setup) : List Frame := seqFrames (c.powerPrefix ++ [⟨0x04, []⟩])

/-- What both INIT variants do before their wait: the reset pulse, Configuring together with its last sleep, the frames
(R162, R163; 90_conflicts.md C1). -/
def initBefore (c : Setup) : List Micro :=
  resetPulse (.sleepInto resetHighLast .configuring) ++ framesItems (initFrames c)

/-- The frames INIT sends after its wait: CFG_STD, then LUT_SEQ (R162). -/
def stdFrames (c : Setup) : List Frame := seqFrames (cfgStd ++ lutSeq c)

/-- The frames INIT4GRAY sends after its wait: no waveform table (R163). -/
def gray4Frames : List Frame := seqFrames cfgGray4

/-- The micro-operations of INIT; Idle and STANDARD come together with the last setPin (R162). -/
def initPlan (c : Setup) : Plan :=
  ⟨pulseMark, initBefore c, some ⟨c.pollLimit, framesItems (stdFrames c)⟩, ⟨some .idle, some .standard⟩⟩

/-- INIT under the parameters `c` (R162). -/
def initWith (c : Setup) (s : State) : Outcome := operate .init (initPlan c) (needAcquired s) s

/-- INIT (R162). -/
def execInit (s : State) : Outcome := initWith Config.setup s

/-- The micro-operations of INIT4GRAY; Idle and GRAY4 come together with the last setPin (R163). -/
def init4GrayPlan (c : Setup) : Plan :=
  ⟨pulseMark, initBefore c, some ⟨c.pollLimit, framesItems gray4Frames⟩, ⟨some .idle, some .gray4⟩⟩

/-- INIT4GRAY under the parameters `c` (R163). -/
def init4GrayWith (c : Setup) (s : State) : Outcome := operate .init4Gray (init4GrayPlan c) (needAcquired s) s

/-- INIT4GRAY (R163). -/
def execInit4Gray (s : State) : Outcome := init4GrayWith Config.setup s

/-- The frames of CLEAR: both planes filled with `f`, then the refresh command (R164). -/
def clearFrames (f : Byte) : List Frame :=
  seqFrames [⟨0x10, List.replicate frameLen f⟩, ⟨0x13, List.replicate frameLen f⟩, ⟨0x12, []⟩]

/-- A refresh with what it does before its wait: Refreshing comes together with the first setPin, Idle with the read of 0 that
ends the wait (R164, R165). -/
def refreshPlan (limit : Option Nat) (before : List Micro) : Plan :=
  ⟨⟨some .refreshing, none⟩, before, some ⟨limit, []⟩, ⟨some .idle, none⟩⟩

/-- The micro-operations of CLEAR with the poll bound `limit` (R164). -/
def clearPlan (limit : Option Nat) (f : Byte) : Plan := refreshPlan limit (framesItems (clearFrames f))

/-- CLEAR with the poll bound `limit` (R164). -/
def clearWith (limit : Option Nat) (f : Byte) (s : State) : Outcome :=
  operate (.clear f) (clearPlan limit f) (fun go => needAcquired s (needReady s go)) s

/-- CLEAR (R164). -/
def execClear (f : Byte) (s : State) : Outcome := clearWith Config.setup.pollLimit f s

/-- The frames that clear the previous-image plane in DISPLAYFRAME (R165). -/
def oldPlaneFrames : List Frame := seqFrames [⟨0x10, List.replicate frameLen 0xFF⟩]

/-- The data frames of the second plane of DISPLAYFRAME: BUF[0] to BUF[5807], in ascending order (R165 b). -/
def newPlaneItems : List Micro := (List.range frameLen).flatMap bufFrameItems

/-- What DISPLAYFRAME does before its wait (R165). -/
def displayBefore : List Micro :=
  framesItems oldPlaneFrames ++ .sleep settleTime ::
    (frameItems ⟨.low, 0x13⟩ ++ newPlaneItems ++ frameItems ⟨.low, 0x12⟩)

/-- The micro-operations of DISPLAYFRAME with the poll bound `limit` (R165). -/
def displayPlan (limit : Option Nat) : Plan := refreshPlan limit displayBefore

/-- The length check of DISPLAYFRAME (R165; 60_exceptions.md R243). -/
def needFrame (s : State) (go : Outcome) : Outcome :=
  if s.bufLen.toNat ≠ frameLen then .next (s.raise .invalidFrameSize) else go

/-- DISPLAYFRAME with the poll bound `limit` (R165): the length is checked first. -/
def displayFrameWith (limit : Option Nat) (s : State) : Outcome :=
  operate .displayFrame (displayPlan limit) (fun go => needFrame s (needAcquired s (needReady s go))) s

/-- DISPLAYFRAME (R165). -/
def execDisplayFrame (s : State) : Outcome := displayFrameWith Config.setup.pollLimit s

end Sys2Proof.Machine
end

