-- ==== Sys2Proof/Machine/Transport.lean ====
section
/-! DEFINITION. The Transport operations (spec/40_transport.md R125 to R131). -/

namespace Sys2Proof.Machine

/-- An ACQUIRE the environment may grant or refuse (40_transport.md R125 cases 1 and 2). Either all six resources are open
afterwards or none. -/
def State.tryAcquire (s : State) : State :=
  let s' := { s with grants := s.grants.skip 1 }
  match s.grantAt 0 with
  | true => ({ s' with trState := .acquired, pins := Pins.closed }.emit .opened).complete
  | false => s'.raise .hardwareUnavailable

/-- ACQUIRE (R125). -/
def execAcquire (s : State) : Outcome :=
  needIdle s
    (match s.trState with
     | .unacquired => .next s.tryAcquire
     | .acquired => .refused (.contractViolation .acquireAgain)
     | .released => .refused (.contractViolation .acquireAgain))

/-- The micro-operations of RELEASE from ACQUIRED (R126). -/
def releasePlan : Plan :=
  .plain [.setPin .reset .low, .setPin .dc .low, .setPin .power .low, .close]

/-- Outside ACQUIRED there is nothing to close, and RELEASE ends OK with nothing done (R126). -/
def needOpen (s : State) (go : Outcome) : Outcome :=
  match s.trState with
  | .acquired => go
  | .unacquired => .next s.complete
  | .released => .next s.complete

/-- RELEASE (R126): outside ACQUIRED nothing happens and no error is raised. -/
def execRelease (s : State) : Outcome := operate .release releasePlan (needOpen s) s

/-- SETPIN (R127): the role is checked before the acquisition. -/
def execSetPin (role : PinRole) (level : Level) (s : State) : Outcome :=
  match outputOf role with
  | none => needIdle s (.next (s.raise .invalidPinRole))
  | some r => operate (.setPin role level) (.plain [.setPin r level]) (needAcquired s) s

/-- READPIN (R128): only BUSY can be read; the result is left in STATUS.RDVAL. -/
def execReadPin (role : PinRole) (s : State) : Outcome :=
  match outputOf role with
  | none => operate (.readPin role) (.plain [.readPin]) (needAcquired s) s
  | some _ => needIdle s (.next (s.raise .invalidPinRole))

/-- SLEEP (R129): needs no acquisition. -/
def execSleep (ms : BitVec 16) (s : State) : Outcome :=
  operate (.sleep ms) (.plain [.sleep ms.toNat]) id s

/-- WRITEBYTE (R130): a raw SPI byte, DC and CS untouched. -/
def execWriteByte (b : Byte) (s : State) : Outcome :=
  operate (.writeByte b) (.plain [.spiWrite b]) (needAcquired s) s

/-- The bytes BUF[0] to BUF[len − 1], in ascending order (R131). -/
def bufferPlan (len : Nat) : Plan := .plain ((List.range len).map .spiBuf)

/-- The length check of WRITEBYTES (R131). -/
def needBuffer (s : State) (go : Outcome) : Outcome :=
  if bufCap < s.bufLen.toNat then .refused (.contractViolation .bufferTooLong) else go

/-- WRITEBYTES (R131). -/
def execWriteBytes (s : State) : Outcome :=
  operate .writeBytes (bufferPlan s.bufLen.toNat) (fun go => needAcquired s (needBuffer s go)) s

end Sys2Proof.Machine
end

