-- ==== Sys2Proof/Machine/WireCommands.lean ====
section
/-! DEFINITION. The panel commands as the CORE sends them (spec/44_wire_commands.md R210 to R228): the command frame
C(cmd), then a data frame D(d) for each data byte. The CORE does not interpret what it sends; what the panel does with it is
the environment's (spec/00_scope.md R4 f). -/

namespace Sys2Proof.Machine

/-- One entry sent to the panel, its frames in order (R210; 30_encoding.md R92). Like every operation with a pin or SPI
micro-operation it needs the Transport acquired (40_transport.md R120); PD_STATE and PD_MODE are neither read nor written
(41_panel_primitives.md R140). -/
def sendEntry (op : Instr) (e : Entry) (s : State) : Outcome :=
  operate op (.plain (framesItems e.frames)) (needAcquired s) s

/-- 0x00, one data byte (R211). -/
def execPanelSetting (d : Byte) (s : State) : Outcome := sendEntry (.panelSetting d) ⟨0x00, [d]⟩ s

/-- 0x01, data bytes as PREFIX_SEQ gives them (R212). -/
def execPowerSetting (ds : List Byte) (s : State) : Outcome := sendEntry (.powerSetting ds) ⟨0x01, ds⟩ s

/-- 0x04, no data byte (R213). -/
def execPowerOn (s : State) : Outcome := sendEntry .powerOn ⟨0x04, []⟩ s

/-- 0x06, data bytes as PREFIX_SEQ gives them (R214). -/
def execBoosterSoftStart (ds : List Byte) (s : State) : Outcome := sendEntry (.boosterSoftStart ds) ⟨0x06, ds⟩ s

/-- 0x10, 5808 data bytes (R215). -/
def execWritePlaneOld (ds : List Byte) (s : State) : Outcome := sendEntry (.writePlaneOld ds) ⟨0x10, ds⟩ s

/-- 0x12, no data byte (R216). -/
def execDisplayRefresh (s : State) : Outcome := sendEntry .displayRefresh ⟨0x12, []⟩ s

/-- 0x13, 5808 data bytes (R217). -/
def execWritePlaneNew (ds : List Byte) (s : State) : Outcome := sendEntry (.writePlaneNew ds) ⟨0x13, ds⟩ s

/-- 0x16, data bytes as PREFIX_SEQ gives them (R218). -/
def execPartialRefreshControl (ds : List Byte) (s : State) : Outcome := sendEntry (.partialRefreshControl ds) ⟨0x16, ds⟩ s

/-- 0x20, 44 data bytes (R219). -/
def execLutVcom (ds : List Byte) (s : State) : Outcome := sendEntry (.lutVcom ds) ⟨0x20, ds⟩ s

/-- 0x21, 42 data bytes (R220). -/
def execLutW2w (ds : List Byte) (s : State) : Outcome := sendEntry (.lutW2w ds) ⟨0x21, ds⟩ s

/-- 0x22, 42 data bytes (R221). -/
def execLutB2w (ds : List Byte) (s : State) : Outcome := sendEntry (.lutB2w ds) ⟨0x22, ds⟩ s

/-- 0x23, 42 data bytes (R222). -/
def execLutB2b (ds : List Byte) (s : State) : Outcome := sendEntry (.lutB2b ds) ⟨0x23, ds⟩ s

/-- 0x24, 42 data bytes (R223). -/
def execLutW2b (ds : List Byte) (s : State) : Outcome := sendEntry (.lutW2b ds) ⟨0x24, ds⟩ s

/-- 0x30, one data byte (R224). -/
def execPllControl (d : Byte) (s : State) : Outcome := sendEntry (.pllControl d) ⟨0x30, [d]⟩ s

/-- 0x50, one data byte (R225). -/
def execVcomAndInterval (d : Byte) (s : State) : Outcome := sendEntry (.vcomAndInterval d) ⟨0x50, [d]⟩ s

/-- 0x61, two 16-bit values, each high byte first (R226). -/
def execResolutionSetting (width height : BitVec 16) (s : State) : Outcome :=
  sendEntry (.resolutionSetting width height) ⟨0x61, bytesOf16 width ++ bytesOf16 height⟩ s

/-- 0x82, one data byte (R227). -/
def execVcomDc (d : Byte) (s : State) : Outcome := sendEntry (.vcomDc d) ⟨0x82, [d]⟩ s

/-- 0xF8, data bytes as PREFIX_SEQ gives them (R228). -/
def execPowerOptimization (ds : List Byte) (s : State) : Outcome := sendEntry (.powerOptimization ds) ⟨0xF8, ds⟩ s

end Sys2Proof.Machine
end

