-- ==== Sys2Proof/Machine/Dispatch.lean ====
section
/-! DEFINITION. exec: the meaning of every operation, one arm per row of spec/opcode_table.json. -/

namespace Sys2Proof.Machine

def exec (i : Instr) (s : State) : Host.Outcome State Fault Refusal :=
  match i with
  | .acquire => Sys2Proof.Machine.execAcquire s
  | .release => Sys2Proof.Machine.execRelease s
  | .setPin role level => Sys2Proof.Machine.execSetPin role level s
  | .readPin role => Sys2Proof.Machine.execReadPin role s
  | .sleep ms => Sys2Proof.Machine.execSleep ms s
  | .writeByte b => Sys2Proof.Machine.execWriteByte b s
  | .writeBytes => Sys2Proof.Machine.execWriteBytes s
  | .reset => Sys2Proof.Machine.execReset s
  | .sendCmd b => Sys2Proof.Machine.execSendCmd b s
  | .sendData b => Sys2Proof.Machine.execSendData b s
  | .readBusy => Sys2Proof.Machine.execReadBusy s
  | .init => Sys2Proof.Machine.execInit s
  | .init4Gray => Sys2Proof.Machine.execInit4Gray s
  | .clear f => Sys2Proof.Machine.execClear f s
  | .displayFrame => Sys2Proof.Machine.execDisplayFrame s
  | .encode => Sys2Proof.Machine.execEncode s
  | .panelSetting d => Sys2Proof.Machine.execPanelSetting d s
  | .powerSetting ds => Sys2Proof.Machine.execPowerSetting ds s
  | .powerOn => Sys2Proof.Machine.execPowerOn s
  | .boosterSoftStart ds => Sys2Proof.Machine.execBoosterSoftStart ds s
  | .writePlaneOld ds => Sys2Proof.Machine.execWritePlaneOld ds s
  | .displayRefresh => Sys2Proof.Machine.execDisplayRefresh s
  | .writePlaneNew ds => Sys2Proof.Machine.execWritePlaneNew ds s
  | .partialRefreshControl ds => Sys2Proof.Machine.execPartialRefreshControl ds s
  | .lutVcom ds => Sys2Proof.Machine.execLutVcom ds s
  | .lutW2w ds => Sys2Proof.Machine.execLutW2w ds s
  | .lutB2w ds => Sys2Proof.Machine.execLutB2w ds s
  | .lutB2b ds => Sys2Proof.Machine.execLutB2b ds s
  | .lutW2b ds => Sys2Proof.Machine.execLutW2b ds s
  | .pllControl d => Sys2Proof.Machine.execPllControl d s
  | .vcomAndInterval d => Sys2Proof.Machine.execVcomAndInterval d s
  | .resolutionSetting width height => Sys2Proof.Machine.execResolutionSetting width height s
  | .vcomDc d => Sys2Proof.Machine.execVcomDc d s
  | .powerOptimization ds => Sys2Proof.Machine.execPowerOptimization ds s

end Sys2Proof.Machine
end

