-- ==== Sys2Proof/Machine/Flags.lean ====
section
/-! DEFINITION. The STATUS register: the codes of its fields and the word the host reads (spec/10_state.md R28, R32;
spec/60_exceptions.md R240). -/

namespace Sys2Proof.Machine

/-- The error codes (60_exceptions.md R240). -/
def Err.code : Err → BitVec 8
  | .ok => 0x00
  | .hardwareUnavailable => 0x01
  | .transferFailure => 0x02
  | .invalidFrameSize => 0x03
  | .unsupportedImageSize => 0x04
  | .panelTimeout => 0x05
  | .invalidPinRole => 0x06
  | .notAcquired => 0x07
  | .illegalOperation => 0x08
  | .contractViolation => 0x09

/-- STATUS.ACQ: 1 exactly when TR_STATE = ACQUIRED (R32). -/
def TrState.acqBit : TrState → BitVec 1
  | .unacquired => 0
  | .acquired => 1
  | .released => 0

/-- STATUS.REL: 1 exactly when TR_STATE = RELEASED (R32). -/
def TrState.relBit : TrState → BitVec 1
  | .unacquired => 0
  | .acquired => 0
  | .released => 1

/-- The encoding of STATUS.PD_STATE (R32). -/
def PdState.code : PdState → BitVec 3
  | .poweredOff => 0
  | .resetting => 1
  | .configuring => 2
  | .idle => 3
  | .refreshing => 4

/-- The encoding of STATUS.PD_MODE (R32). -/
def PdMode.code : PdMode → BitVec 2
  | .none => 0
  | .standard => 1
  | .gray4 => 2

/-- The STATUS word: RDVAL in bit 15, PD_MODE in 14:13, PD_STATE in 12:10, REL in 9, ACQ in 8, ERR in 7:0, bits 31:16
zero (R32). -/
def State.status (s : State) : Word :=
  0#16 ++ s.rdval.bit ++ s.pdMode.code ++ s.pdState.code ++ s.trState.relBit ++ s.trState.acqBit ++ s.err.code

end Sys2Proof.Machine
end

