-- ==== Sys2Proof/Machine/HostPort.lean ====
section
/-! DEFINITION. The host port: the register map, the accesses of the host, and what the CORE does next
(spec/10_state.md R23, R29 to R34; spec/20_memory.md R60, R65 to R67, R72; spec/70_reset_and_hazards.md R280). -/

namespace Sys2Proof.Machine

/-- What a fetch finds: an operation to run and the state to run it in, or a step that runs no operation. -/
inductive Fetched where
  | run (i : Instr) (s : State)
  | done (o : Host.Outcome State Fault Refusal)

/-- What the host reads from a register (10_state.md R29 to R32): OPW reads 0, the 16-bit registers read with zeros
above. -/
def State.register (s : State) : Nat → Option Word
  | 0 => some 0
  | 1 => some s.status
  | 2 => some (s.bufLen.zeroExtend 32)
  | 3 => some (s.imgW.zeroExtend 32)
  | 4 => some (s.imgH.zeroExtend 32)
  | _ => none

/-- A host read (20_memory.md R65): no effect but the value given back (log 3). An index the space does not have is refused
(R66), and so is an entry never written (R67). -/
def hostRead (space : Space) (index : Nat) (s : State) : Outcome :=
  match space with
  | .reg =>
    match s.register index with
    | some v => .next { s with hostData := v }
    | none => .refused (.outOfRange .reg index)
  | .buf =>
    if bufCap ≤ index then .refused (.outOfRange .buf index)
    else match Memory.read s.buf index with
      | some b => .next { s with hostData := b.zeroExtend 32 }
      | none => .refused (.unwritten .buf index)
  | .img =>
    if imgCap ≤ index then .refused (.outOfRange .img index)
    else match Memory.read s.img index with
      | some p => .next { s with hostData := p.zeroExtend 32 }
      | none => .refused (.unwritten .img index)

/-- A host write to a register other than OPW (10_state.md R30 to R32): STATUS ignores it, a 16-bit register takes the low
16 bits (log 8), an index from 5 up is refused (20_memory.md R66). -/
def hostWriteReg (index : Nat) (v : Word) (s : State) : Outcome :=
  match index with
  | 1 => .next s
  | 2 => .next { s with bufLen := v.extractLsb' 0 16 }
  | 3 => .next { s with imgW := v.extractLsb' 0 16 }
  | 4 => .next { s with imgH := v.extractLsb' 0 16 }
  | n => .refused (.outOfRange .reg n)

/-- A host write to an entry of BUF (10_state.md R33; 20_memory.md R66). -/
def hostWriteBuf (index : Nat) (v : Byte) (s : State) : Outcome :=
  if bufCap ≤ index then .refused (.outOfRange .buf index)
  else .next { s with buf := Memory.write s.buf index v }

/-- A host write to an entry of IMG (10_state.md R34; 20_memory.md R66). -/
def hostWriteImg (index : Nat) (v : Pixel) (s : State) : Outcome :=
  if imgCap ≤ index then .refused (.outOfRange .img index)
  else .next { s with img := Memory.write s.img index v }

/-- A host write to OPW issues the operation the word spells; an illegal word raises IllegalOperation and does nothing
else (10_state.md R29; 30_encoding.md R102; 60_exceptions.md R247). -/
def issueWord (w : Word) (s : State) : Fetched :=
  match decodeWord w with
  | .ok i => .run i s
  | .error _ => .done (.next (s.raise .illegalOperation))

/-- A wire entry of the host's (log 7). -/
def issueEntry (fs : List Frame) (s : State) : Fetched :=
  match decodeFrames fs with
  | .ok i => .run i s
  | .error e => .done (.refused (.notAnEntry e))

/-- One move of the host, which has no meaning while an operation is in flight (20_memory.md R66). -/
def hostMove (m : HostMove) (s : State) : Fetched :=
  match s.pc with
  | .running _ _ _ => .done (.refused .untimely)
  | .idle =>
    match m with
    | .read space index => .done (hostRead space index s)
    | .writeReg index v =>
      match index with
      | 0 => issueWord v s
      | n + 1 => .done (hostWriteReg (n + 1) v s)
    | .writeBuf index v => .done (hostWriteBuf index v s)
    | .writeImg index v => .done (hostWriteImg index v s)
    | .entry fs => issueEntry fs s

/-- What the CORE does next. An operation in flight goes on, and the host has no move (20_memory.md R72). At IDLE the host's
next move is taken; where the host makes none, the CORE does nothing (70_reset_and_hazards.md R280). -/
def fetch (s : State) : Fetched :=
  match s.pc with
  | .running op _ _ => .run op s
  | .idle =>
    match s.host with
    | [] => .done (.next s)
    | m :: rest => hostMove m { s with host := rest }

/-- The host move that makes the CORE run the table's row with bits `w` (see decodeTableWord). -/
def placedMove (nbits w : Nat) : HostMove :=
  if nbits = 8 then .entry (tableFrames (BitVec.ofNat 8 w)) else .writeReg 0 (BitVec.ofNat 32 w)

end Sys2Proof.Machine
end

