-- ==== Sys2Proof/Machine/Step.lean ====
section
/-! DEFINITION. One step of the machine: what the fetch finds, run (spec/10_state.md R23, R29; log 1). -/

namespace Sys2Proof.Machine

/-- One step: a move of the host that issues no operation, or one micro-operation of the operation that is issued or in flight
(10_state.md R23; log 1). -/
def step (s : State) : Host.Outcome State Fault Refusal :=
  match fetch s with
  | .run i s' => exec i s'
  | .done o => o

/-- The state whose next step runs the instruction of the table's row with bits `w`: nothing is in flight, and the host's
next move issues it (log 2). -/
def State.withFetchWord (s : State) (nbits w : Nat) : State :=
  { s with pc := .idle, host := placedMove nbits w :: s.host }

end Sys2Proof.Machine
end

