-- ==== Sys2Proof/Machine/Trace.lean ====
section
/-! DEFINITION. Views of the event trace: the wire view, the time slept, the reads of BUSY (spec/10_state.md R40, R41;
spec/70_reset_and_hazards.md R311). -/

namespace Sys2Proof.Machine

/-- The wire view from given tracked levels of DC and CS (10_state.md R41). -/
def wireFrom : PinLevel → PinLevel → List Event → List Frame
  | _, _, [] => []
  | dc, cs, .pinWrite r l :: es =>
    match r with
    | .dc => wireFrom (.driven l) cs es
    | .cs => wireFrom dc (.driven l) es
    | .reset => wireFrom dc cs es
    | .power => wireFrom dc cs es
  | dc, cs, .spiWrite b :: es =>
    match dc, cs with
    | .driven d, .driven .low => ⟨d, b⟩ :: wireFrom dc cs es
    | .driven _, .driven .high => wireFrom dc cs es
    | .driven _, .unknown => wireFrom dc cs es
    | .unknown, _ => wireFrom dc cs es
  | dc, cs, .opened :: es => wireFrom dc cs es
  | dc, cs, .pinRead _ :: es => wireFrom dc cs es
  | dc, cs, .sleep _ :: es => wireFrom dc cs es
  | dc, cs, .spiFault _ :: es => wireFrom dc cs es
  | dc, cs, .closed :: es => wireFrom dc cs es

/-- The wire view of a trace: the pairs (dc, byte) the panel sees (10_state.md R41). -/
def wireView (es : List Event) : List Frame := wireFrom .unknown .unknown es

/-- The level of the last PinWrite of `r` in a trace, `unknown` where there is none (10_state.md R41). -/
def lastLevel (r : OutPin) (es : List Event) : PinLevel :=
  es.foldl (fun p e => match e with | .pinWrite r' l => if r' = r then .driven l else p | _ => p) .unknown

/-- The sum of the sleep arguments: a lower bound on the time the events take, in ms (70_reset_and_hazards.md R311). -/
def sleptTotal (es : List Event) : Nat :=
  (es.map (fun e => match e with | .sleep n => n | _ => 0)).sum

/-- The number of reads of BUSY (41_panel_primitives.md R144). -/
def readCount (es : List Event) : Nat :=
  es.countP (fun e => match e with | .pinRead _ => true | _ => false)

/-- The four events of a frame sent whole (30_encoding.md R91). -/
def frameEvents (f : Frame) : List Event :=
  [.pinWrite .dc f.dc, .pinWrite .cs .low, .spiWrite f.byte, .pinWrite .cs .high]

/-- The events of frames sent one after the other. -/
def framesEvents (fs : List Frame) : List Event := fs.flatMap frameEvents

/-- The events of WAITIDLE that finds BUSY at 1 `n` times and then at 0 (41_panel_primitives.md R144 a). -/
def waitEvents (n : Nat) : List Event :=
  (List.replicate n [Event.pinRead .high, Event.sleep 200]).flatten ++ [.pinRead .low]

/-- The six events of the reset pulse (41_panel_primitives.md R141). -/
def pulseEvents : List Event :=
  [.pinWrite .reset .high, .sleep 200, .pinWrite .reset .low, .sleep 5, .pinWrite .reset .high, .sleep 200]

end Sys2Proof.Machine
end

