-- ==== Sys2Proof/Safety.lean ====
section
/-! DEFINITION. What counts as a good state and a good run of the CORE: the invariants of spec/10_state.md R43, the
canonical form of the memories, and the faulted and the good end of a run (spec/60_exceptions.md R252;
spec/70_reset_and_hazards.md R300). -/

namespace Sys2Proof.Machine

/-- R43 (a): outside ACQUIRED no pin is driven and the panel is neither powered nor configured. -/
abbrev State.ClosedUnlessAcquired (s : State) : Prop :=
  s.trState ≠ .acquired → s.pins = Pins.closed ∧ s.pdState = .poweredOff ∧ s.pdMode = .none

/-- R43 (b): a configured panel is Idle or Refreshing. -/
abbrev State.ConfiguredIsIdleOrRefreshing (s : State) : Prop :=
  s.pdMode ≠ .none → s.pdState = .idle ∨ s.pdState = .refreshing

/-- The micro-operation list of an operation of the host port, if it has one: ACQUIRE and ENCODE are one step each, and SETPIN of
BUSY and READPIN of an output raise an error before any (10_state.md R23; 20_memory.md R68 b; 43_frame_encoder.md R191 d). -/
def opPlan (c : Setup) (s : State) : Instr → Option Plan
  | .acquire => none
  | .release => some releasePlan
  | .setPin role level => (outputOf role).map (fun r => .plain [.setPin r level])
  | .readPin role => if role = .busy then some (.plain [.readPin]) else none
  | .sleep ms => some (.plain [.sleep ms.toNat])
  | .writeByte b => some (.plain [.spiWrite b])
  | .writeBytes => some (bufferPlan s.bufLen.toNat)
  | .reset => some resetPlan
  | .sendCmd b => some (.plain (frameItems ⟨.low, b⟩))
  | .sendData b => some (.plain (frameItems ⟨.high, b⟩))
  | .readBusy => some (readBusyPlan c.pollLimit)
  | .init => some (initPlan c)
  | .init4Gray => some (init4GrayPlan c)
  | .clear f => some (clearPlan c.pollLimit f)
  | .displayFrame => some (displayPlan c.pollLimit)
  | .encode => none
  | .panelSetting _ | .powerSetting _ | .powerOn | .boosterSoftStart _ | .writePlaneOld _ | .displayRefresh
  | .writePlaneNew _ | .partialRefreshControl _ | .lutVcom _ | .lutW2w _ | .lutB2w _ | .lutB2b _ | .lutW2b _
  | .pllControl _ | .vcomAndInterval _ | .resolutionSetting _ _ | .vcomDc _ | .powerOptimization _ => none

/-- The micro-operation list of an operation: of a wire command its frames (44_wire_commands.md R210), of a host operation that of
`opPlan`. -/
def planOf (c : Setup) (s : State) (i : Instr) : Option Plan :=
  match encode i with
  | .frames fs => some (.plain (framesItems fs))
  | .word _ => opPlan c s i

/-- The position `k` with `n` reads made, the last of which answered `last`, is one that the list comes through: some
micro-operation is done and some is left, and the reads made lie before it (10_state.md R23). -/
def Plan.reaches (p : Plan) (k n : Nat) (last : Level) : Prop :=
  1 ≤ k ∧ k < (p.items n last).length ∧ (n = 0 ∨ p.before.length + 2 * n ≤ k + 1)

/-- PD_STATE and PD_MODE as each operation that moves them has them while it is in flight, `k` micro-operations done
(10_state.md R26, R27; 41_panel_primitives.md R141; 42_panel_sequences.md R162 to R165). -/
def panelFits (op : Instr) (k : Nat) (p : PdState) (m : PdMode) : Prop :=
  (op = .reset → p = .resetting ∧ m = .none) ∧
  (op = .init ∨ op = .init4Gray → p = (if k < 6 then .resetting else .configuring) ∧ m = .none) ∧
  ((∃ f, op = .clear f) ∨ op = .displayFrame → p = .refreshing ∧ m ≠ .none)

/-- The micro-operation puts a byte on SPI. -/
def Micro.sends : Micro → Bool
  | .spiWrite _ | .spiBuf _ => true
  | .setPin _ _ | .readPin | .sleep _ | .sleepInto _ _ | .close | .poll _ => false

/-- CS is low where the next micro-operation of a frame is its byte (30_encoding.md R91). WRITEBYTE and WRITEBYTES send no frames
(40_transport.md R130, R131). -/
def State.FrameOpen (s : State) (op : Instr) (p : Plan) : Prop :=
  (∀ b, op ≠ .writeByte b) → op ≠ .writeBytes →
    ∀ m, (s.items p)[s.pc.done]? = some m → m.sends = true → s.pins.cs = .driven .low

/-- What is in flight between two steps, under the parameters `c`: an operation with a micro-operation list, at a position of it,
with the pins open, PD_STATE and PD_MODE as the operation has them, CS low inside a frame, and a bound on the reads of BUSY not
passed (41_panel_primitives.md R144, R145). -/
def State.InFlightProperly (c : Setup) (s : State) : Prop :=
  match s.pc with
  | .idle => True
  | .running op k n =>
    s.trState = .acquired ∧ panelFits op k s.pdState s.pdMode ∧
    (∀ m, c.pollLimit = some m → 1 ≤ m → n ≤ m ∧ (s.rdval = .high → n < m)) ∧
    ∃ p, planOf c s op = some p ∧ p.reaches k n s.rdval ∧ s.FrameOpen op p

/-- BUF and IMG are in canonical form and within their spaces (10_state.md R33, R34). -/
abbrev State.MemoriesCanonical (s : State) : Prop :=
  Memory.wf s.buf ∧ Memory.within bufCap s.buf ∧ Memory.wf s.img ∧ Memory.within imgCap s.img

/-- A trace that holds an SpiFault belongs to a faulted run (60_exceptions.md R252). -/
abbrev State.FaultsMarked (s : State) : Prop :=
  ∀ b, Event.spiFault b ∈ s.trace → s.faultMark = true

/-- The invariant under the ROM contents and the poll bound `c`. -/
structure State.InvUnder (c : Setup) (s : State) : Prop where
  closed : s.ClosedUnlessAcquired
  configured : s.ConfiguredIsIdleOrRefreshing
  inFlight : s.InFlightProperly c
  memories : s.MemoriesCanonical
  faults : s.FaultsMarked

/-- The invariant of the machine. -/
abbrev State.Inv (s : State) : Prop := s.InvUnder Config.setup

/-- The micro-operations that an operation performs before its wait for BUSY, if it has one (42_panel_sequences.md R162 to
R165). -/
def waitStart (c : Setup) : Instr → Option Nat
  | .readBusy => some 0
  | .init => some (6 + 4 * (initFrames c).length)
  | .init4Gray => some (6 + 4 * (initFrames c).length)
  | .clear _ => some 46476
  | .displayFrame => some 46477
  | _ => none

/-- The operations that send wire frames (30_encoding.md R91, R105). -/
def sendsFrames (i : Instr) : Prop :=
  (∃ b, i = .sendCmd b) ∨ (∃ b, i = .sendData b) ∨ i = .init ∨ i = .init4Gray ∨ (∃ f, i = .clear f) ∨
  i = .displayFrame ∨ ∃ fs, encode i = .frames fs

/-! ## Runs -/

/-- `exec` under the ROM contents and the poll bound `c`, which the machine has at Config.setup (spec/10_state.md R35;
spec/00_scope.md R7, R8). Only the five operations that wait for BUSY read them. -/
def execWith (c : Setup) (i : Instr) (s : State) : Outcome :=
  match i with
  | .readBusy => readBusyWith c.pollLimit s
  | .init => initWith c s
  | .init4Gray => init4GrayWith c s
  | .clear f => clearWith c.pollLimit f s
  | .displayFrame => displayFrameWith c.pollLimit s
  | i => exec i s

/-- An operation from where it stands (its issue, or a position in flight), `turn` being its step: its steps one after the other
until it has ended, `n` of them at most (10_state.md R23). -/
def untilEnd (turn : State → Outcome) : Nat → State → Outcome
  | 0, s => .next s
  | n + 1, s =>
    match turn s with
    | .next t =>
      match t.pc with
      | .idle => .next t
      | .running _ _ _ => untilEnd turn n t
    | .fault r => .fault r
    | .refused r => .refused r

/-- The operation `i` run until it has ended, for `n` steps at most. -/
abbrev runOp (n : Nat) (i : Instr) (s : State) : Outcome := untilEnd (exec i) n s

/-- The operation `i` under the parameters `c`, run until it has ended, for `n` steps at most. -/
abbrev runWith (c : Setup) (n : Nat) (i : Instr) (s : State) : Outcome := untilEnd (execWith c i) n s

/-- Operations run one after the other, each for at most `n` steps and from the state the one before it left. -/
def runOps (n : Nat) : List Instr → State → Outcome
  | [], s => .next s
  | i :: is, s =>
    match runOp n i s with
    | .next t => runOps n is t
    | .fault r => .fault r
    | .refused r => .refused r

/-- `k` steps, stopping at the first refusal: the host's Host.Core.run of this machine, written over State. -/
def steps : Nat → State → Outcome
  | 0, s => .next s
  | k + 1, s =>
    match step s with
    | .next t => steps k t
    | .fault r => .fault r
    | .refused r => .refused r

/-! ## The end of a run -/

/-- The end of an operation: which it was, `none` where the word spelled none; the code in ERR; the last BUSY sample. -/
structure End where
  op : Option Instr
  err : Err
  rdval : Level
  deriving DecidableEq, Repr

/-- The end of an operation in the step from `s` to `t`, if one ended there (10_state.md R28; 60_exceptions.md R247). -/
def endOf (s t : State) : Option End :=
  match fetch s with
  | .run i _ => if t.pc = .idle then some ⟨some i, t.err, t.rdval⟩ else none
  | .done _ =>
    match s.host with
    | .writeReg 0 _ :: _ => if s.pc = .idle then some ⟨none, t.err, t.rdval⟩ else none
    | _ => none

/-- The ends of operations in the `k` steps from `s`, in order. -/
def ends : Nat → State → List End
  | 0, _ => []
  | k + 1, s =>
    match step s with
    | .next t => (endOf s t).toList ++ ends k t
    | .fault _ => []
    | .refused _ => []

/-- The end of a CLEAR or of a DISPLAYFRAME. -/
def End.ofRefresh (e : End) : Bool :=
  match e.op with
  | some (.clear _) => true
  | some .displayFrame => true
  | _ => false

/-- A run is over: nothing is in flight and the host issues nothing more (70_reset_and_hazards.md R300). -/
abbrev State.Over (s : State) : Prop := s.pc = .idle ∧ s.host = []

/-- A good end of the run of `k` steps from `s`, for a claim that names the errors `named`: the run is over, no operation of it
ended with an error other than those, and the trace holds no SpiFault (70_reset_and_hazards.md R300). -/
def GoodEnd (named : List Err) (k : Nat) (s : State) : Prop :=
  ∃ t, steps k s = .next t ∧ t.Over ∧ (∀ e ∈ ends k s, e.err = .ok ∨ e.err ∈ named) ∧ ∀ b, .spiFault b ∉ t.trace

/-- The last CLEAR or DISPLAYFRAME of the run returned: it ended OK and its final PinRead was 0 (70_reset_and_hazards.md R300). -/
def LastRefreshReturned (k : Nat) (s : State) : Prop :=
  ∃ e, ((ends k s).filter End.ofRefresh).getLast? = some e ∧ e.err = .ok ∧ e.rdval = .low

/-- A good end for a claim that speaks of the panel (70_reset_and_hazards.md R300). -/
def GoodPanelEnd (named : List Err) (k : Nat) (s : State) : Prop := GoodEnd named k s ∧ LastRefreshReturned k s

end Sys2Proof.Machine
end

