-- ==== Sys2Proof/Certificates/Slice0/Obligations.lean ====
section
/-! DEFINITION. The statements about the CORE, from the numbered rules of spec/. -/

open Sys2Proof Sys2Proof.Machine

/-! ## Encodings -/

/-- Decoding the encoding of a well-formed operation gives it back, for every operation of the table and every operand
(30_encoding.md R91, R92, R94 to R101; 44_wire_commands.md R229). -/
def Obligations.DecodeOfEncodeIsTheInstruction : Prop :=
  ∀ i : Instr, i.wellFormed = true → decode (encode i) = .ok i

/-- Whatever spells an operation, a word or the frames of an entry, is that operation's encoding, and the operation is well
formed: no bit is dropped (30_encoding.md R92, R94 to R102; 44_wire_commands.md R210, R229). -/
def Obligations.LegalEncodingIsItsOwnEncoding : Prop :=
  ∀ (c : Encoding) (i : Instr), decode c = .ok i → encode i = c ∧ i.wellFormed = true

/-- The frames of a CommandSequence, cut by `dc` alone, give back its entries (30_encoding.md R92). -/
def Obligations.FramesAreCutIntoTheirEntries : Prop :=
  ∀ es : List Entry, cutEntries (seqFrames es) = ([], es)

/-- A word spells the row whose mask and match it meets, and at most one row of the opcode map matches a word
(30_encoding.md R100). -/
def Obligations.WordSpellsTheOneRowItMatches : Prop :=
  (∀ w : Word, ∀ r ∈ opRows, w &&& r.mask = r.code → decodeWord w = r.build w) ∧
  (∀ w : Word, ∀ r ∈ opRows, ∀ r' ∈ opRows, w &&& r.mask = r.code → w &&& r'.mask = r'.code → r.code = r'.code) ∧
  (∀ w : Word, (∀ r ∈ opRows, w &&& r.mask ≠ r.code) → ∀ i, decodeWord w ≠ .ok i)

/-- A word that spells no operation (no row of the opcode map matches it, or it is SETPIN or READPIN with a role code of 5,
6 or 7) raises IllegalOperation: no event, no state change but ERR (60_exceptions.md R247, which the spec marks as its decision
D40). The model's own list of host moves loses the move (log 2). -/
def Obligations.IllegalWordChangesOnlyErr : Prop :=
  ∀ (s : State) (w : Word) (rest : List HostMove), s.pc = .idle → s.host = .writeReg 0 w :: rest →
    (∀ r ∈ opRows, w &&& r.mask ≠ r.code) ∨
      (opcField w = 0xC2 ∨ opcField w = 0xC3) ∧ 5 ≤ (w.extractLsb' 16 3).toNat →
    step s = .next { s with host := rest, err := .illegalOperation }

/-- Words and frames written out from the encoding tables decode to the operations they stand for (95_test_vectors.md 2.1;
42_panel_sequences.md R168). -/
def Obligations.SpecWordsDecode : Prop :=
  decodeWord 0xC2040001 = .ok (.setPin .power .high) ∧
  decodeWord 0xC3030000 = .ok (.readPin .busy) ∧
  decodeWord 0xC40007D0 = .ok (.sleep 2000) ∧
  decodeWord 0xD20000AF = .ok (.sendData 0xAF) ∧
  decodeWord 0xE20000FF = .ok (.clear 0xFF) ∧
  decodeWord 0xC2050000 = .error .reservedRole ∧
  decodeWord 0xC5000100 = .error .reservedBit ∧
  decodeWord 0x12000000 = .error .noSuchOpc ∧
  decodeFrames [⟨.low, 0x61⟩, ⟨.high, 0x00⟩, ⟨.high, 0xB0⟩, ⟨.high, 0x01⟩, ⟨.high, 0x08⟩] =
    .ok (.resolutionSetting 176 264)

/-! ## The step and the host port -/

/-- A step runs the operation the host's next word or entry spells, and an operation in flight goes on with its next
micro-operation; the step adds only that the move is taken from the host's list (10_state.md R23, R29; log 1, log 2, log 7). -/
def Obligations.StepRunsTheDecodedInstruction : Prop :=
  ∀ (s : State) (i : Instr),
    (∀ w rest, s.pc = .idle → s.host = .writeReg 0 w :: rest → decodeWord w = .ok i →
      step s = exec i { s with host := rest }) ∧
    (∀ fs rest, s.pc = .idle → s.host = .entry fs :: rest → decodeFrames fs = .ok i →
      step s = exec i { s with host := rest }) ∧
    (∀ k n, s.pc = .running i k n → step s = exec i s)

/-- Reset leaves every state variable at the value of 10_state.md R42 (the spec's decisions D9 and D33, but for PD_STATE), and
from there the CORE waits for the host: that a step from reset is the identity is the model's choice, the host's list being empty
there (log 2). -/
def Obligations.ResetLeavesTheStatedValues : Prop :=
  State.reset.trState = .unacquired ∧ State.reset.pdState = .poweredOff ∧ State.reset.pdMode = .none ∧
  State.reset.err.code = 0 ∧ State.reset.rdval = .low ∧
  (∀ r, State.reset.pins.get r = .unknown) ∧
  State.reset.bufLen = 0 ∧ State.reset.imgW = 0 ∧ State.reset.imgH = 0 ∧
  (∀ a, Memory.read State.reset.buf a = none) ∧ (∀ a, Memory.read State.reset.img a = none) ∧
  State.reset.pc = .idle ∧ State.reset.trace = [] ∧
  step State.reset = .next State.reset

/-- STATUS holds ERR, ACQ, REL, PD_STATE, PD_MODE and RDVAL in the bits of 10_state.md R32, zeros above, with the field
encodings given there and the error codes of 60_exceptions.md R240 (the spec's decisions D4 and D5). -/
def Obligations.StatusWordHoldsItsFields : Prop :=
  ∀ s : State,
    s.status.extractLsb' 0 8 = s.err.code ∧
    s.status.getLsbD 8 = decide (s.trState = .acquired) ∧
    s.status.getLsbD 9 = decide (s.trState = .released) ∧
    s.status.extractLsb' 10 3 =
      (match s.pdState with | .poweredOff => 0 | .resetting => 1 | .configuring => 2 | .idle => 3 | .refreshing => 4) ∧
    s.status.extractLsb' 13 2 = (match s.pdMode with | .none => 0 | .standard => 1 | .gray4 => 2) ∧
    s.status.getLsbD 15 = decide (s.rdval = .high) ∧
    s.status.extractLsb' 16 16 = 0 ∧
    s.err.code =
      (match s.err with
       | .ok => 0x00 | .hardwareUnavailable => 0x01 | .transferFailure => 0x02 | .invalidFrameSize => 0x03
       | .unsupportedImageSize => 0x04 | .panelTimeout => 0x05 | .invalidPinRole => 0x06 | .notAcquired => 0x07
       | .illegalOperation => 0x08 | .contractViolation => 0x09)

/-- The register map from the host's side: OPW reads 0, STATUS the status word, the 16-bit registers their values, nothing else
changing; a write to STATUS is ignored; an access to an index from 5 up is refused (10_state.md R29, R32; 20_memory.md R65,
R66). That a 16-bit value stands in the low half of what is read is the model's choice (log 8), hostData its own field (log 3). -/
def Obligations.HostSeesTheRegisterMap : Prop :=
  ∀ (s : State) (index : Nat) (rest : List HostMove), s.pc = .idle →
    (s.host = .read .reg index :: rest →
      (index = 0 → step s = .next { s with host := rest, hostData := 0 }) ∧
      (index = 1 → step s = .next { s with host := rest, hostData := s.status }) ∧
      (index = 2 → step s = .next { s with host := rest, hostData := s.bufLen.zeroExtend 32 }) ∧
      (index = 3 → step s = .next { s with host := rest, hostData := s.imgW.zeroExtend 32 }) ∧
      (index = 4 → step s = .next { s with host := rest, hostData := s.imgH.zeroExtend 32 }) ∧
      (5 ≤ index → step s = .refused (.outOfRange .reg index))) ∧
    (∀ v, s.host = .writeReg index v :: rest →
      (index = 1 → step s = .next { s with host := rest }) ∧
      (5 ≤ index → step s = .refused (.outOfRange .reg index)))

/-- BUF_LEN, IMG_W and IMG_H take any 16-bit value and give it back unchanged at the next read (10_state.md R30, R31; where the
16 bits stand on the 32-bit port is the model's choice, log 8). -/
def Obligations.SixteenBitRegistersReadBack : Prop :=
  ∀ (s : State) (index : Nat) (v : BitVec 16) (rest : List HostMove),
    2 ≤ index → index ≤ 4 → s.pc = .idle →
    s.host = .writeReg index (v.zeroExtend 32) :: .read .reg index :: rest →
    ∃ t, steps 2 s = .next t ∧ t.hostData = v.zeroExtend 32 ∧
      t.bufLen = (if index = 2 then v else s.bufLen) ∧ t.imgW = (if index = 3 then v else s.imgW) ∧
      t.imgH = (if index = 4 then v else s.imgH) ∧ t.status = s.status ∧ t.trace = s.trace ∧ t.buf = s.buf ∧
      t.img = s.img ∧ t.host = rest

/-- What the host writes to an entry of BUF or IMG it reads back, every other entry as before; an index the space does not
have is refused (10_state.md R33, R34; 20_memory.md R66; the value read stands in the low bits, log 8). -/
def Obligations.HostWritesAndReadsEntries : Prop :=
  ∀ (s : State) (index : Nat) (rest : List HostMove), s.pc = .idle →
    (∀ b, s.host = .writeBuf index b :: rest → index < 8192 →
      ∃ t, step s = .next t ∧ Memory.read t.buf index = some b ∧
        (∀ a, a ≠ index → Memory.read t.buf a = Memory.read s.buf a) ∧ t = { s with host := rest, buf := t.buf }) ∧
    (∀ p, s.host = .writeImg index p :: rest → index < 46464 →
      ∃ t, step s = .next t ∧ Memory.read t.img index = some p ∧
        (∀ a, a ≠ index → Memory.read t.img a = Memory.read s.img a) ∧ t = { s with host := rest, img := t.img }) ∧
    (∀ b, s.host = .read .buf index :: rest → index < 8192 → Memory.read s.buf index = some b →
      step s = .next { s with host := rest, hostData := b.zeroExtend 32 }) ∧
    (∀ p, s.host = .read .img index :: rest → index < 46464 → Memory.read s.img index = some p →
      step s = .next { s with host := rest, hostData := p.zeroExtend 32 }) ∧
    (∀ b, s.host = .writeBuf index b :: rest → 8192 ≤ index → step s = .refused (.outOfRange .buf index)) ∧
    (∀ p, s.host = .writeImg index p :: rest → 46464 ≤ index → step s = .refused (.outOfRange .img index)) ∧
    (s.host = .read .buf index :: rest → 8192 ≤ index → step s = .refused (.outOfRange .buf index)) ∧
    (s.host = .read .img index :: rest → 46464 ≤ index → step s = .refused (.outOfRange .img index))

/-- While an operation is in flight no other operation is accepted, nor one that is never in flight: ACQUIRE, ENCODE, SETPIN of
BUSY, READPIN of an output (20_memory.md R66, R71; that it is refused is log 11). -/
def Obligations.NothingIsAcceptedWhileAnOperationIsInFlight : Prop :=
  ∀ (i : Instr) (s : State) (op : Instr) (k n : Nat), s.pc = .running op k n →
    i ≠ op ∨ i = .acquire ∨ i = .encode ∨ (∃ l, i = .setPin .busy l) ∨ (∃ r, i = .readPin r ∧ r ≠ .busy) →
    exec i s = .refused .untimely

/-! ## Transport -/

/-- ACQUIRE: granted, it opens all pins, undriven; refused by the environment, it reports HardwareUnavailable and leaves the
rest as it was; outside UNACQUIRED it has no meaning (40_transport.md R125). -/
def Obligations.AcquireOpensAllOrNothing : Prop :=
  ∀ s : State, s.pc = .idle →
    (s.trState = .unacquired → s.grantAt 0 = true →
      exec .acquire s = .next { s with trState := .acquired, pins := Pins.closed, err := .ok,
                                       trace := s.trace ++ [.opened], grants := s.grants.skip 1 }) ∧
    (s.trState = .unacquired → s.grantAt 0 = false →
      exec .acquire s = .next { s with err := .hardwareUnavailable, grants := s.grants.skip 1 }) ∧
    (s.trState ≠ .unacquired → exec .acquire s = .refused (.contractViolation .acquireAgain))

/-- RELEASE from ACQUIRED drives RESET, DC and POWER low and closes everything, in four micro-operations; in any other state it
only ends OK (40_transport.md R126). -/
def Obligations.ReleaseClosesOnce : Prop :=
  ∀ s : State, s.pc = .idle →
    (s.trState = .acquired →
      exec .release s = .next { s with
        pins := { s.pins with reset := .driven .low }, pc := .running .release 1 0,
        trace := s.trace ++ [.pinWrite .reset .low] } ∧
      runOp 4 .release s = .next { s with
        trState := .released, pins := Pins.closed, pdState := .poweredOff, pdMode := .none, err := .ok,
        trace := s.trace ++ [.pinWrite .reset .low, .pinWrite .dc .low, .pinWrite .power .low, .closed] }) ∧
    (s.trState ≠ .acquired → exec .release s = .next { s with err := .ok })

/-- SETPIN drives the output its role names and records it, also when the level does not change; BUSY is rejected first, then
a Transport that is not acquired (40_transport.md R121, R127). -/
def Obligations.SetPinDrivesItsOutput : Prop :=
  ∀ (s : State) (role : PinRole) (level : Level), s.pc = .idle →
    (role = .busy → exec (.setPin role level) s = .next { s with err := .invalidPinRole }) ∧
    (role ≠ .busy → s.trState ≠ .acquired → exec (.setPin role level) s = .next { s with err := .notAcquired }) ∧
    (∀ r, outputOf role = some r → s.trState = .acquired →
      exec (.setPin role level) s = .next { s with
        pins := s.pins.set r (.driven level), err := .ok, trace := s.trace ++ [.pinWrite r level] })

/-- READPIN leaves the sampled level in RDVAL; a role other than BUSY is rejected first, then a Transport that is not
acquired (40_transport.md R122, R128). -/
def Obligations.ReadPinLeavesTheLevelInRdval : Prop :=
  ∀ (s : State) (role : PinRole), s.pc = .idle →
    (role ≠ .busy → exec (.readPin role) s = .next { s with err := .invalidPinRole }) ∧
    (role = .busy → s.trState ≠ .acquired → exec (.readPin role) s = .next { s with err := .notAcquired }) ∧
    (role = .busy → s.trState = .acquired →
      exec (.readPin role) s = .next { s with
        rdval := s.busyAt 0, err := .ok, trace := s.trace ++ [.pinRead (s.busyAt 0)], busy := s.busy.skip 1 })

/-- SLEEP records its delay, whatever the Transport's state (40_transport.md R123, R129). -/
def Obligations.SleepRecordsItsDelay : Prop :=
  ∀ (s : State) (ms : BitVec 16), s.pc = .idle →
    exec (.sleep ms) s = .next { s with err := .ok, trace := s.trace ++ [.sleep ms.toNat] }

/-- WRITEBYTE sends its byte and touches no pin; a failed write is recorded as SpiFault and raises TransferFailure
(40_transport.md R124, R130; 60_exceptions.md R242, R252). -/
def Obligations.WriteByteSendsOrFaults : Prop :=
  ∀ (s : State) (b : Byte), s.pc = .idle → s.trState = .acquired →
    (s.spiAt 0 = true →
      exec (.writeByte b) s = .next { s with
        err := .ok, trace := s.trace ++ [.spiWrite b], spiOk := s.spiOk.skip 1 }) ∧
    (s.spiAt 0 = false →
      exec (.writeByte b) s = .next { s with
        err := .transferFailure, trace := s.trace ++ [.spiFault b], spiOk := s.spiOk.skip 1, faultMark := true })

/-- WRITEBYTES sends BUF[0] to BUF[BUF_LEN − 1] in ascending order, one byte a micro-operation, and touches no pin; with BUF_LEN 0
it ends at once (40_transport.md R131). -/
def Obligations.WriteBytesSendsTheBuffer : Prop :=
  ∀ (s : State) (bytes : List Byte), s.pc = .idle → s.trState = .acquired →
    bytes.length = s.bufLen.toNat → s.bufLen.toNat ≤ 8192 →
    (∀ k < bytes.length, Memory.read s.buf k = bytes[k]?) → (∀ k < bytes.length, s.spiAt k = true) →
    (bytes = [] → exec .writeBytes s = .next { s with err := .ok }) ∧
    (∀ b rest, bytes = b :: rest → rest ≠ [] →
      exec .writeBytes s = .next { s with
        trace := s.trace ++ [.spiWrite b], spiOk := s.spiOk.skip 1, pc := .running .writeBytes 1 0 }) ∧
    (bytes ≠ [] → runOp bytes.length .writeBytes s = .next { s with
      err := .ok, trace := s.trace ++ bytes.map .spiWrite, spiOk := s.spiOk.skip bytes.length })

/-- WRITEBYTES stops at its first failing byte: the bytes before it have been sent, the failing one is recorded, the bytes
after it are not attempted (40_transport.md R131; 60_exceptions.md R250). -/
def Obligations.WriteBytesStopsAtTheFirstFailure : Prop :=
  ∀ (s : State) (bytes : List Byte) (j : Nat) (b : Byte), s.pc = .idle → s.trState = .acquired →
    j < s.bufLen.toNat → s.bufLen.toNat ≤ 8192 → bytes.length = j →
    (∀ k < j, Memory.read s.buf k = bytes[k]?) → Memory.read s.buf j = some b →
    (∀ k < j, s.spiAt k = true) → s.spiAt j = false →
    runOp (j + 1) .writeBytes s = .next { s with
      err := .transferFailure, trace := s.trace ++ bytes.map .spiWrite ++ [.spiFault b],
      spiOk := s.spiOk.skip (j + 1), faultMark := true }

/-! ## Errors and refusals -/

/-- Every operation with a pin or SPI micro-operation reports NotAcquired and does nothing else when the Transport is not
acquired, unless an argument error comes first (40_transport.md R120; 60_exceptions.md R240, R248). -/
def Obligations.PinAndSpiOperationsNeedTheTransport : Prop :=
  ∀ (i : Instr) (s : State), s.pc = .idle → s.trState ≠ .acquired →
    i ≠ .acquire → i ≠ .release → (∀ ms, i ≠ .sleep ms) → i ≠ .encode → (∀ l, i ≠ .setPin .busy l) →
    (∀ r, i = .readPin r → r = .busy) → (i = .displayFrame → s.bufLen.toNat = 5808) →
    exec i s = .next { s with err := .notAcquired }

/-- The three contract violations are refused, after the argument errors and NotAcquired have been checked: ACQUIRE outside
UNACQUIRED, CLEAR or DISPLAYFRAME when not ready, WRITEBYTES with an impossible length (60_exceptions.md R249, R248;
42_panel_sequences.md R166; log 10). -/
def Obligations.ContractViolationsAreRefused : Prop :=
  ∀ s : State, s.pc = .idle →
    (s.trState = .acquired ∨ s.trState = .released →
      exec .acquire s = .refused (.contractViolation .acquireAgain)) ∧
    (s.trState = .acquired → s.pdState ≠ .idle ∨ s.pdMode = .none →
      (∀ f, exec (.clear f) s = .refused (.contractViolation .notReady)) ∧
      (s.bufLen.toNat = 5808 → exec .displayFrame s = .refused (.contractViolation .notReady))) ∧
    (s.trState = .acquired → 8192 < s.bufLen.toNat →
      exec .writeBytes s = .refused (.contractViolation .bufferTooLong))

/-- DISPLAYFRAME with a buffer of any other length than 5808 reports InvalidFrameSize before anything is sent, whatever the
Transport's state (60_exceptions.md R243). -/
def Obligations.DisplayFrameRejectsOtherLengths : Prop :=
  ∀ s : State, s.pc = .idle → s.bufLen.toNat ≠ 5808 →
    exec .displayFrame s = .next { s with err := .invalidFrameSize }

/-- An operation that comes to read an entry of BUF or IMG that nothing has written is refused at that entry (20_memory.md R67;
log 9). -/
def Obligations.UnwrittenEntryIsRefused : Prop :=
  ∀ s : State, s.pc = .idle →
    (∀ j, s.trState = .acquired → j < s.bufLen.toNat → s.bufLen.toNat ≤ 8192 → Memory.read s.buf j = none →
      (∀ k < j, s.spiAt k = true) →
      ∃ a ≤ j, runOp (j + 1) .writeBytes s = .refused (.unwritten .buf a) ∧ Memory.read s.buf a = none) ∧
    (∀ j, s.trState = .acquired → s.bufLen.toNat = 5808 → s.pdState = .idle → s.pdMode ≠ .none → j < 5808 →
      Memory.read s.buf j = none → (∀ k < 5810 + j, s.spiAt k = true) →
      ∃ a ≤ j, runOp 46477 .displayFrame s = .refused (.unwritten .buf a) ∧ Memory.read s.buf a = none) ∧
    (∀ j, orientationOf s.imgW s.imgH ≠ none → j < 46464 → Memory.read s.img j = none →
      ∃ a, exec .encode s = .refused (.unwritten .img a) ∧ Memory.read s.img a = none)

/-! ## PanelDriver primitives -/

/-- RESET pulses the RESET line high 200 ms, low 5 ms, high 200 ms in six micro-operations, from every PD_STATE: Resetting with the
configuration forgotten from the first of them, Idle with the last (41_panel_primitives.md R141; 10_state.md R26). -/
def Obligations.ResetPulsesAndForgetsTheConfiguration : Prop :=
  ∀ s : State, s.pc = .idle → s.trState = .acquired →
    exec .reset s = .next { s with
      pins := { s.pins with reset := .driven .high }, pdState := .resetting, pdMode := .none, pc := .running .reset 1 0,
      trace := s.trace ++ [.pinWrite .reset .high] } ∧
    runOp 6 .reset s = .next { s with
      pins := { s.pins with reset := .driven .high }, pdState := .idle, pdMode := .none, err := .ok,
      trace := s.trace ++ [.pinWrite .reset .high, .sleep 200, .pinWrite .reset .low, .sleep 5,
                           .pinWrite .reset .high, .sleep 200] }

/-- SENDCMD sends one command frame and SENDDATA one data frame, four micro-operations the first of which drives DC; when the byte
fails the closing CS high is not performed (41_panel_primitives.md R142, R143; 60_exceptions.md R251). -/
def Obligations.SendCmdAndSendDataFrameOneByte : Prop :=
  ∀ (s : State) (b : Byte), s.pc = .idle → s.trState = .acquired →
    exec (.sendCmd b) s = .next { s with
      pins := { s.pins with dc := .driven .low }, trace := s.trace ++ [.pinWrite .dc .low],
      pc := .running (.sendCmd b) 1 0 } ∧
    exec (.sendData b) s = .next { s with
      pins := { s.pins with dc := .driven .high }, trace := s.trace ++ [.pinWrite .dc .high],
      pc := .running (.sendData b) 1 0 } ∧
    (s.spiAt 0 = true →
      runOp 4 (.sendCmd b) s = .next { s with
        pins := { s.pins with dc := .driven .low, cs := .driven .high }, err := .ok, spiOk := s.spiOk.skip 1,
        trace := s.trace ++ [.pinWrite .dc .low, .pinWrite .cs .low, .spiWrite b, .pinWrite .cs .high] } ∧
      runOp 4 (.sendData b) s = .next { s with
        pins := { s.pins with dc := .driven .high, cs := .driven .high }, err := .ok, spiOk := s.spiOk.skip 1,
        trace := s.trace ++ [.pinWrite .dc .high, .pinWrite .cs .low, .spiWrite b, .pinWrite .cs .high] }) ∧
    (s.spiAt 0 = false →
      runOp 3 (.sendCmd b) s = .next { s with
        pins := { s.pins with dc := .driven .low, cs := .driven .low }, err := .transferFailure,
        spiOk := s.spiOk.skip 1, faultMark := true,
        trace := s.trace ++ [.pinWrite .dc .low, .pinWrite .cs .low, .spiFault b] } ∧
      runOp 3 (.sendData b) s = .next { s with
        pins := { s.pins with dc := .driven .high, cs := .driven .low }, err := .transferFailure,
        spiOk := s.spiOk.skip 1, faultMark := true,
        trace := s.trace ++ [.pinWrite .dc .high, .pinWrite .cs .low, .spiFault b] })

/-- READBUSY ends at once when its first read is 0; when it is 1 it raises PanelTimeout if the bound is one read, and otherwise
stays in flight and then sleeps 200 ms (41_panel_primitives.md R144, R145). -/
def Obligations.ReadBusyEndsOrWaits : Prop :=
  ∀ s : State, s.pc = .idle → s.trState = .acquired →
    (s.busyAt 0 = .low →
      exec .readBusy s = .next { s with
        rdval := .low, err := .ok, trace := s.trace ++ [.pinRead .low], busy := s.busy.skip 1 }) ∧
    (s.busyAt 0 = .high → Config.setup.pollLimit = some 1 →
      exec .readBusy s = .next { s with
        rdval := .high, err := .panelTimeout, faultMark := true, trace := s.trace ++ [.pinRead .high],
        busy := s.busy.skip 1 }) ∧
    (s.busyAt 0 = .high → Config.setup.pollLimit ≠ some 1 →
      exec .readBusy s = .next { s with
        rdval := .high, pc := .running .readBusy 1 1, trace := s.trace ++ [.pinRead .high], busy := s.busy.skip 1 } ∧
      runOp 2 .readBusy s = .next { s with
        rdval := .high, pc := .running .readBusy 2 1, trace := s.trace ++ [.pinRead .high, .sleep 200],
        busy := s.busy.skip 1 })

/-- A READBUSY that finds BUSY at 1 exactly N times and then at 0 reads N + 1 times and sleeps N times, beginning and ending with a
read, and is over after these 2N + 1 micro-operations, one a step; under a bound of M ≤ N reads it raises PanelTimeout after the
M-th read and M − 1 sleeps (41_panel_primitives.md R144 a, R145; 10_state.md R23). -/
def Obligations.ReadBusyMakesNPlusOneReads : Prop :=
  ∀ (s : State) (rest : List HostMove) (N : Nat), s.pc = .idle → s.trState = .acquired →
    s.host = .writeReg 0 0xD3000000 :: rest → (∀ n < N, s.busyAt n = .high) → s.busyAt N = .low →
    let done := steps (2 * N + 1) s = .next { s with
      host := rest, rdval := .low, err := .ok, trace := s.trace ++ waitEvents N, busy := s.busy.skip (N + 1) }
    match Config.setup.pollLimit with
    | none => done
    | some M =>
      if N < M then done
      else steps (2 * M - 1) s = .next { s with
        host := rest, rdval := .high, err := .panelTimeout, faultMark := true,
        trace := s.trace ++ (List.replicate (M - 1) [Event.pinRead .high, Event.sleep 200]).flatten ++ [.pinRead .high],
        busy := s.busy.skip M }

/-- An operation in flight, n reads of its wait made and its next micro-operation a read, that finds BUSY at 1 at each of its next
N reads is still in flight 2N steps later, having done nothing but read and sleep, for every N: without a bound the wait never
ends. Under a bound of M reads it ends in PanelTimeout at the M-th (41_panel_primitives.md R144 d, R145, R146; log 12). -/
def Obligations.WaitGoesOnWhileBusyUnlessBounded : Prop :=
  ∀ (s : State) (op : Instr) (b n N : Nat), waitStart Config.setup op = some b → s.pc = .running op (b + 2 * n) n →
    n = 0 ∨ s.rdval = .high → (∀ j < N, s.busyAt j = .high) →
    let waiting := steps (2 * N) s = .next { s with
      pc := .running op (b + 2 * n + 2 * N) (n + N), rdval := if N = 0 then s.rdval else .high,
      trace := s.trace ++ (List.replicate N [Event.pinRead .high, Event.sleep 200]).flatten, busy := s.busy.skip N }
    match Config.setup.pollLimit with
    | none => waiting
    | some M =>
      n < M →
      if n + N < M then waiting
      else steps (2 * (M - n) - 1) s = .next { s with
        pc := .idle, rdval := .high, err := .panelTimeout, faultMark := true,
        trace := s.trace ++ (List.replicate (M - n - 1) [Event.pinRead .high, Event.sleep 200]).flatten ++
          [.pinRead .high],
        busy := s.busy.skip (M - n) }

/-! ## PanelDriver sequences -/

/-- INIT starts with RESET high, Resetting and the configuration forgotten; every byte going out and BUSY reading 1 exactly N times,
it performs the reset pulse, PREFIX_SEQ and POWER_ON, the wait, CFG_STD and LUT_SEQ, each byte in a frame of its own, and ends in
Idle, STANDARD after 910 + 4F + 2N + 1 micro-operations, F the frames of PREFIX_SEQ (42_panel_sequences.md R160, R162). -/
def Obligations.InitLoadsTheStandardConfiguration : Prop :=
  ∀ s : State, s.pc = .idle → s.trState = .acquired →
    exec .init s = .next { s with
      pins := { s.pins with reset := .driven .high }, pdState := .resetting, pdMode := .none, pc := .running .init 1 0,
      trace := s.trace ++ [.pinWrite .reset .high] } ∧
    ∀ N, (∀ j < N, s.busyAt j = .high) → s.busyAt N = .low → (∀ M, Config.setup.pollLimit = some M → N < M) →
      (∀ n < (initFrames Config.setup).length + (stdFrames Config.setup).length, s.spiAt n = true) →
      runOp (910 + 4 * (seqFrames Config.prefixSeq).length + 2 * N + 1) .init s = .next { s with
        pins := { s.pins with reset := .driven .high, dc := .driven .high, cs := .driven .high },
        pdState := .idle, pdMode := .standard, err := .ok, rdval := .low,
        trace := s.trace ++ pulseEvents ++ framesEvents (initFrames Config.setup) ++ waitEvents N ++
          framesEvents (stdFrames Config.setup),
        spiOk := s.spiOk.skip ((initFrames Config.setup).length + (stdFrames Config.setup).length),
        busy := s.busy.skip (N + 1) }

/-- INIT4GRAY starts as INIT; every byte going out and BUSY reading 1 exactly N times, it performs what INIT does up to the end of
the wait and then CFG_GRAY4 alone, and ends in Idle, GRAY4 after 62 + 4F + 2N + 1 micro-operations (42_panel_sequences.md R160,
R163). -/
def Obligations.Init4GrayLoadsTheGrayConfiguration : Prop :=
  ∀ s : State, s.pc = .idle → s.trState = .acquired →
    exec .init4Gray s = .next { s with
      pins := { s.pins with reset := .driven .high }, pdState := .resetting, pdMode := .none, pc := .running .init4Gray 1 0,
      trace := s.trace ++ [.pinWrite .reset .high] } ∧
    ∀ N, (∀ j < N, s.busyAt j = .high) → s.busyAt N = .low → (∀ M, Config.setup.pollLimit = some M → N < M) →
      (∀ n < (initFrames Config.setup).length + gray4Frames.length, s.spiAt n = true) →
      runOp (62 + 4 * (seqFrames Config.prefixSeq).length + 2 * N + 1) .init4Gray s = .next { s with
        pins := { s.pins with reset := .driven .high, dc := .driven .high, cs := .driven .high },
        pdState := .idle, pdMode := .gray4, err := .ok, rdval := .low,
        trace := s.trace ++ pulseEvents ++ framesEvents (initFrames Config.setup) ++ waitEvents N ++
          framesEvents gray4Frames,
        spiOk := s.spiOk.skip ((initFrames Config.setup).length + gray4Frames.length),
        busy := s.busy.skip (N + 1) }

/-- CLEAR, ready, starts with DC low and Refreshing; every byte going out and BUSY reading 1 exactly N times, it sends 0x10 and 5808
fill bytes, 0x13 and 5808 fill bytes, 0x12, waits, and is Idle again after 46476 + 2N + 1 micro-operations (42_panel_sequences.md
R160, R164). -/
def Obligations.ClearFillsBothPlanes : Prop :=
  ∀ (s : State) (f : Byte), s.pc = .idle → s.trState = .acquired → s.pdState = .idle → s.pdMode ≠ .none →
    exec (.clear f) s = .next { s with
      pins := { s.pins with dc := .driven .low }, pdState := .refreshing, pc := .running (.clear f) 1 0,
      trace := s.trace ++ [.pinWrite .dc .low] } ∧
    ∀ N, (∀ j < N, s.busyAt j = .high) → s.busyAt N = .low → (∀ M, Config.setup.pollLimit = some M → N < M) →
      (∀ n < 11619, s.spiAt n = true) →
      runOp (46476 + 2 * N + 1) (.clear f) s = .next { s with
        pins := { s.pins with dc := .driven .low, cs := .driven .high }, pdState := .idle, err := .ok, rdval := .low,
        trace := s.trace ++
          framesEvents (seqFrames [⟨0x10, List.replicate 5808 f⟩, ⟨0x13, List.replicate 5808 f⟩, ⟨0x12, []⟩]) ++
          waitEvents N,
        spiOk := s.spiOk.skip 11619, busy := s.busy.skip (N + 1) }

/-- DISPLAYFRAME, ready, starts with DC low and Refreshing; its 5808 bytes written, every byte going out and BUSY reading 1 exactly
N times, it sends 0x10 and 5808 times 0xFF, sleeps 2000 ms, sends 0x13 and the buffer from BUF[0] up, 0x12, waits, and is Idle
again after 46477 + 2N + 1 micro-operations (42_panel_sequences.md R160, R165). -/
def Obligations.DisplayFrameSendsTheBuffer : Prop :=
  ∀ s : State, s.pc = .idle → s.trState = .acquired → s.pdState = .idle → s.pdMode ≠ .none → s.bufLen.toNat = 5808 →
    exec .displayFrame s = .next { s with
      pins := { s.pins with dc := .driven .low }, pdState := .refreshing, pc := .running .displayFrame 1 0,
      trace := s.trace ++ [.pinWrite .dc .low] } ∧
    ∀ (bytes : List Byte) (N : Nat), bytes.length = 5808 → (∀ k < 5808, Memory.read s.buf k = bytes[k]?) →
      (∀ j < N, s.busyAt j = .high) → s.busyAt N = .low → (∀ M, Config.setup.pollLimit = some M → N < M) →
      (∀ n < 11619, s.spiAt n = true) →
      runOp (46477 + 2 * N + 1) .displayFrame s = .next { s with
        pins := { s.pins with dc := .driven .low, cs := .driven .high }, pdState := .idle, err := .ok, rdval := .low,
        trace := s.trace ++ framesEvents (seqFrames [⟨0x10, List.replicate 5808 0xFF⟩]) ++ [.sleep 2000] ++
          framesEvents (seqFrames [⟨0x13, bytes⟩, ⟨0x12, []⟩]) ++ waitEvents N,
        spiOk := s.spiOk.skip 11619, busy := s.busy.skip (N + 1) }

/-- The sequences whose first read of BUSY is 1 stay in flight, after that read and its sleep of 200 ms: CLEAR and DISPLAYFRAME in
Refreshing, INIT and INIT4GRAY in Configuring with no mode, with the number of micro-operations performed in the position; under a
bound of one read they raise PanelTimeout there (10_state.md R23; 42_panel_sequences.md R162 to R165; 41_panel_primitives.md
R145). -/
def Obligations.SequencesWaitWhileBusy : Prop :=
  ∀ s : State, s.pc = .idle → s.trState = .acquired → s.busyAt 0 = .high →
    (s.pdState = .idle → s.pdMode ≠ .none → (∀ n < 11619, s.spiAt n = true) →
      let reached : State := { s with
        pins := { s.pins with dc := .driven .low, cs := .driven .high }, pdState := .refreshing, rdval := .high,
        spiOk := s.spiOk.skip 11619, busy := s.busy.skip 1 }
      (∀ f,
        let trace := s.trace ++
          framesEvents (seqFrames [⟨0x10, List.replicate 5808 f⟩, ⟨0x13, List.replicate 5808 f⟩, ⟨0x12, []⟩]) ++
          [.pinRead .high]
        runOp 46478 (.clear f) s =
          if Config.setup.pollLimit = some 1 then
            .next { reached with trace := trace, err := .panelTimeout, faultMark := true }
          else .next { reached with trace := trace ++ [.sleep 200], pc := .running (.clear f) 46478 1 }) ∧
      (∀ bytes : List Byte, s.bufLen.toNat = 5808 → bytes.length = 5808 →
        (∀ k < 5808, Memory.read s.buf k = bytes[k]?) →
        let trace := s.trace ++ framesEvents (seqFrames [⟨0x10, List.replicate 5808 0xFF⟩]) ++ [.sleep 2000] ++
          framesEvents (seqFrames [⟨0x13, bytes⟩, ⟨0x12, []⟩]) ++ [.pinRead .high]
        runOp 46479 .displayFrame s =
          if Config.setup.pollLimit = some 1 then
            .next { reached with trace := trace, err := .panelTimeout, faultMark := true }
          else .next { reached with trace := trace ++ [.sleep 200], pc := .running .displayFrame 46479 1 })) ∧
    ((∀ n < (initFrames Config.setup).length, s.spiAt n = true) →
      let reached : State := { s with
        pins := { s.pins with reset := .driven .high, dc := .driven .low, cs := .driven .high },
        pdState := .configuring, pdMode := .none, rdval := .high,
        spiOk := s.spiOk.skip (initFrames Config.setup).length, busy := s.busy.skip 1,
        trace := s.trace ++ pulseEvents ++ framesEvents (initFrames Config.setup) ++ [.pinRead .high] }
      let k := 6 + 4 * (initFrames Config.setup).length + 2
      ∀ i, i = .init ∨ i = .init4Gray →
        runOp k i s =
          if Config.setup.pollLimit = some 1 then .next { reached with err := .panelTimeout, faultMark := true }
          else .next { reached with trace := reached.trace ++ [.sleep 200], pc := .running i k 1 })

/-- Where the next micro-operation of an operation in flight is a read of BUSY that answers 0, the wait ends: READBUSY, CLEAR and
DISPLAYFRAME end together with it, the latter two in Idle; INIT and INIT4GRAY go on, send their configuration and end in Idle with
their mode (41_panel_primitives.md R144; 42_panel_sequences.md R162 to R165; 10_state.md R26). -/
def Obligations.WaitEndsWhenBusyReadsIdle : Prop :=
  ∀ (s : State) (op : Instr) (b n : Nat), waitStart Config.setup op = some b → s.pc = .running op (b + 2 * n) n →
    n = 0 ∨ s.rdval = .high → s.busyAt 0 = .low →
    (op = .readBusy →
      exec op s = .next { s with
        pc := .idle, err := .ok, rdval := .low, trace := s.trace ++ [.pinRead .low], busy := s.busy.skip 1 }) ∧
    ((∃ f, op = .clear f) ∨ op = .displayFrame →
      exec op s = .next { s with
        pc := .idle, err := .ok, rdval := .low, pdState := .idle, trace := s.trace ++ [.pinRead .low],
        busy := s.busy.skip 1 }) ∧
    (op = .init ∨ op = .init4Gray →
      exec op s = .next { s with
        pc := .running op (b + 2 * n + 1) (n + 1), rdval := .low, trace := s.trace ++ [.pinRead .low],
        busy := s.busy.skip 1 }) ∧
    (op = .init → (∀ j < (stdFrames Config.setup).length, s.spiAt j = true) →
      runOp (1 + 4 * (stdFrames Config.setup).length) op s = .next { s with
        pc := .idle, err := .ok, rdval := .low, pdState := .idle, pdMode := .standard,
        pins := { s.pins with dc := .driven .high, cs := .driven .high },
        trace := s.trace ++ [.pinRead .low] ++ framesEvents (stdFrames Config.setup),
        spiOk := s.spiOk.skip (stdFrames Config.setup).length, busy := s.busy.skip 1 }) ∧
    (op = .init4Gray → (∀ j < gray4Frames.length, s.spiAt j = true) →
      runOp (1 + 4 * gray4Frames.length) op s = .next { s with
        pc := .idle, err := .ok, rdval := .low, pdState := .idle, pdMode := .gray4,
        pins := { s.pins with dc := .driven .high, cs := .driven .high },
        trace := s.trace ++ [.pinRead .low] ++ framesEvents gray4Frames,
        spiOk := s.spiOk.skip gray4Frames.length, busy := s.busy.skip 1 })

/-- From every state that meets the invariant: the step in which CLEAR or DISPLAYFRAME ends OK is a read of BUSY that answered 0,
and leaves the panel driver Idle (42_panel_sequences.md R164 e; 95_test_vectors.md T4). -/
def Obligations.RefreshReturnsOnlyAtAnIdleRead : Prop :=
  ∀ (i : Instr) (s t : State), (∃ f, i = .clear f) ∨ i = .displayFrame → s.Inv →
    exec i s = .next t → t.pc = .idle → t.err = .ok →
    t.rdval = .low ∧ t.pdState = .idle ∧ t.trace = s.trace ++ [.pinRead .low]

/-- Whatever the ROM and the poll bound, from every state that meets the invariant, in flight or not, however long it has waited: the
step in which a sequence ends with TransferFailure or PanelTimeout leaves what it had reached, INIT and INIT4GRAY PD_STATE
Configuring and PD_MODE NONE, CLEAR and DISPLAYFRAME PD_STATE Refreshing and PD_MODE as it was, and the pins as they were; the run
is marked faulted; after a TransferFailure CS is low and the failing byte is the last event, after a PanelTimeout a read of 1 is
(60_exceptions.md R251, R252; 41_panel_primitives.md R145). The machine's own exec is the case c = Config.setup. -/
def Obligations.FailedSequenceLeavesWhatItReached : Prop :=
  (∀ i s, execWith Config.setup i s = exec i s) ∧
  ∀ (c : Setup) (i : Instr) (s t : State),
    i = .init ∨ i = .init4Gray ∨ (∃ f, i = .clear f) ∨ i = .displayFrame → s.InvUnder c →
    execWith c i s = .next t → t.err = .transferFailure ∨ t.err = .panelTimeout → t.pc = .idle →
    (i = .init ∨ i = .init4Gray → t.pdState = .configuring ∧ t.pdMode = .none) ∧
    ((∃ f, i = .clear f) ∨ i = .displayFrame → t.pdState = .refreshing ∧ t.pdMode = s.pdMode) ∧
    t.pins = s.pins ∧ t.faultMark = true ∧
    (t.err = .transferFailure → t.pins.cs = .driven .low ∧ ∃ b, t.trace = s.trace ++ [.spiFault b]) ∧
    (t.err = .panelTimeout → t.rdval = .high ∧ t.trace = s.trace ++ [.pinRead .high])

/-- The commands INIT and INIT4GRAY send once the wait is over, read back from the frames: INIT sends the five waveform tables,
44, 42, 42, 42 and 42 bytes, and no RESOLUTION_SETTING; INIT4GRAY sends RESOLUTION_SETTING 176 × 264 and no waveform table
(42_panel_sequences.md R167 to R170; 95_test_vectors.md T5). That the four 42-byte tables go to 0x21 to 0x24 in the order W2W, B2W,
B2B, W2B is the spec's own decision D20 (42_panel_sequences.md R169). -/
def Obligations.ConfigurationsAreAsymmetric : Prop :=
  decodeStream (stdFrames Config.setup) =
    .ok [.panelSetting 0xAF, .pllControl 0x3A, .vcomDc 0x12, .vcomAndInterval 0x57,
         .lutVcom Config.lutVcom.toList, .lutW2w Config.lutW2w.toList, .lutB2w Config.lutB2w.toList,
         .lutB2b Config.lutB2b.toList, .lutW2b Config.lutW2b.toList] ∧
  decodeStream gray4Frames =
    .ok [.panelSetting 0xBF, .pllControl 0x90, .resolutionSetting 176 264, .vcomDc 0x12, .vcomAndInterval 0x57]

/-- What INIT and INIT4GRAY send before their wait is PREFIX_SEQ, made of POWER_SETTING, BOOSTER_SOFT_START, POWER_OPTIMIZATION
and perhaps PARTIAL_REFRESH_CONTROL, with each of the first three at least once, and then POWER_ON (42_panel_sequences.md R161,
R162, R163). -/
def Obligations.PrefixHoldsOnlyItsFourCommands : Prop :=
  ∃ is : List Instr, decodeStream (initFrames Config.setup) = .ok (is ++ [.powerOn]) ∧
    (∀ i ∈ is, (∃ ds, i = .powerSetting ds) ∨ (∃ ds, i = .boosterSoftStart ds) ∨
      (∃ ds, i = .partialRefreshControl ds) ∨ ∃ ds, i = .powerOptimization ds) ∧
    (∃ ds, .powerSetting ds ∈ is) ∧ (∃ ds, .boosterSoftStart ds ∈ is) ∧ ∃ ds, .powerOptimization ds ∈ is

/-- The number of micro-operations and the least time of an operation that ends OK, with F the number of frames of PREFIX_SEQ and N
the number of reads of BUSY that answered 1 (the counts the spec marks as derived: 42_panel_sequences.md R162 d, R163 c, R164 d,
R165 f; 70_reset_and_hazards.md R311). -/
def Obligations.SequenceLengthsAndTimes : Prop :=
  ∀ (i : Instr) (s t : State) (m : Nat), s.pc = .idle → 1 ≤ m → runOp m i s = .next t → t.pc = .idle → t.err = .ok →
    ∃ es, t.trace = s.trace ++ es ∧
      (i = .reset → es.length = 6 ∧ sleptTotal es = 405) ∧
      (i = .readBusy → ∃ N, readCount es = N + 1 ∧ es.length = 2 * N + 1 ∧ sleptTotal es = 200 * N) ∧
      (i = .init → ∃ N, readCount es = N + 1 ∧
        es.length = 910 + 4 * (seqFrames Config.prefixSeq).length + 2 * N + 1 ∧ sleptTotal es = 405 + 200 * N) ∧
      (i = .init4Gray → ∃ N, readCount es = N + 1 ∧
        es.length = 62 + 4 * (seqFrames Config.prefixSeq).length + 2 * N + 1 ∧ sleptTotal es = 405 + 200 * N) ∧
      ((∃ f, i = .clear f) → ∃ N, readCount es = N + 1 ∧ es.length = 46476 + 2 * N + 1 ∧ sleptTotal es = 200 * N) ∧
      (i = .displayFrame → ∃ N, readCount es = N + 1 ∧ es.length = 46477 + 2 * N + 1 ∧
        sleptTotal es = 2000 + 200 * N)

/-! ## FrameEncoder -/

/-- ENCODE of an image of one of the two sizes, every entry of it written: bit 7 − j of BUF[k] is 0 exactly when the source
pixel is black, for every k and j; BUF_LEN becomes 5808 and nothing else changes (43_frame_encoder.md R195, the closed form the
spec itself derives from R191 to R194). -/
def Obligations.EncodeFollowsTheClosedForm : Prop :=
  ∀ (s : State) (o : Orientation), s.pc = .idle → orientationOf s.imgW s.imgH = some o →
    (∀ k < 46464, (Memory.read s.img k).isSome = true) →
    ∃ buf, exec .encode s = .next { s with buf := buf, bufLen := 5808, err := .ok } ∧
      (∀ k < 5808, ∀ j < 8, ∃ b, Memory.read buf k = some b ∧
        (b.getLsbD (7 - j) = false ↔
          Memory.read s.img
            (match o with
             | .portrait => (8 * (k % 22) + j) + (k / 22) * 176
             | .landscape => (263 - k / 22) + (8 * (k % 22) + j) * 264) = some 0)) ∧
      (∀ a, 5808 ≤ a → Memory.read buf a = Memory.read s.buf a)

/-- ENCODE accepts exactly 176 × 264 and 264 × 176; any other size reports UnsupportedImageSize and changes nothing else
(60_exceptions.md R244). -/
def Obligations.EncodeRejectsOtherSizes : Prop :=
  (∀ w h : BitVec 16, orientationOf w h =
    if w = 176 ∧ h = 264 then some .portrait else if w = 264 ∧ h = 176 then some .landscape else none) ∧
  ∀ s : State, s.pc = .idle → ¬(s.imgW = 176 ∧ s.imgH = 264) → ¬(s.imgW = 264 ∧ s.imgH = 176) →
    exec .encode s = .next { s with err := .unsupportedImageSize }

/-- An all-white image encodes to 5808 bytes of 0xFF and an all-black one to 5808 bytes of 0x00, in both orientations
(43_frame_encoder.md R192, R197, R198). -/
def Obligations.AllWhiteAndAllBlackEncode : Prop :=
  ∀ (s : State) (o : Orientation), s.pc = .idle → orientationOf s.imgW s.imgH = some o →
    ((∀ k < 46464, ∃ p, Memory.read s.img k = some p ∧ p ≠ 0) →
      ∃ t, exec .encode s = .next t ∧ ∀ k < 5808, Memory.read t.buf k = some 0xFF) ∧
    ((∀ k < 46464, Memory.read s.img k = some 0) →
      ∃ t, exec .encode s = .next t ∧ ∀ k < 5808, Memory.read t.buf k = some 0x00)

/-- Encoding a landscape image gives the same 5808 bytes as encoding the portrait image made from it by
P(px, py) = L(263 − py, px) (43_frame_encoder.md R197). -/
def Obligations.LandscapeEncodesAsItsRotation : Prop :=
  ∀ s s' : State, s.pc = .idle → s'.pc = .idle →
    orientationOf s.imgW s.imgH = some .landscape → orientationOf s'.imgW s'.imgH = some .portrait →
    (∀ k < 46464, (Memory.read s.img k).isSome = true) →
    (∀ px < 176, ∀ py < 264, Memory.read s'.img (px + py * 176) = Memory.read s.img ((263 - py) + px * 264)) →
    ∃ t t', exec .encode s = .next t ∧ exec .encode s' = .next t' ∧
      ∀ k < 5808, Memory.read t.buf k = Memory.read t'.buf k

/-- In either orientation the source pixels and the 46464 bits of the buffer correspond one to one: no two pixels share a bit and
no bit is without a pixel (43_frame_encoder.md R198, which the spec marks as derived); panel pixel (px, py) lives in byte
py × 22 + px div 8 under mask 0x80 >> (px mod 8), from either orientation (30_encoding.md R106). -/
def Obligations.EachPixelOwnsOneBit : Prop :=
  ∀ o : Orientation,
    (∀ x < o.width, ∀ y < o.height, targetIndex o x y < 5808) ∧
    (∀ x < o.width, ∀ y < o.height, ∀ x' < o.width, ∀ y' < o.height,
      targetIndex o x y = targetIndex o x' y' → targetMask o x y = targetMask o x' y' → x = x' ∧ y = y') ∧
    (∀ k < 5808, ∀ j < 8, ∃ x < o.width, ∃ y < o.height, targetIndex o x y = k ∧ targetMask o x y = 0x80#8 >>> j) ∧
    (∀ x < 176, ∀ y < 264,
      targetIndex .portrait x y = y * 22 + x / 8 ∧ targetMask .portrait x y = 0x80#8 >>> (x % 8) ∧
      targetIndex .landscape (263 - y) x = y * 22 + x / 8 ∧ targetMask .landscape (263 - y) x = 0x80#8 >>> (x % 8))

/-! ## Wire commands -/

/-- Each of the eighteen panel commands starts with DC low and is sent as its command frame and its data frames, in order, touching
nothing but DC and CS; where its byte j is the first to fail, the frames before it are sent, CS stays low, the SpiFault is the last
event and no later byte is attempted (44_wire_commands.md R210 to R228; 30_encoding.md R92, R94; 60_exceptions.md R250, R251; that
the entry as a whole ends there is log 7). -/
def Obligations.WireCommandSendsItsEntry : Prop :=
  ∀ (s : State) (cmd : Byte) (data : List Byte), s.pc = .idle → s.trState = .acquired →
    let fs : List Frame := ⟨.low, cmd⟩ :: data.map (Frame.mk .high)
    let does (i : Instr) : Prop :=
      exec i s = .next { s with
        pins := { s.pins with dc := .driven .low }, trace := s.trace ++ [.pinWrite .dc .low], pc := .running i 1 0 } ∧
      ((∀ n < data.length + 1, s.spiAt n = true) →
        runOp (4 * (data.length + 1)) i s = .next { s with
          pins := { s.pins with dc := .driven (if data = [] then .low else .high), cs := .driven .high },
          err := .ok, trace := s.trace ++ framesEvents fs, spiOk := s.spiOk.skip (data.length + 1) }) ∧
      ∀ j f, fs[j]? = some f → (∀ n < j, s.spiAt n = true) → s.spiAt j = false →
        runOp (4 * j + 3) i s = .next { s with
          pins := { s.pins with dc := .driven f.dc, cs := .driven .low }, err := .transferFailure, faultMark := true,
          trace := s.trace ++ framesEvents (fs.take j) ++ [.pinWrite .dc f.dc, .pinWrite .cs .low, .spiFault f.byte],
          spiOk := s.spiOk.skip (j + 1) }
    (∀ d, cmd = 0x00 → data = [d] → does (.panelSetting d)) ∧
    (cmd = 0x01 → does (.powerSetting data)) ∧
    (cmd = 0x04 → data = [] → does .powerOn) ∧
    (cmd = 0x06 → does (.boosterSoftStart data)) ∧
    (cmd = 0x10 → does (.writePlaneOld data)) ∧
    (cmd = 0x12 → data = [] → does .displayRefresh) ∧
    (cmd = 0x13 → does (.writePlaneNew data)) ∧
    (cmd = 0x16 → does (.partialRefreshControl data)) ∧
    (cmd = 0x20 → does (.lutVcom data)) ∧
    (cmd = 0x21 → does (.lutW2w data)) ∧
    (cmd = 0x22 → does (.lutB2w data)) ∧
    (cmd = 0x23 → does (.lutB2b data)) ∧
    (cmd = 0x24 → does (.lutW2b data)) ∧
    (∀ d, cmd = 0x30 → data = [d] → does (.pllControl d)) ∧
    (∀ d, cmd = 0x50 → data = [d] → does (.vcomAndInterval d)) ∧
    (∀ wh wl hh hl : Byte, cmd = 0x61 → data = [wh, wl, hh, hl] →
      does (.resolutionSetting (wh ++ wl) (hh ++ hl))) ∧
    (∀ d, cmd = 0x82 → data = [d] → does (.vcomDc d)) ∧
    (cmd = 0xF8 → does (.powerOptimization data))

/-- A panel command whose bytes all go out does what SENDCMD of its command byte followed by SENDDATA of each data byte does
(30_encoding.md R92, R105; 41_panel_primitives.md R142, R143; log 7). -/
def Obligations.WireCommandIsSendCmdThenSendData : Prop :=
  ∀ (i : Instr) (e : Entry) (s : State), encode i = .frames e.frames → s.pc = .idle →
    (∀ n < e.data.length + 1, s.spiAt n = true) →
    runOp (4 * (e.data.length + 1)) i s = runOps 4 (.sendCmd e.cmd :: e.data.map .sendData) s

/-- The wire view of frames sent whole is the frames, each byte with its DC level; and a byte written after any trace adds its entry
exactly when the last level driven on CS is 0 and DC has been driven: while CS is 1 or unknown, or DC unknown, it has none
(10_state.md R41; 30_encoding.md R91). -/
def Obligations.WireViewOfFramesIsTheFrames : Prop :=
  (∀ (fs : List Frame) (dc cs : PinLevel), wireFrom dc cs (framesEvents fs) = fs) ∧
  ∀ (es : List Event) (b : Byte),
    (∀ d, lastLevel .dc es = .driven d → lastLevel .cs es = .driven .low →
      wireView (es ++ [.spiWrite b]) = wireView es ++ [⟨d, b⟩]) ∧
    (lastLevel .cs es = .driven .high ∨ lastLevel .cs es = .unknown ∨ lastLevel .dc es = .unknown →
      wireView (es ++ [.spiWrite b]) = wireView es)

/-! ## Frames: what operations leave unchanged -/

/-- No operation but ENCODE changes an entry of BUF or BUF_LEN, ENCODE changes only BUF[0] to BUF[5807], and no operation
changes IMG, IMG_W, IMG_H or what the host is about to do (20_memory.md R60, R64; 10_state.md R31, R34). -/
def Obligations.OnlyEncodeWritesMemory : Prop :=
  ∀ (i : Instr) (s t : State), exec i s = .next t →
    (i ≠ .encode → t.bufLen = s.bufLen ∧ ∀ a, Memory.read t.buf a = Memory.read s.buf a) ∧
    (i = .encode → ∀ a, 5808 ≤ a → Memory.read t.buf a = Memory.read s.buf a) ∧
    (∀ a, Memory.read t.img a = Memory.read s.img a) ∧ t.imgW = s.imgW ∧ t.imgH = s.imgH ∧
    t.host = s.host ∧ t.hostData = s.hostData

/-- TR_STATE is written by ACQUIRE and RELEASE only; RDVAL by the operations that read BUSY only; ENCODE leaves the trace and
every pin alone (10_state.md R22, R28; 43_frame_encoder.md R190). -/
def Obligations.RegistersHaveTheirWriters : Prop :=
  ∀ (i : Instr) (s t : State), exec i s = .next t →
    (i ≠ .acquire → i ≠ .release → t.trState = s.trState) ∧
    (i ≠ .readPin .busy → i ≠ .readBusy → i ≠ .init → i ≠ .init4Gray → (∀ f, i ≠ .clear f) → i ≠ .displayFrame →
      t.rdval = s.rdval) ∧
    (i = .encode → t.trace = s.trace ∧ t.pins = s.pins ∧ t.faultMark = s.faultMark)

/-- Each output pin is changed only by the operations that drive it or that open or close the pins: POWER by SETPIN POWER,
RESET by SETPIN RESET, RESET, INIT and INIT4GRAY, DC and CS by SETPIN of the role and by the operations that send frames
(10_state.md R24; 40_transport.md R127, R130, R131; 41_panel_primitives.md R141 e). -/
def Obligations.PinsHaveTheirWriters : Prop :=
  ∀ (i : Instr) (s t : State), exec i s = .next t → i ≠ .acquire → i ≠ .release →
    ((∀ l, i ≠ .setPin .power l) → t.pins.power = s.pins.power) ∧
    ((∀ l, i ≠ .setPin .reset l) → i ≠ .reset → i ≠ .init → i ≠ .init4Gray → t.pins.reset = s.pins.reset) ∧
    ((∀ l, i ≠ .setPin .dc l) → ¬sendsFrames i → t.pins.dc = s.pins.dc) ∧
    ((∀ l, i ≠ .setPin .cs l) → ¬sendsFrames i → t.pins.cs = s.pins.cs)

/-- From every state that meets the invariant, PD_STATE and PD_MODE move only along the transition table of 10_state.md R26 and as
R27 says, at the micro-operation given there: into Resetting with NONE at the first of RESET, INIT and INIT4GRAY; Resetting to Idle
at the end of RESET, and to Configuring at the sixth of INIT and INIT4GRAY; Configuring to Idle with the mode at their last; Idle to
Refreshing at the first of CLEAR and DISPLAYFRAME and back at their read of 0; to PoweredOff with NONE at the last of RELEASE. -/
def Obligations.PanelStateMovesOnlyAsTabled : Prop :=
  ∀ (i : Instr) (s t : State), s.Inv → exec i s = .next t →
    t.pdState = s.pdState ∧ t.pdMode = s.pdMode ∨
    (i = .reset ∨ i = .init ∨ i = .init4Gray) ∧ s.pc = .idle ∧ t.pc = .running i 1 0 ∧
      t.pdState = .resetting ∧ t.pdMode = .none ∨
    i = .reset ∧ s.pdState = .resetting ∧ t.pc = .idle ∧ t.pdState = .idle ∧ t.pdMode = .none ∨
    (i = .init ∨ i = .init4Gray) ∧ s.pdState = .resetting ∧ t.pc = .running i 6 0 ∧
      t.pdState = .configuring ∧ t.pdMode = .none ∨
    (i = .init ∨ i = .init4Gray) ∧ s.pdState = .configuring ∧ t.pc = .idle ∧ t.pdState = .idle ∧
      t.pdMode = (if i = .init then .standard else .gray4) ∨
    ((∃ f, i = .clear f) ∨ i = .displayFrame) ∧ s.pdState = .idle ∧ s.pc = .idle ∧ t.pc = .running i 1 0 ∧
      t.pdState = .refreshing ∧ t.pdMode = s.pdMode ∨
    ((∃ f, i = .clear f) ∨ i = .displayFrame) ∧ s.pdState = .refreshing ∧ t.pc = .idle ∧ t.rdval = .low ∧
      t.pdState = .idle ∧ t.pdMode = s.pdMode ∨
    i = .release ∧ t.trState = .released ∧ t.pc = .idle ∧ t.pdState = .poweredOff ∧ t.pdMode = .none

/-! ## Whole-machine rules and invariants -/

/-- The invariant holds after reset. -/
def Obligations.ResetMeetsTheInvariant : Prop := State.reset.Inv

/-- Every step keeps the invariant: outside ACQUIRED the pins are undriven, the panel driver PoweredOff and unconfigured; a
configured panel is Idle or Refreshing; what is in flight between steps is at a position of its micro-operation list, with
the pins open, PD_STATE and PD_MODE as the operation has them there and CS low inside a frame; BUF and IMG keep their canonical
form and bounds; a trace with an SpiFault is marked faulted (10_state.md R23, R26, R43, of which the spec marks R43 as derived;
20_memory.md R66; 60_exceptions.md R252). That the reads of a wait are counted in the position is log 12. -/
def Obligations.StepKeepsTheInvariant : Prop :=
  ∀ s t : State, s.Inv → step s = .next t → t.Inv

/-- TRACE is append-only, and a step records at most one micro-operation (10_state.md R23, R40, R43 d). -/
def Obligations.TraceOnlyGrows : Prop :=
  ∀ s t : State, step s = .next t → t.trace = s.trace ∨ ∃ e, t.trace = s.trace ++ [e]

/-- No step leaves RELEASED, no step goes back to UNACQUIRED, and the fault mark is never cleared (10_state.md R22;
60_exceptions.md R252; 70_reset_and_hazards.md R281). -/
def Obligations.ReleasedAndFaultedAreForGood : Prop :=
  ∀ s t : State, step s = .next t →
    (s.trState = .released → t.trState = .released) ∧
    (t.trState = .unacquired → s.trState = .unacquired) ∧
    (s.faultMark = true → t.faultMark = true)

/-- SETPIN POWER, 1 is the only operation that drives POWER high (40_transport.md R125 a, R127 c; 60_exceptions.md R262). -/
def Obligations.PowerIsRaisedOnlyBySetPin : Prop :=
  ∀ (i : Instr) (s t : State), exec i s = .next t → i ≠ .setPin .power .high →
    ∃ es, t.trace = s.trace ++ es ∧ Event.pinWrite .power .high ∉ es

/-- From every state that meets the invariant, while an operation waits for BUSY (a read has answered 1), and in CLEAR and
DISPLAYFRAME from the end of the refresh command 0x12 on, nothing is sent and no pin is driven: a step reads BUSY or sleeps 200 ms
(70_reset_and_hazards.md R292; 41_panel_primitives.md R144 e). -/
def Obligations.WaitingSendsNothing : Prop :=
  ∀ (i : Instr) (s t : State) (k n : Nat), s.Inv → s.pc = .running i k n → exec i s = .next t →
    1 ≤ n ∧ s.rdval = .high ∨ (∃ f, i = .clear f) ∧ 46476 ≤ k ∨ i = .displayFrame ∧ 46477 ≤ k →
    t.pins = s.pins ∧ t.spiOk = s.spiOk ∧
    (t.trace = s.trace ++ [.sleep 200] ∨ ∃ l, t.rdval = l ∧ t.trace = s.trace ++ [.pinRead l])

/-- Whatever the ROM and the poll bound: a step of an operation performs one micro-operation and counts it in the position. An
operation in flight after its first step has done one, and one more after each further step, one event each, reads of BUSY counted
beside them (each of WAITIDLE); a step that leaves nothing in flight records one event at most (10_state.md R23; log 1, log 12).
The machine's own exec is the case c = Config.setup. -/
def Obligations.PositionCountsMicroOperations : Prop :=
  (∀ i s, execWith Config.setup i s = exec i s) ∧
  ∀ (c : Setup) (i : Instr) (s t : State), execWith c i s = .next t →
    (∀ op k n, t.pc = .running op k n → op = i ∧ ∃ e, t.trace = s.trace ++ [e] ∧
      (s.pc = .idle → k = 1 ∧ n = readCount [e]) ∧
      (∀ op' k' n', s.pc = .running op' k' n' → op' = i ∧ k = k' + 1 ∧ n = n' + readCount [e])) ∧
    (t.pc = .idle → t.trace = s.trace ∨ ∃ e, t.trace = s.trace ++ [e])
end

