-- ==== Sys2Proof/Laws/Encoding.lean ====
section
/-! SUPPORT. Laws of the encodings: the fields of a packed word, the fixed bits of each format, and
that no two rows of a table meet. -/

namespace Sys2Proof.Laws

open Sys2Proof

/-- A mask whose upper half keeps `opc` and `sub` acts on `imm16` alone. -/
theorem packWord_and (opc sub : Byte) (imm m : BitVec 16) :
    packWord opc sub imm &&& (0xFFFF#16 ++ m) = packWord opc sub (imm &&& m) := by
  have h : packWord opc sub imm = ((opc ++ sub : BitVec 16) ++ imm : BitVec 32) := rfl
  have h' : packWord opc sub (imm &&& m) = ((opc ++ sub : BitVec 16) ++ (imm &&& m) : BitVec 32) := rfl
  have h1 : (opc ++ sub : BitVec 16) &&& 0xFFFF#16 = opc ++ sub := BitVec.and_allOnes
  rw [h, h', BitVec.and_append, h1]

/-- Under the mask of its rows a word of format B is its opcode alone. -/
theorem formatB_row (opc b : Byte) : formatB opc b &&& 0xFFFFFF00 = formatN opc := by
  have h : ∀ b : Byte, (b.zeroExtend 16) &&& 0xFF00 = 0#16 := by decide +kernel
  exact (packWord_and opc 0 (b.zeroExtend 16) 0xFF00).trans (by rw [h]; rfl)

/-- Under the mask of its row a word of format T is its opcode alone. -/
theorem formatT_row (opc : Byte) (ms : BitVec 16) : formatT opc ms &&& 0xFFFF0000 = formatN opc :=
  (packWord_and opc 0 ms 0).trans (by simp [formatN])

/-- The opcode map, read as a table of words and masks: no two rows meet in a word. -/
theorem opRows_disjoint :
    opRows.Pairwise (fun r r' => r.code &&& r'.mask ≠ r'.code &&& r.mask) := by
  decide +kernel

/-- No two rows of the command set share a command byte. -/
theorem wireRows_disjoint : wireRows.Pairwise (fun r r' => r.cmd ≠ r'.cmd) := by
  decide +kernel

/-- A packed word as a number. -/
theorem toNat_packWord (opc sub : Byte) (imm : BitVec 16) :
    (packWord opc sub imm).toNat = opc.toNat * 16777216 + sub.toNat * 65536 + imm.toNat := by
  have h : packWord opc sub imm = ((opc ++ sub : BitVec 16) ++ imm : BitVec 32) := rfl
  rw [h, BitVec.toNat_append, BitVec.toNat_append, ← Nat.shiftLeft_add_eq_or_of_lt sub.isLt,
    ← Nat.shiftLeft_add_eq_or_of_lt imm.isLt, Nat.shiftLeft_eq, Nat.shiftLeft_eq]
  omega

/-- The fields a packed word gives back. -/
@[simp] theorem opcField_packWord (opc sub : Byte) (imm : BitVec 16) : opcField (packWord opc sub imm) = opc := by
  have h1 := opc.isLt
  have h2 := sub.isLt
  have h3 := imm.isLt
  apply BitVec.eq_of_toNat_eq
  rw [opcField, BitVec.extractLsb'_toNat, toNat_packWord, Nat.shiftRight_eq_div_pow]
  omega

@[simp] theorem msField_packWord (opc sub : Byte) (imm : BitVec 16) : msField (packWord opc sub imm) = imm := by
  have h3 := imm.isLt
  apply BitVec.eq_of_toNat_eq
  rw [msField, BitVec.extractLsb'_toNat, toNat_packWord, Nat.shiftRight_eq_div_pow]
  omega

@[simp] theorem byteField_packWord (opc sub b : Byte) : byteField (packWord opc sub (b.zeroExtend 16)) = b := by
  have h3 := b.isLt
  apply BitVec.eq_of_toNat_eq
  rw [byteField, BitVec.extractLsb'_toNat, toNat_packWord, Nat.shiftRight_eq_div_pow]
  simp
  omega

end Sys2Proof.Laws
end

