-- ==== Sys2Proof/Laws/State.lean ====
section
/-! SUPPORT. One lemma per field and per update of State: what the update makes of the field. -/

namespace Sys2Proof.Laws

open Sys2Proof.Machine

@[simp] theorem emit_trState (s : State) (e : Event) : (s.emit e).trState = s.trState := rfl
@[simp] theorem emit_pins (s : State) (e : Event) : (s.emit e).pins = s.pins := rfl
@[simp] theorem emit_pdState (s : State) (e : Event) : (s.emit e).pdState = s.pdState := rfl
@[simp] theorem emit_pdMode (s : State) (e : Event) : (s.emit e).pdMode = s.pdMode := rfl
@[simp] theorem emit_err (s : State) (e : Event) : (s.emit e).err = s.err := rfl
@[simp] theorem emit_rdval (s : State) (e : Event) : (s.emit e).rdval = s.rdval := rfl
@[simp] theorem emit_bufLen (s : State) (e : Event) : (s.emit e).bufLen = s.bufLen := rfl
@[simp] theorem emit_imgW (s : State) (e : Event) : (s.emit e).imgW = s.imgW := rfl
@[simp] theorem emit_imgH (s : State) (e : Event) : (s.emit e).imgH = s.imgH := rfl
@[simp] theorem emit_buf (s : State) (e : Event) : (s.emit e).buf = s.buf := rfl
@[simp] theorem emit_img (s : State) (e : Event) : (s.emit e).img = s.img := rfl
@[simp] theorem emit_pc (s : State) (e : Event) : (s.emit e).pc = s.pc.advance := rfl
@[simp] theorem emit_trace (s : State) (e : Event) : (s.emit e).trace = s.trace ++ [e] := rfl
@[simp] theorem emit_faultMark (s : State) (e : Event) : (s.emit e).faultMark = s.faultMark := rfl
@[simp] theorem emit_host (s : State) (e : Event) : (s.emit e).host = s.host := rfl
@[simp] theorem emit_hostData (s : State) (e : Event) : (s.emit e).hostData = s.hostData := rfl
@[simp] theorem emit_grants (s : State) (e : Event) : (s.emit e).grants = s.grants := rfl
@[simp] theorem emit_spiOk (s : State) (e : Event) : (s.emit e).spiOk = s.spiOk := rfl
@[simp] theorem emit_busy (s : State) (e : Event) : (s.emit e).busy = s.busy := rfl

@[simp] theorem raise_trState (s : State) (e : Err) : (s.raise e).trState = s.trState := rfl
@[simp] theorem raise_pins (s : State) (e : Err) : (s.raise e).pins = s.pins := rfl
@[simp] theorem raise_pdState (s : State) (e : Err) : (s.raise e).pdState = s.pdState := rfl
@[simp] theorem raise_pdMode (s : State) (e : Err) : (s.raise e).pdMode = s.pdMode := rfl
@[simp] theorem raise_err (s : State) (e : Err) : (s.raise e).err = e := rfl
@[simp] theorem raise_rdval (s : State) (e : Err) : (s.raise e).rdval = s.rdval := rfl
@[simp] theorem raise_bufLen (s : State) (e : Err) : (s.raise e).bufLen = s.bufLen := rfl
@[simp] theorem raise_imgW (s : State) (e : Err) : (s.raise e).imgW = s.imgW := rfl
@[simp] theorem raise_imgH (s : State) (e : Err) : (s.raise e).imgH = s.imgH := rfl
@[simp] theorem raise_buf (s : State) (e : Err) : (s.raise e).buf = s.buf := rfl
@[simp] theorem raise_img (s : State) (e : Err) : (s.raise e).img = s.img := rfl
@[simp] theorem raise_pc (s : State) (e : Err) : (s.raise e).pc = .idle := rfl
@[simp] theorem raise_trace (s : State) (e : Err) : (s.raise e).trace = s.trace := rfl
@[simp] theorem raise_faultMark (s : State) (e : Err) : (s.raise e).faultMark = s.faultMark := rfl
@[simp] theorem raise_host (s : State) (e : Err) : (s.raise e).host = s.host := rfl
@[simp] theorem raise_hostData (s : State) (e : Err) : (s.raise e).hostData = s.hostData := rfl
@[simp] theorem raise_grants (s : State) (e : Err) : (s.raise e).grants = s.grants := rfl
@[simp] theorem raise_spiOk (s : State) (e : Err) : (s.raise e).spiOk = s.spiOk := rfl
@[simp] theorem raise_busy (s : State) (e : Err) : (s.raise e).busy = s.busy := rfl

@[simp] theorem complete_trState (s : State) : s.complete.trState = s.trState := rfl
@[simp] theorem complete_pins (s : State) : s.complete.pins = s.pins := rfl
@[simp] theorem complete_pdState (s : State) : s.complete.pdState = s.pdState := rfl
@[simp] theorem complete_pdMode (s : State) : s.complete.pdMode = s.pdMode := rfl
@[simp] theorem complete_err (s : State) : s.complete.err = .ok := rfl
@[simp] theorem complete_rdval (s : State) : s.complete.rdval = s.rdval := rfl
@[simp] theorem complete_bufLen (s : State) : s.complete.bufLen = s.bufLen := rfl
@[simp] theorem complete_imgW (s : State) : s.complete.imgW = s.imgW := rfl
@[simp] theorem complete_imgH (s : State) : s.complete.imgH = s.imgH := rfl
@[simp] theorem complete_buf (s : State) : s.complete.buf = s.buf := rfl
@[simp] theorem complete_img (s : State) : s.complete.img = s.img := rfl
@[simp] theorem complete_pc (s : State) : s.complete.pc = .idle := rfl
@[simp] theorem complete_trace (s : State) : s.complete.trace = s.trace := rfl
@[simp] theorem complete_faultMark (s : State) : s.complete.faultMark = s.faultMark := rfl
@[simp] theorem complete_host (s : State) : s.complete.host = s.host := rfl
@[simp] theorem complete_hostData (s : State) : s.complete.hostData = s.hostData := rfl
@[simp] theorem complete_grants (s : State) : s.complete.grants = s.grants := rfl
@[simp] theorem complete_spiOk (s : State) : s.complete.spiOk = s.spiOk := rfl
@[simp] theorem complete_busy (s : State) : s.complete.busy = s.busy := rfl

@[simp] theorem begin_trState (s : State) (op : Instr) : (s.begin op).trState = s.trState := rfl
@[simp] theorem begin_pins (s : State) (op : Instr) : (s.begin op).pins = s.pins := rfl
@[simp] theorem begin_pdState (s : State) (op : Instr) : (s.begin op).pdState = s.pdState := rfl
@[simp] theorem begin_pdMode (s : State) (op : Instr) : (s.begin op).pdMode = s.pdMode := rfl
@[simp] theorem begin_err (s : State) (op : Instr) : (s.begin op).err = s.err := rfl
@[simp] theorem begin_rdval (s : State) (op : Instr) : (s.begin op).rdval = s.rdval := rfl
@[simp] theorem begin_bufLen (s : State) (op : Instr) : (s.begin op).bufLen = s.bufLen := rfl
@[simp] theorem begin_imgW (s : State) (op : Instr) : (s.begin op).imgW = s.imgW := rfl
@[simp] theorem begin_imgH (s : State) (op : Instr) : (s.begin op).imgH = s.imgH := rfl
@[simp] theorem begin_buf (s : State) (op : Instr) : (s.begin op).buf = s.buf := rfl
@[simp] theorem begin_img (s : State) (op : Instr) : (s.begin op).img = s.img := rfl
@[simp] theorem begin_pc (s : State) (op : Instr) : (s.begin op).pc = .running op 0 0 := rfl
@[simp] theorem begin_trace (s : State) (op : Instr) : (s.begin op).trace = s.trace := rfl
@[simp] theorem begin_faultMark (s : State) (op : Instr) : (s.begin op).faultMark = s.faultMark := rfl
@[simp] theorem begin_host (s : State) (op : Instr) : (s.begin op).host = s.host := rfl
@[simp] theorem begin_hostData (s : State) (op : Instr) : (s.begin op).hostData = s.hostData := rfl
@[simp] theorem begin_grants (s : State) (op : Instr) : (s.begin op).grants = s.grants := rfl
@[simp] theorem begin_spiOk (s : State) (op : Instr) : (s.begin op).spiOk = s.spiOk := rfl
@[simp] theorem begin_busy (s : State) (op : Instr) : (s.begin op).busy = s.busy := rfl

@[simp] theorem markFaulted_trState (s : State) : s.markFaulted.trState = s.trState := rfl
@[simp] theorem markFaulted_pins (s : State) : s.markFaulted.pins = s.pins := rfl
@[simp] theorem markFaulted_pdState (s : State) : s.markFaulted.pdState = s.pdState := rfl
@[simp] theorem markFaulted_pdMode (s : State) : s.markFaulted.pdMode = s.pdMode := rfl
@[simp] theorem markFaulted_err (s : State) : s.markFaulted.err = s.err := rfl
@[simp] theorem markFaulted_rdval (s : State) : s.markFaulted.rdval = s.rdval := rfl
@[simp] theorem markFaulted_bufLen (s : State) : s.markFaulted.bufLen = s.bufLen := rfl
@[simp] theorem markFaulted_imgW (s : State) : s.markFaulted.imgW = s.imgW := rfl
@[simp] theorem markFaulted_imgH (s : State) : s.markFaulted.imgH = s.imgH := rfl
@[simp] theorem markFaulted_buf (s : State) : s.markFaulted.buf = s.buf := rfl
@[simp] theorem markFaulted_img (s : State) : s.markFaulted.img = s.img := rfl
@[simp] theorem markFaulted_pc (s : State) : s.markFaulted.pc = s.pc := rfl
@[simp] theorem markFaulted_trace (s : State) : s.markFaulted.trace = s.trace := rfl
@[simp] theorem markFaulted_faultMark (s : State) : s.markFaulted.faultMark = true := rfl
@[simp] theorem markFaulted_host (s : State) : s.markFaulted.host = s.host := rfl
@[simp] theorem markFaulted_hostData (s : State) : s.markFaulted.hostData = s.hostData := rfl
@[simp] theorem markFaulted_grants (s : State) : s.markFaulted.grants = s.grants := rfl
@[simp] theorem markFaulted_spiOk (s : State) : s.markFaulted.spiOk = s.spiOk := rfl
@[simp] theorem markFaulted_busy (s : State) : s.markFaulted.busy = s.busy := rfl

@[simp] theorem drive_trState (s : State) (r : OutPin) (l : Level) : (s.drive r l).trState = s.trState := rfl
@[simp] theorem drive_pins (s : State) (r : OutPin) (l : Level) : (s.drive r l).pins = s.pins.set r (.driven l) := rfl
@[simp] theorem drive_pdState (s : State) (r : OutPin) (l : Level) : (s.drive r l).pdState = s.pdState := rfl
@[simp] theorem drive_pdMode (s : State) (r : OutPin) (l : Level) : (s.drive r l).pdMode = s.pdMode := rfl
@[simp] theorem drive_err (s : State) (r : OutPin) (l : Level) : (s.drive r l).err = s.err := rfl
@[simp] theorem drive_rdval (s : State) (r : OutPin) (l : Level) : (s.drive r l).rdval = s.rdval := rfl
@[simp] theorem drive_bufLen (s : State) (r : OutPin) (l : Level) : (s.drive r l).bufLen = s.bufLen := rfl
@[simp] theorem drive_imgW (s : State) (r : OutPin) (l : Level) : (s.drive r l).imgW = s.imgW := rfl
@[simp] theorem drive_imgH (s : State) (r : OutPin) (l : Level) : (s.drive r l).imgH = s.imgH := rfl
@[simp] theorem drive_buf (s : State) (r : OutPin) (l : Level) : (s.drive r l).buf = s.buf := rfl
@[simp] theorem drive_img (s : State) (r : OutPin) (l : Level) : (s.drive r l).img = s.img := rfl
@[simp] theorem drive_pc (s : State) (r : OutPin) (l : Level) : (s.drive r l).pc = s.pc.advance := rfl
@[simp] theorem drive_trace (s : State) (r : OutPin) (l : Level) : (s.drive r l).trace = s.trace ++ [.pinWrite r l] := rfl
@[simp] theorem drive_faultMark (s : State) (r : OutPin) (l : Level) : (s.drive r l).faultMark = s.faultMark := rfl
@[simp] theorem drive_host (s : State) (r : OutPin) (l : Level) : (s.drive r l).host = s.host := rfl
@[simp] theorem drive_hostData (s : State) (r : OutPin) (l : Level) : (s.drive r l).hostData = s.hostData := rfl
@[simp] theorem drive_grants (s : State) (r : OutPin) (l : Level) : (s.drive r l).grants = s.grants := rfl
@[simp] theorem drive_spiOk (s : State) (r : OutPin) (l : Level) : (s.drive r l).spiOk = s.spiOk := rfl
@[simp] theorem drive_busy (s : State) (r : OutPin) (l : Level) : (s.drive r l).busy = s.busy := rfl

@[simp] theorem sample_trState (s : State) : s.sample.trState = s.trState := rfl
@[simp] theorem sample_pins (s : State) : s.sample.pins = s.pins := rfl
@[simp] theorem sample_pdState (s : State) : s.sample.pdState = s.pdState := rfl
@[simp] theorem sample_pdMode (s : State) : s.sample.pdMode = s.pdMode := rfl
@[simp] theorem sample_err (s : State) : s.sample.err = s.err := rfl
@[simp] theorem sample_rdval (s : State) : s.sample.rdval = s.busyAt 0 := rfl
@[simp] theorem sample_bufLen (s : State) : s.sample.bufLen = s.bufLen := rfl
@[simp] theorem sample_imgW (s : State) : s.sample.imgW = s.imgW := rfl
@[simp] theorem sample_imgH (s : State) : s.sample.imgH = s.imgH := rfl
@[simp] theorem sample_buf (s : State) : s.sample.buf = s.buf := rfl
@[simp] theorem sample_img (s : State) : s.sample.img = s.img := rfl
@[simp] theorem sample_pc (s : State) : s.sample.pc = s.pc.advance := rfl
@[simp] theorem sample_trace (s : State) : s.sample.trace = s.trace ++ [.pinRead (s.busyAt 0)] := rfl
@[simp] theorem sample_faultMark (s : State) : s.sample.faultMark = s.faultMark := rfl
@[simp] theorem sample_host (s : State) : s.sample.host = s.host := rfl
@[simp] theorem sample_hostData (s : State) : s.sample.hostData = s.hostData := rfl
@[simp] theorem sample_grants (s : State) : s.sample.grants = s.grants := rfl
@[simp] theorem sample_spiOk (s : State) : s.sample.spiOk = s.spiOk := rfl
@[simp] theorem sample_busy (s : State) : s.sample.busy = s.busy.skip 1 := rfl

@[simp] theorem delay_trState (s : State) (ms : Nat) : (s.delay ms).trState = s.trState := rfl
@[simp] theorem delay_pins (s : State) (ms : Nat) : (s.delay ms).pins = s.pins := rfl
@[simp] theorem delay_pdState (s : State) (ms : Nat) : (s.delay ms).pdState = s.pdState := rfl
@[simp] theorem delay_pdMode (s : State) (ms : Nat) : (s.delay ms).pdMode = s.pdMode := rfl
@[simp] theorem delay_err (s : State) (ms : Nat) : (s.delay ms).err = s.err := rfl
@[simp] theorem delay_rdval (s : State) (ms : Nat) : (s.delay ms).rdval = s.rdval := rfl
@[simp] theorem delay_bufLen (s : State) (ms : Nat) : (s.delay ms).bufLen = s.bufLen := rfl
@[simp] theorem delay_imgW (s : State) (ms : Nat) : (s.delay ms).imgW = s.imgW := rfl
@[simp] theorem delay_imgH (s : State) (ms : Nat) : (s.delay ms).imgH = s.imgH := rfl
@[simp] theorem delay_buf (s : State) (ms : Nat) : (s.delay ms).buf = s.buf := rfl
@[simp] theorem delay_img (s : State) (ms : Nat) : (s.delay ms).img = s.img := rfl
@[simp] theorem delay_pc (s : State) (ms : Nat) : (s.delay ms).pc = s.pc.advance := rfl
@[simp] theorem delay_trace (s : State) (ms : Nat) : (s.delay ms).trace = s.trace ++ [.sleep ms] := rfl
@[simp] theorem delay_faultMark (s : State) (ms : Nat) : (s.delay ms).faultMark = s.faultMark := rfl
@[simp] theorem delay_host (s : State) (ms : Nat) : (s.delay ms).host = s.host := rfl
@[simp] theorem delay_hostData (s : State) (ms : Nat) : (s.delay ms).hostData = s.hostData := rfl
@[simp] theorem delay_grants (s : State) (ms : Nat) : (s.delay ms).grants = s.grants := rfl
@[simp] theorem delay_spiOk (s : State) (ms : Nat) : (s.delay ms).spiOk = s.spiOk := rfl
@[simp] theorem delay_busy (s : State) (ms : Nat) : (s.delay ms).busy = s.busy := rfl

@[simp] theorem closePins_trState (s : State) : s.closePins.trState = .released := rfl
@[simp] theorem closePins_pins (s : State) : s.closePins.pins = Pins.closed := rfl
@[simp] theorem closePins_pdState (s : State) : s.closePins.pdState = .poweredOff := rfl
@[simp] theorem closePins_pdMode (s : State) : s.closePins.pdMode = .none := rfl
@[simp] theorem closePins_err (s : State) : s.closePins.err = s.err := rfl
@[simp] theorem closePins_rdval (s : State) : s.closePins.rdval = s.rdval := rfl
@[simp] theorem closePins_bufLen (s : State) : s.closePins.bufLen = s.bufLen := rfl
@[simp] theorem closePins_imgW (s : State) : s.closePins.imgW = s.imgW := rfl
@[simp] theorem closePins_imgH (s : State) : s.closePins.imgH = s.imgH := rfl
@[simp] theorem closePins_buf (s : State) : s.closePins.buf = s.buf := rfl
@[simp] theorem closePins_img (s : State) : s.closePins.img = s.img := rfl
@[simp] theorem closePins_pc (s : State) : s.closePins.pc = s.pc.advance := rfl
@[simp] theorem closePins_trace (s : State) : s.closePins.trace = s.trace ++ [.closed] := rfl
@[simp] theorem closePins_faultMark (s : State) : s.closePins.faultMark = s.faultMark := rfl
@[simp] theorem closePins_host (s : State) : s.closePins.host = s.host := rfl
@[simp] theorem closePins_hostData (s : State) : s.closePins.hostData = s.hostData := rfl
@[simp] theorem closePins_grants (s : State) : s.closePins.grants = s.grants := rfl
@[simp] theorem closePins_spiOk (s : State) : s.closePins.spiOk = s.spiOk := rfl
@[simp] theorem closePins_busy (s : State) : s.closePins.busy = s.busy := rfl

@[simp] theorem mark_trState (s : State) (m : Mark) : (s.mark m).trState = s.trState := rfl
@[simp] theorem mark_pins (s : State) (m : Mark) : (s.mark m).pins = s.pins := rfl
@[simp] theorem mark_pdState (s : State) (m : Mark) : (s.mark m).pdState = m.state.getD s.pdState := rfl
@[simp] theorem mark_pdMode (s : State) (m : Mark) : (s.mark m).pdMode = m.mode.getD s.pdMode := rfl
@[simp] theorem mark_err (s : State) (m : Mark) : (s.mark m).err = s.err := rfl
@[simp] theorem mark_rdval (s : State) (m : Mark) : (s.mark m).rdval = s.rdval := rfl
@[simp] theorem mark_bufLen (s : State) (m : Mark) : (s.mark m).bufLen = s.bufLen := rfl
@[simp] theorem mark_imgW (s : State) (m : Mark) : (s.mark m).imgW = s.imgW := rfl
@[simp] theorem mark_imgH (s : State) (m : Mark) : (s.mark m).imgH = s.imgH := rfl
@[simp] theorem mark_buf (s : State) (m : Mark) : (s.mark m).buf = s.buf := rfl
@[simp] theorem mark_img (s : State) (m : Mark) : (s.mark m).img = s.img := rfl
@[simp] theorem mark_pc (s : State) (m : Mark) : (s.mark m).pc = s.pc := rfl
@[simp] theorem mark_trace (s : State) (m : Mark) : (s.mark m).trace = s.trace := rfl
@[simp] theorem mark_faultMark (s : State) (m : Mark) : (s.mark m).faultMark = s.faultMark := rfl
@[simp] theorem mark_host (s : State) (m : Mark) : (s.mark m).host = s.host := rfl
@[simp] theorem mark_hostData (s : State) (m : Mark) : (s.mark m).hostData = s.hostData := rfl
@[simp] theorem mark_grants (s : State) (m : Mark) : (s.mark m).grants = s.grants := rfl
@[simp] theorem mark_spiOk (s : State) (m : Mark) : (s.mark m).spiOk = s.spiOk := rfl
@[simp] theorem mark_busy (s : State) (m : Mark) : (s.mark m).busy = s.busy := rfl

@[simp] theorem start_trState (s : State) (op : Instr) (p : Plan) : (s.start op p).trState = s.trState := rfl
@[simp] theorem start_pins (s : State) (op : Instr) (p : Plan) : (s.start op p).pins = s.pins := rfl
@[simp] theorem start_pdState (s : State) (op : Instr) (p : Plan) : (s.start op p).pdState = p.enter.state.getD s.pdState := rfl
@[simp] theorem start_pdMode (s : State) (op : Instr) (p : Plan) : (s.start op p).pdMode = p.enter.mode.getD s.pdMode := rfl
@[simp] theorem start_err (s : State) (op : Instr) (p : Plan) : (s.start op p).err = s.err := rfl
@[simp] theorem start_rdval (s : State) (op : Instr) (p : Plan) : (s.start op p).rdval = s.rdval := rfl
@[simp] theorem start_bufLen (s : State) (op : Instr) (p : Plan) : (s.start op p).bufLen = s.bufLen := rfl
@[simp] theorem start_imgW (s : State) (op : Instr) (p : Plan) : (s.start op p).imgW = s.imgW := rfl
@[simp] theorem start_imgH (s : State) (op : Instr) (p : Plan) : (s.start op p).imgH = s.imgH := rfl
@[simp] theorem start_buf (s : State) (op : Instr) (p : Plan) : (s.start op p).buf = s.buf := rfl
@[simp] theorem start_img (s : State) (op : Instr) (p : Plan) : (s.start op p).img = s.img := rfl
@[simp] theorem start_pc (s : State) (op : Instr) (p : Plan) : (s.start op p).pc = .running op 0 0 := rfl
@[simp] theorem start_trace (s : State) (op : Instr) (p : Plan) : (s.start op p).trace = s.trace := rfl
@[simp] theorem start_faultMark (s : State) (op : Instr) (p : Plan) : (s.start op p).faultMark = s.faultMark := rfl
@[simp] theorem start_host (s : State) (op : Instr) (p : Plan) : (s.start op p).host = s.host := rfl
@[simp] theorem start_hostData (s : State) (op : Instr) (p : Plan) : (s.start op p).hostData = s.hostData := rfl
@[simp] theorem start_grants (s : State) (op : Instr) (p : Plan) : (s.start op p).grants = s.grants := rfl
@[simp] theorem start_spiOk (s : State) (op : Instr) (p : Plan) : (s.start op p).spiOk = s.spiOk := rfl
@[simp] theorem start_busy (s : State) (op : Instr) (p : Plan) : (s.start op p).busy = s.busy := rfl

@[simp] theorem finish_trState (s : State) (p : Plan) : (s.finish p).trState = s.trState := rfl
@[simp] theorem finish_pins (s : State) (p : Plan) : (s.finish p).pins = s.pins := rfl
@[simp] theorem finish_pdState (s : State) (p : Plan) : (s.finish p).pdState = p.leave.state.getD s.pdState := rfl
@[simp] theorem finish_pdMode (s : State) (p : Plan) : (s.finish p).pdMode = p.leave.mode.getD s.pdMode := rfl
@[simp] theorem finish_err (s : State) (p : Plan) : (s.finish p).err = .ok := rfl
@[simp] theorem finish_rdval (s : State) (p : Plan) : (s.finish p).rdval = s.rdval := rfl
@[simp] theorem finish_bufLen (s : State) (p : Plan) : (s.finish p).bufLen = s.bufLen := rfl
@[simp] theorem finish_imgW (s : State) (p : Plan) : (s.finish p).imgW = s.imgW := rfl
@[simp] theorem finish_imgH (s : State) (p : Plan) : (s.finish p).imgH = s.imgH := rfl
@[simp] theorem finish_buf (s : State) (p : Plan) : (s.finish p).buf = s.buf := rfl
@[simp] theorem finish_img (s : State) (p : Plan) : (s.finish p).img = s.img := rfl
@[simp] theorem finish_pc (s : State) (p : Plan) : (s.finish p).pc = .idle := rfl
@[simp] theorem finish_trace (s : State) (p : Plan) : (s.finish p).trace = s.trace := rfl
@[simp] theorem finish_faultMark (s : State) (p : Plan) : (s.finish p).faultMark = s.faultMark := rfl
@[simp] theorem finish_host (s : State) (p : Plan) : (s.finish p).host = s.host := rfl
@[simp] theorem finish_hostData (s : State) (p : Plan) : (s.finish p).hostData = s.hostData := rfl
@[simp] theorem finish_grants (s : State) (p : Plan) : (s.finish p).grants = s.grants := rfl
@[simp] theorem finish_spiOk (s : State) (p : Plan) : (s.finish p).spiOk = s.spiOk := rfl
@[simp] theorem finish_busy (s : State) (p : Plan) : (s.finish p).busy = s.busy := rfl

end Sys2Proof.Laws
end

