-- ==== Sys2Proof/Laws/Perform.lean ====
section
/-! SUPPORT. What the shared operations can do: the answers of the environment, one micro-operation, a list of them performed one
after the other, wire frames, the entry checks, and the next micro-operation of an operation. -/

namespace Sys2Proof.Laws

open Sys2Proof Sys2Proof.Machine

/-! ## Answers of the environment -/

@[simp] theorem answer_skip {α : Type} (free : Nat → α) (f : Feed α) (m n : Nat) :
    (f.skip m).answer free n = f.answer free (m + n) := by
  simp [Feed.answer, Feed.skip, List.getElem?_drop, Nat.add_assoc]

@[simp] theorem skip_skip {α : Type} (f : Feed α) (m n : Nat) : (f.skip m).skip n = f.skip (m + n) := by
  simp [Feed.skip, List.drop_drop, Nat.add_assoc]

@[simp] theorem skip_zero {α : Type} (f : Feed α) : f.skip 0 = f := by
  simp [Feed.skip]

/-- Starting an operation asks the environment nothing. -/
@[simp] theorem start_spiAt (s : State) (op : Instr) (p : Plan) (n : Nat) : (s.start op p).spiAt n = s.spiAt n := rfl
@[simp] theorem start_busyAt (s : State) (op : Instr) (p : Plan) (n : Nat) : (s.start op p).busyAt n = s.busyAt n := rfl

/-- A listed answer is the answer. -/
theorem answer_known {α : Type} (free : Nat → α) (f : Feed α) (n : Nat) (a : α) (h : f.known[n]? = some a) :
    f.answer free n = a := by
  simp [Feed.answer, h]

/-! ## Positions -/

/-- `m` micro-operations further. -/
def advanceBy : Nat → Pc → Pc
  | _, .idle => .idle
  | m, .running op k n => .running op (k + m) n

@[simp] theorem advanceBy_zero (p : Pc) : advanceBy 0 p = p := by
  cases p <;> rfl

theorem advance_eq (p : Pc) : p.advance = advanceBy 1 p := by
  cases p <;> rfl

@[simp] theorem advanceBy_advanceBy (a b : Nat) (p : Pc) : advanceBy a (advanceBy b p) = advanceBy (b + a) p := by
  cases p <;> simp [advanceBy, Nat.add_assoc]

@[simp] theorem advanceBy_running (m : Nat) (op : Instr) (k n : Nat) :
    advanceBy m (.running op k n) = .running op (k + m) n := rfl

@[simp] theorem advanceBy_reads (m : Nat) (p : Pc) : (advanceBy m p).reads = p.reads := by
  cases p <;> rfl

@[simp] theorem done_running (op : Instr) (k n : Nat) : (Pc.running op k n).done = k := rfl
@[simp] theorem reads_running (op : Instr) (k n : Nat) : (Pc.running op k n).reads = n := rfl
@[simp] theorem advance_running (op : Instr) (k n : Nat) : (Pc.running op k n).advance = .running op (k + 1) n := rfl
@[simp] theorem countRead_running (op : Instr) (k n : Nat) : (Pc.running op k n).countRead = .running op k (n + 1) := rfl

/-! ## Flows -/

/-- A property of whatever state a flow leads to. -/
def FlowAll (P : State → Prop) : Flow → Prop
  | .on s => P s
  | .out s => P s
  | .refused _ => True

/-- Micro-operations performed one after the other, until control leaves them (20_memory.md R70; 60_exceptions.md R250). -/
def perform : List Micro → State → Flow
  | [], s => .on s
  | m :: ms, s =>
    match micro m s with
    | .on s' => perform ms s'
    | .out s' => .out s'
    | .refused r => .refused r

/-- A flow goes on into a second list of items. -/
def andThen (f : Flow) (ms : List Micro) : Flow :=
  match f with
  | .on s => perform ms s
  | .out s => .out s
  | .refused r => .refused r

@[simp] theorem andThen_on (s : State) (ms : List Micro) : andThen (.on s) ms = perform ms s := rfl
@[simp] theorem andThen_out (s : State) (ms : List Micro) : andThen (.out s) ms = .out s := rfl
@[simp] theorem andThen_refused (r : Refusal) (ms : List Micro) : andThen (.refused r) ms = .refused r := rfl

@[simp] theorem perform_nil (s : State) : perform [] s = .on s := rfl

theorem perform_cons (m : Micro) (ms : List Micro) (s : State) : perform (m :: ms) s = andThen (micro m s) ms := by
  simp only [perform]
  cases micro m s <;> rfl

theorem perform_append (a b : List Micro) (s : State) : perform (a ++ b) s = andThen (perform a s) b := by
  induction a generalizing s with
  | nil => rfl
  | cons m a ih =>
    rw [List.cons_append, perform_cons, perform_cons]
    cases micro m s <;> simp [ih]

/-- A property that every item of a list keeps is kept by the list. -/
theorem perform_keeps {P : State → Prop} {ms : List Micro} (h : ∀ m ∈ ms, ∀ s, P s → FlowAll P (micro m s))
    {s : State} (hs : P s) : FlowAll P (perform ms s) := by
  induction ms generalizing s with
  | nil => exact hs
  | cons m ms ih =>
    have h1 := h m List.mem_cons_self s hs
    rw [perform_cons]
    cases hm : micro m s with
    | on t =>
      rw [hm] at h1
      exact ih (fun x hx => h x (List.mem_cons_of_mem _ hx)) h1
    | out t => rwa [hm] at h1
    | refused r => exact trivial

/-! ## One item: everything it can do -/

@[simp] theorem micro_setPin (r : OutPin) (l : Level) (s : State) : micro (.setPin r l) s = .on (s.drive r l) := rfl
@[simp] theorem micro_readPin (s : State) : micro .readPin s = .on s.sample := rfl
@[simp] theorem micro_sleep (ms : Nat) (s : State) : micro (.sleep ms) s = .on (s.delay ms) := rfl
@[simp] theorem micro_close (s : State) : micro .close s = .on s.closePins := rfl
@[simp] theorem micro_sleepInto (ms : Nat) (p : PdState) (s : State) :
    micro (.sleepInto ms p) s = .on (State.delay { s with pdState := p } ms) := rfl
@[simp] theorem micro_spiWrite (b : Byte) (s : State) : micro (.spiWrite b) s = s.shiftOut b := rfl
@[simp] theorem micro_poll (l : Option Nat) (s : State) : micro (.poll l) s = s.poll l := rfl

/-- The state after a byte that went out. -/
def afterByte (b : Byte) (s : State) : State :=
  { s with spiOk := s.spiOk.skip 1, trace := s.trace ++ [.spiWrite b], pc := s.pc.advance }

/-- The state after a byte that failed (40_transport.md R124; 60_exceptions.md R250, R252). -/
def afterFault (b : Byte) (s : State) : State :=
  { s with spiOk := s.spiOk.skip 1, trace := s.trace ++ [.spiFault b], pc := .idle, err := .transferFailure,
           faultMark := true }

theorem shiftOut_ok {b : Byte} {s : State} (h : s.spiAt 0 = true) : s.shiftOut b = .on (afterByte b s) := by
  simp [State.shiftOut, h, afterByte, State.emit]

theorem shiftOut_fail {b : Byte} {s : State} (h : s.spiAt 0 = false) : s.shiftOut b = .out (afterFault b s) := by
  simp [State.shiftOut, h, afterFault, State.emit, State.markFaulted, State.raise]

theorem shiftOut_cases (b : Byte) (s : State) :
    s.spiAt 0 = true ∧ s.shiftOut b = .on (afterByte b s) ∨
    s.spiAt 0 = false ∧ s.shiftOut b = .out (afterFault b s) := by
  cases h : s.spiAt 0
  · exact .inr ⟨rfl, shiftOut_fail h⟩
  · exact .inl ⟨rfl, shiftOut_ok h⟩

theorem spiBuf_some {k : Nat} {s : State} {b : Byte} (h : Memory.read s.buf k = some b) :
    micro (.spiBuf k) s = s.shiftOut b := by
  simp [micro, h]

theorem spiBuf_none {k : Nat} {s : State} (h : Memory.read s.buf k = none) :
    micro (.spiBuf k) s = .refused (.unwritten .buf k) := by
  simp [micro, h]

/-- The state after one read of BUSY inside WAITIDLE. -/
def afterRead (s : State) : State :=
  { s with rdval := s.busyAt 0, busy := s.busy.skip 1, trace := s.trace ++ [.pinRead (s.busyAt 0)],
           pc := s.pc.countRead.advance }

theorem poll_low {l : Option Nat} {s : State} (h : s.busyAt 0 = .low) : s.poll l = .on (afterRead s) := by
  have h' : State.busyAt { s with pc := s.pc.countRead } 0 = .low := h
  simp [State.poll, h, State.sample, State.emit, afterRead, h']

theorem poll_high {l : Option Nat} {s : State} (h : s.busyAt 0 = .high) :
    s.poll l = if l = some (afterRead s).pc.reads
      then .out { afterRead s with faultMark := true, err := .panelTimeout, pc := .idle }
      else .on (afterRead s) := by
  have h' : State.busyAt { s with pc := s.pc.countRead } 0 = .high := h
  simp [State.poll, h, State.sample, State.emit, afterRead, h', State.markFaulted, State.raise]

theorem poll_cases (l : Option Nat) (s : State) :
    s.poll l = .on (afterRead s) ∧ (s.busyAt 0 = .high → l ≠ some (afterRead s).pc.reads) ∨
    s.busyAt 0 = .high ∧ l = some (afterRead s).pc.reads ∧
      s.poll l = .out { afterRead s with faultMark := true, err := .panelTimeout, pc := .idle } := by
  cases h : s.busyAt 0
  · exact .inl ⟨poll_low h, fun h => nomatch h⟩
  · rw [poll_high h]
    by_cases hl : l = some (afterRead s).pc.reads
    · exact .inr ⟨rfl, hl, if_pos hl⟩
    · exact .inl ⟨if_neg hl, fun _ => hl⟩

/-! ## Frames -/

/-- The pins after frames sent whole: DC as the last frame set it, CS high (30_encoding.md R91). -/
def pinsAfter (fs : List Frame) (p : Pins) : Pins :=
  match fs.getLast? with
  | none => p
  | some f => { p with dc := .driven f.dc, cs := .driven .high }

/-- The state after frames sent whole. -/
def afterFrames (fs : List Frame) (s : State) : State :=
  { s with pins := pinsAfter fs s.pins, trace := s.trace ++ framesEvents fs, spiOk := s.spiOk.skip fs.length,
           pc := advanceBy (4 * fs.length) s.pc }

theorem perform_frame {f : Frame} {s : State} (h : s.spiAt 0 = true) :
    perform (frameItems f) s = .on (afterFrames [f] s) := by
  have h2 : State.spiAt ((s.drive .dc f.dc).drive .cs .low) 0 = true := h
  simp only [frameItems, perform_cons, micro_setPin, micro_spiWrite, andThen_on, shiftOut_ok h2]
  simp [afterByte, afterFrames, pinsAfter, framesEvents, frameEvents, State.drive, State.emit, Pins.set, advance_eq]

theorem framesItems_cons (f : Frame) (fs : List Frame) : framesItems (f :: fs) = frameItems f ++ framesItems fs := rfl

theorem afterFrames_nil (s : State) : afterFrames [] s = s := by
  simp [afterFrames, pinsAfter, framesEvents]

theorem afterFrames_cons (f : Frame) (fs : List Frame) (s : State) :
    afterFrames fs (afterFrames [f] s) = afterFrames (f :: fs) s := by
  cases fs with
  | nil => simp [afterFrames_nil]
  | cons g gs =>
    simp [afterFrames, pinsAfter, framesEvents, List.getLast?_cons, Nat.mul_add, Nat.add_comm]

/-- Frames whose every byte goes out are sent whole. -/
theorem perform_frames {fs : List Frame} {s : State} (h : ∀ n < fs.length, s.spiAt n = true) :
    perform (framesItems fs) s = .on (afterFrames fs s) := by
  induction fs generalizing s with
  | nil => simp [framesItems, afterFrames_nil]
  | cons f fs ih =>
    rw [framesItems_cons, perform_append, perform_frame (h 0 (by simp))]
    rw [andThen_on, ih, afterFrames_cons]
    intro n hn
    have := h (n + 1) (by simpa using hn)
    simpa [State.spiAt, afterFrames, Nat.add_comm] using this

/-- A frame whose byte fails stops with CS low (41_panel_primitives.md R142; 60_exceptions.md R251). -/
theorem perform_frame_fail {f : Frame} {s : State} (h : s.spiAt 0 = false) :
    perform (frameItems f) s = .out
      { s with pins := { s.pins with dc := .driven f.dc, cs := .driven .low },
               trace := s.trace ++ [.pinWrite .dc f.dc, .pinWrite .cs .low, .spiFault f.byte],
               spiOk := s.spiOk.skip 1, pc := .idle, err := .transferFailure, faultMark := true } := by
  have h2 : State.spiAt ((s.drive .dc f.dc).drive .cs .low) 0 = false := h
  simp only [frameItems, perform_cons, micro_setPin, micro_spiWrite, andThen_on, shiftOut_fail h2, andThen_out]
  simp [afterFault, State.drive, State.emit, Pins.set]

/-- Every list of frames is either sent whole or stops at its first failing byte. -/
theorem perform_frames_cases (fs : List Frame) (s : State) :
    perform (framesItems fs) s = .on (afterFrames fs s) ∨
    ∃ n f, fs[n]? = some f ∧ perform (framesItems fs) s = .out
      { s with pins := { s.pins with dc := .driven f.dc, cs := .driven .low },
               trace := s.trace ++ framesEvents (fs.take n) ++
                 [.pinWrite .dc f.dc, .pinWrite .cs .low, .spiFault f.byte],
               spiOk := s.spiOk.skip (n + 1), pc := .idle, err := .transferFailure, faultMark := true } := by
  induction fs generalizing s with
  | nil => exact .inl (by simp [framesItems, afterFrames_nil])
  | cons f fs ih =>
    rw [framesItems_cons, perform_append]
    cases h : s.spiAt 0
    · refine .inr ⟨0, f, by simp, ?_⟩
      simp [perform_frame_fail h, framesEvents]
    · rw [perform_frame h, andThen_on]
      rcases ih (afterFrames [f] s) with h1 | ⟨n, g, hg, h1⟩
      · exact .inl (by rw [h1, afterFrames_cons])
      · refine .inr ⟨n + 1, g, by simpa using hg, ?_⟩
        rw [h1]
        simp [afterFrames, pinsAfter, framesEvents, Nat.add_comm]

/-! ## Entry checks and operations -/

theorem needIdle_idle {s : State} (h : s.pc = .idle) (go : Outcome) : needIdle s go = go := by
  simp [needIdle, h]

theorem needIdle_running {s : State} {op : Instr} {k n : Nat} (h : s.pc = .running op k n) (go : Outcome) :
    needIdle s go = .refused .untimely := by
  simp [needIdle, h]

theorem needAcquired_acquired {s : State} (h : s.trState = .acquired) (go : Outcome) : needAcquired s go = go := by
  simp [needAcquired, h]

theorem needAcquired_not {s : State} (h : s.trState ≠ .acquired) (go : Outcome) :
    needAcquired s go = .next (s.raise .notAcquired) := by
  cases hs : s.trState <;> simp_all [needAcquired]

theorem needReady_ready {s : State} (h : s.pdState = .idle ∧ s.pdMode ≠ .none) (go : Outcome) : needReady s go = go :=
  if_pos h

theorem needReady_not {s : State} (h : ¬(s.pdState = .idle ∧ s.pdMode ≠ .none)) (go : Outcome) :
    needReady s go = .refused (.contractViolation .notReady) :=
  if_neg h

/-- What each entry check can answer. -/
theorem needIdle_next {s : State} {go : Outcome} {t : State} (h : needIdle s go = .next t) :
    s.pc = .idle ∧ go = .next t := by
  cases hp : s.pc <;> simp_all [needIdle]

theorem needAcquired_next {s : State} {go : Outcome} {t : State} (h : needAcquired s go = .next t) :
    s.trState = .acquired ∧ go = .next t ∨ s.trState ≠ .acquired ∧ t = s.raise .notAcquired := by
  cases hp : s.trState <;> simp_all [needAcquired]

theorem needReady_next {s : State} {go : Outcome} {t : State} (h : needReady s go = .next t) :
    s.pdState = .idle ∧ s.pdMode ≠ .none ∧ go = .next t := by
  unfold needReady at h
  split at h
  · simp_all
  · cases h

/-! ## The next micro-operation -/

/-- Everything a step of an operation can do: it ends with nothing left to do, it performs its next micro-operation, or an error
ends it there. -/
theorem performNext_next {p : Plan} {s t : State} (h : performNext p s = .next t) :
    (s.items p)[s.pc.done]? = none ∧ t = s.finish p ∨
    ∃ m, (s.items p)[s.pc.done]? = some m ∧
      ((∃ u, micro m s = .on u ∧ t = u.settle p) ∨ micro m s = .out t) := by
  unfold performNext at h
  split at h
  · exact .inl ⟨‹_›, by simpa using h.symm⟩
  · refine .inr ⟨_, ‹_›, ?_⟩
    split at h
    · exact .inl ⟨_, ‹_›, by simpa using h.symm⟩
    · exact .inr (by rw [‹micro _ _ = _›]; simpa using h)
    · cases h

/-- A step that has ended its list, and one that has not. -/
theorem settle_cases (s : State) (p : Plan) :
    (s.items p)[s.pc.done]? = none ∧ s.settle p = s.finish p ∨
    (∃ m, (s.items p)[s.pc.done]? = some m) ∧ s.settle p = s := by
  unfold State.settle
  split
  · exact .inl ⟨‹_›, rfl⟩
  · exact .inr ⟨⟨_, ‹_›⟩, rfl⟩

/-- What an operation with a list can answer: its entry checks, its first step, or its next one. -/
theorem operate_next {op : Instr} {p : Plan} {check : Outcome → Outcome} {s t : State}
    (h : operate op p check s = .next t) :
    s.pc = .idle ∧ check (performNext p (s.start op p)) = .next t ∨
    (∃ k n, s.pc = .running op k n) ∧ performNext p s = .next t := by
  unfold operate at h
  split at h
  · exact .inl ⟨‹_›, h⟩
  · split at h
    · subst_vars; exact .inr ⟨⟨_, _, ‹_›⟩, h⟩
    · cases h

theorem operate_idle {s : State} (h : s.pc = .idle) (op : Instr) (p : Plan) (check : Outcome → Outcome) :
    operate op p check s = check (performNext p (s.start op p)) := by
  simp [operate, h]

theorem operate_running {op : Instr} {s : State} {k n : Nat} (h : s.pc = .running op k n) (p : Plan)
    (check : Outcome → Outcome) : operate op p check s = performNext p s := by
  simp [operate, h]

theorem operate_other {op i : Instr} {s : State} {k n : Nat} (h : s.pc = .running i k n) (hi : i ≠ op) (p : Plan)
    (check : Outcome → Outcome) : operate op p check s = .refused .untimely := by
  simp [operate, h, hi]

end Sys2Proof.Laws
end

