-- ==== Sys2Proof/Laws/Run.lean ====
section
/-! SUPPORT. An operation run until it has ended: micro-operations of its list performed one after the other, and its WAITIDLE
(spec/10_state.md R23; spec/41_panel_primitives.md R144, R145). -/

namespace Sys2Proof.Laws

open Sys2Proof Sys2Proof.Machine

/-! ## Runs, unrolled from the front -/

@[simp] theorem untilEnd_zero (turn : State → Outcome) (s : State) : untilEnd turn 0 s = .next s := rfl

/-- A first step after which the operation is in flight, then the rest. -/
theorem untilEnd_on {turn : State → Outcome} {s t : State} {i : Instr} {k n : Nat} (h : turn s = .next t)
    (hp : t.pc = .running i k n) (m : Nat) : untilEnd turn (m + 1) s = untilEnd turn m t := by
  simp [untilEnd, h, hp]

/-- A first step that ends the operation. -/
theorem untilEnd_end {turn : State → Outcome} {s t : State} (h : turn s = .next t) (hp : t.pc = .idle) (m : Nat) :
    untilEnd turn (m + 1) s = .next t := by
  simp [untilEnd, h, hp]

theorem untilEnd_refused {turn : State → Outcome} {s : State} {r : Refusal} (h : turn s = .refused r) (m : Nat) :
    untilEnd turn (m + 1) s = .refused r := by
  simp [untilEnd, h]

/-- Two states with the same first step run alike. -/
theorem untilEnd_congr {turn : State → Outcome} {s s' : State} (h : turn s = turn s') (m : Nat) :
    untilEnd turn (m + 1) s = untilEnd turn (m + 1) s' := by
  simp [untilEnd, h]

/-! ## One micro-operation, what it keeps -/

/-- The micro-operation does not read BUSY. -/
def quiet : Micro → Bool
  | .readPin | .poll _ => false
  | .setPin _ _ | .sleep _ | .sleepInto _ _ | .spiWrite _ | .spiBuf _ | .close => true

theorem micro_on_bufLen {m : Micro} {s t : State} (h : micro m s = .on t) : t.bufLen = s.bufLen := by
  cases m with
  | setPin r l => cases h; rfl
  | readPin => cases h; rfl
  | sleep ms => cases h; rfl
  | sleepInto ms p => cases h; rfl
  | close => cases h; rfl
  | spiWrite b => rcases shiftOut_cases b s with ⟨_, h'⟩ | ⟨_, h'⟩ <;> rw [micro_spiWrite, h'] at h <;> cases h; rfl
  | spiBuf k =>
    cases hb : Memory.read s.buf k with
    | none => rw [spiBuf_none hb] at h; cases h
    | some b =>
      rw [spiBuf_some hb] at h
      rcases shiftOut_cases b s with ⟨_, h'⟩ | ⟨_, h'⟩ <;> rw [h'] at h <;> cases h; rfl
  | poll l => rcases poll_cases l s with ⟨h', _⟩ | ⟨_, _, h'⟩ <;> rw [micro_poll, h'] at h <;> cases h; rfl

theorem micro_on_quiet {m : Micro} {s t : State} (hq : quiet m = true) (h : micro m s = .on t) :
    t.rdval = s.rdval ∧ t.pc = s.pc.advance := by
  cases m with
  | setPin r l => cases h; exact ⟨rfl, rfl⟩
  | readPin => cases hq
  | sleep ms => cases h; exact ⟨rfl, rfl⟩
  | sleepInto ms p => cases h; exact ⟨rfl, rfl⟩
  | close => cases h; exact ⟨rfl, rfl⟩
  | spiWrite b =>
    rcases shiftOut_cases b s with ⟨_, h'⟩ | ⟨_, h'⟩ <;> rw [micro_spiWrite, h'] at h <;> cases h; exact ⟨rfl, rfl⟩
  | spiBuf k =>
    cases hb : Memory.read s.buf k with
    | none => rw [spiBuf_none hb] at h; cases h
    | some b =>
      rw [spiBuf_some hb] at h
      rcases shiftOut_cases b s with ⟨_, h'⟩ | ⟨_, h'⟩ <;> rw [h'] at h <;> cases h; exact ⟨rfl, rfl⟩
  | poll l => cases hq

/-- An error leaves nothing in flight (60_exceptions.md R250). -/
theorem micro_out_pc {m : Micro} {s t : State} (h : micro m s = .out t) : t.pc = .idle := by
  cases m with
  | setPin r l => cases h
  | readPin => cases h
  | sleep ms => cases h
  | sleepInto ms p => cases h
  | close => cases h
  | spiWrite b => rcases shiftOut_cases b s with ⟨_, h'⟩ | ⟨_, h'⟩ <;> rw [micro_spiWrite, h'] at h <;> cases h; rfl
  | spiBuf k =>
    cases hb : Memory.read s.buf k with
    | none => rw [spiBuf_none hb] at h; cases h
    | some b =>
      rw [spiBuf_some hb] at h
      rcases shiftOut_cases b s with ⟨_, h'⟩ | ⟨_, h'⟩ <;> rw [h'] at h <;> cases h; rfl
  | poll l => rcases poll_cases l s with ⟨h', _⟩ | ⟨_, _, h'⟩ <;> rw [micro_poll, h'] at h <;> cases h; rfl

/-! ## A stretch of an operation's list -/

/-- `turn` is the step of `i` with the list of `p`, wherever `i` is in flight and BUF_LEN is `L`. -/
def StepOf (turn : State → Outcome) (i : Instr) (p : Plan) (L : BitVec 16) : Prop :=
  ∀ s k n, s.pc = .running i k n → s.bufLen = L → turn s = performNext p s

/-- Where a flow leads, when going on leads to `go`. -/
def resume (f : Flow) (go : State → Outcome) : Outcome :=
  match f with
  | .on s => go s
  | .out s => .next s
  | .refused r => .refused r

@[simp] theorem resume_on (s : State) (go : State → Outcome) : resume (.on s) go = go s := rfl
@[simp] theorem resume_out (s : State) (go : State → Outcome) : resume (.out s) go = .next s := rfl
@[simp] theorem resume_refused (r : Refusal) (go : State → Outcome) : resume (.refused r) go = .refused r := rfl

/-- One step of an operation whose next micro-operation is not its last, and of one whose next is. -/
theorem performNext_cons {p : Plan} {s : State} {m : Micro} {rest : List Micro} {op : Instr} {k n : Nat}
    (hp : s.pc = .running op k n) (hq : quiet m = true) (hd : (s.items p).drop k = m :: rest) :
    performNext p s = resume (micro m s) (fun t => .next (if rest = [] then t.finish p else t)) := by
  have hm : (s.items p)[s.pc.done]? = some m := by
    rw [hp, done_running, ← List.head?_drop, hd]; rfl
  unfold performNext
  rw [hm]
  show (match micro m s with | .on t => _ | .out t => _ | .refused r => _) = _
  cases hf : micro m s with
  | out t => rfl
  | refused r => rfl
  | on t =>
    obtain ⟨hr, hpc⟩ := micro_on_quiet hq hf
    have hnext : (t.items p)[t.pc.done]? = rest.head? := by
      rw [State.items, hr, hpc, hp, advance_running, done_running, reads_running]
      have hs : s.items p = p.items n s.rdval := by rw [State.items, hp, reads_running]
      rw [← List.head?_drop, ← hs, ← List.drop_drop, hd]
      rfl
    simp only [resume_on, State.settle, hnext]
    cases rest <;> rfl

/-- A stretch of the list that is not its end: performed, and then the rest. -/
theorem untilEnd_perform {turn : State → Outcome} {i : Instr} {p : Plan} {L : BitVec 16} (ht : StepOf turn i p L)
    {ms rest : List Micro} (hq : ∀ m ∈ ms, quiet m = true) (hrest : rest ≠ []) {s : State} {k n : Nat}
    (hp : s.pc = .running i k n) (hL : s.bufLen = L) (hd : (s.items p).drop k = ms ++ rest) (j : Nat) :
    untilEnd turn (ms.length + j) s = resume (perform ms s) (untilEnd turn j) := by
  induction ms generalizing s k with
  | nil => simp
  | cons m ms ih =>
    have h1 : turn s = resume (micro m s) (fun t => .next t) := by
      rw [ht s k n hp hL, performNext_cons hp (hq m List.mem_cons_self) hd]
      simp [hrest]
    rw [List.length_cons, Nat.add_right_comm, perform_cons]
    cases hf : micro m s with
    | out t =>
      rw [hf] at h1
      exact untilEnd_end h1 (micro_out_pc hf) _
    | refused r =>
      rw [hf] at h1
      exact untilEnd_refused h1 _
    | on t =>
      rw [hf] at h1
      obtain ⟨hr, hpc⟩ := micro_on_quiet (hq m List.mem_cons_self) hf
      have hpt : t.pc = .running i (k + 1) n := by rw [hpc, hp, advance_running]
      rw [untilEnd_on h1 hpt, andThen_on]
      refine ih (fun x hx => hq x (List.mem_cons_of_mem _ hx)) hpt ((micro_on_bufLen hf).trans hL) ?_
      have hs : t.items p = s.items p := by simp [State.items, hr, hpt, hp]
      rw [hs, ← List.drop_drop, hd]
      rfl

/-- The end of the list: performed, and the operation has ended. -/
theorem untilEnd_finish {turn : State → Outcome} {i : Instr} {p : Plan} {L : BitVec 16} (ht : StepOf turn i p L)
    {ms : List Micro} (hq : ∀ m ∈ ms, quiet m = true) (hms : ms ≠ []) {s : State} {k n : Nat}
    (hp : s.pc = .running i k n) (hL : s.bufLen = L) (hd : (s.items p).drop k = ms) (j : Nat) :
    untilEnd turn (ms.length + j) s = resume (perform ms s) (fun t => .next (t.finish p)) := by
  obtain ⟨ms, m, rfl⟩ : ∃ ms' m, ms = ms' ++ [m] := ⟨_, _, (List.dropLast_append_getLast hms).symm⟩
  have h := untilEnd_perform ht (fun x hx => hq x (by simp [hx])) (List.cons_ne_nil m []) hp hL hd (1 + j)
  rw [List.length_append, List.length_singleton, Nat.add_assoc, h, perform_append]
  cases hf : perform ms s with
  | out t => rfl
  | refused r => rfl
  | on t =>
    have keep : ∀ (l : List Micro) (k : Nat) (s t : State), (∀ x ∈ l, quiet x = true) → s.pc = .running i k n →
        perform l s = .on t → t.pc = .running i (k + l.length) n ∧ t.rdval = s.rdval ∧ t.bufLen = s.bufLen := by
      intro l
      induction l with
      | nil => rintro k s t _ hp h; cases h; exact ⟨hp, rfl, rfl⟩
      | cons x l ih =>
        intro k s t hq hp h
        rw [perform_cons] at h
        cases hx : micro x s with
        | out u => rw [hx] at h; cases h
        | refused r => rw [hx] at h; cases h
        | on u =>
          rw [hx, andThen_on] at h
          obtain ⟨hr, hpc⟩ := micro_on_quiet (hq x List.mem_cons_self) hx
          obtain ⟨h1, h2, h3⟩ := ih (k + 1) u t (fun y hy => hq y (List.mem_cons_of_mem _ hy))
            (by rw [hpc, hp, advance_running]) h
          exact ⟨by rw [h1, List.length_cons]; congr 1; omega, h2.trans hr, h3.trans (micro_on_bufLen hx)⟩
    obtain ⟨hpt, hrt, hLt⟩ := keep ms k s t (fun x hx => hq x (by simp [hx])) hp hf
    have hdt : (t.items p).drop (k + ms.length) = [m] := by
      have hs : t.items p = s.items p := by simp [State.items, hrt, hpt, hp]
      rw [hs, ← List.drop_drop, hd]
      simp
    have h1 : turn t = resume (micro m t) (fun u => .next (u.finish p)) := by
      rw [ht t _ n hpt (hLt.trans hL), performNext_cons hpt (hq m (by simp)) hdt]
      simp
    rw [resume_on, andThen_on, perform_cons, Nat.add_comm 1 j]
    cases hx : micro m t with
    | out u => rw [hx] at h1; exact untilEnd_end h1 (micro_out_pc hx) _
    | refused r => rw [hx] at h1; exact untilEnd_refused h1 _
    | on u => rw [hx] at h1; exact untilEnd_end h1 rfl _

/-! ## WAITIDLE -/

/-- What `N` reads of 1, each with its sleep, leave (41_panel_primitives.md R144). -/
def afterPolls (N : Nat) (i : Instr) (k n : Nat) (s : State) : State :=
  { s with pc := .running i (k + 2 * N) (n + N), rdval := if N = 0 then s.rdval else .high, busy := s.busy.skip N,
           trace := s.trace ++ (List.replicate N [Event.pinRead .high, Event.sleep 200]).flatten }

theorem items_read {p : Plan} {w : Wait} (hw : p.wait = some w) {n : Nat} {l : Level} (h : n = 0 ∨ l = .high) :
    (p.items n l)[p.before.length + 2 * n]? = some (.poll w.limit) := by
  have hi : p.items n l = p.before ++ w.items n l := by simp [Plan.items, hw]
  rw [hi, List.getElem?_append_right (by omega)]
  rcases n with _ | n
  · simp [Wait.items]
  · rcases h with h | rfl
    · cases h
    · rw [Wait.items, List.getElem?_append_right (by simp; omega)]
      simp
      rw [show 2 * (n + 1) - (n + 1) * 2 = 0 by omega]
      rfl

theorem items_pause {p : Plan} {w : Wait} (hw : p.wait = some w) (n : Nat) :
    (p.items (n + 1) .high)[p.before.length + 2 * n + 1]? = some (.sleep pollInterval) := by
  have hi : p.items (n + 1) .high = p.before ++ w.items (n + 1) .high := by simp [Plan.items, hw]
  rw [hi, List.getElem?_append_right (by omega), Wait.items, List.replicate_succ', List.flatten_append]
  rw [List.getElem?_append_left (by simp; omega), List.getElem?_append_right (by simp; omega)]
  simp
  rw [show p.before.length + 2 * n + 1 - p.before.length - n * 2 = 1 by omega]
  rfl

theorem items_after {p : Plan} {w : Wait} (hw : p.wait = some w) (n : Nat) :
    (p.items (n + 1) .low).drop (p.before.length + 2 * n + 1) = w.after := by
  have hi : p.items (n + 1) .low = p.before ++ w.items (n + 1) .low := by simp [Plan.items, hw]
  rw [hi, Wait.items, show ∀ a b : List Micro, a ++ Micro.poll w.limit :: b = (a ++ [.poll w.limit]) ++ b by simp,
    ← List.append_assoc, List.drop_left']
  simp
  omega

/-- A read that answers 1, the bound not reached, and its sleep. -/
theorem untilEnd_poll_high {turn : State → Outcome} {i : Instr} {p : Plan} {w : Wait} {L : BitVec 16}
    (ht : StepOf turn i p L) (hw : p.wait = some w) {s : State} {n : Nat}
    (hp : s.pc = .running i (p.before.length + 2 * n) n) (hL : s.bufLen = L) (hr : n = 0 ∨ s.rdval = .high)
    (hb : s.busyAt 0 = .high) (hl : w.limit ≠ some (n + 1)) (j : Nat) :
    untilEnd turn (2 + j) s = untilEnd turn j (afterPolls 1 i (p.before.length + 2 * n) n s) := by
  have hrd : (afterRead s).pc.reads = n + 1 := by simp [afterRead, hp]
  have h1 : turn s = .next (afterRead s) := by
    have hm : (s.items p)[s.pc.done]? = some (.poll w.limit) := by
      rw [State.items, hp]; exact items_read hw hr
    rw [ht s _ n hp hL]
    unfold performNext
    rw [hm]
    show (match micro (.poll w.limit) s with | .on t => _ | .out t => _ | .refused r => _) = _
    rw [micro_poll, poll_high hb, hrd, if_neg hl]
    show Host.Outcome.next ((afterRead s).settle p) = _
    have hn : ((afterRead s).items p)[(afterRead s).pc.done]? = some (.sleep pollInterval) := by
      simp only [State.items, afterRead, hp, hb, countRead_running, advance_running, done_running, reads_running]
      exact items_pause hw n
    rw [State.settle, hn]
  have hp1 : (afterRead s).pc = .running i (p.before.length + 2 * n + 1) (n + 1) := by simp [afterRead, hp]
  have h2 : turn (afterRead s) = .next (afterPolls 1 i (p.before.length + 2 * n) n s) := by
    have hm : ((afterRead s).items p)[(afterRead s).pc.done]? = some (.sleep pollInterval) := by
      simp only [State.items, hp1, done_running, reads_running]
      show (p.items (n + 1) (s.busyAt 0))[_]? = _
      rw [hb]; exact items_pause hw n
    rw [ht _ _ _ hp1 hL]
    unfold performNext
    rw [hm]
    show Host.Outcome.next (((afterRead s).delay pollInterval).settle p) = _
    have hn : (((afterRead s).delay pollInterval).items p)[((afterRead s).delay pollInterval).pc.done]? =
        some (.poll w.limit) := by
      simp only [State.items, delay_pc, hp1, advance_running, done_running, reads_running, delay_rdval]
      exact items_read hw (.inr hb)
    rw [State.settle, hn]
    simp [afterPolls, afterRead, State.delay, State.emit, hp, hb, pollInterval]
  have hp2 : (afterPolls 1 i (p.before.length + 2 * n) n s).pc =
      .running i (p.before.length + 2 * n + 2) (n + 1) := rfl
  rw [show 2 + j = (j + 1) + 1 by omega, untilEnd_on h1 hp1, untilEnd_on h2 hp2]

/-- `N` reads that answer 1, none of them reaching the bound, each with its sleep (41_panel_primitives.md R144). -/
theorem untilEnd_polls {turn : State → Outcome} {i : Instr} {p : Plan} {w : Wait} {L : BitVec 16}
    (ht : StepOf turn i p L) (hw : p.wait = some w) {N : Nat} {s : State} {n : Nat}
    (hp : s.pc = .running i (p.before.length + 2 * n) n) (hL : s.bufLen = L) (hr : n = 0 ∨ s.rdval = .high)
    (hb : ∀ j < N, s.busyAt j = .high) (hl : ∀ j < N, w.limit ≠ some (n + j + 1)) (j : Nat) :
    untilEnd turn (2 * N + j) s = untilEnd turn j (afterPolls N i (p.before.length + 2 * n) n s) := by
  induction N generalizing s n with
  | zero => simp [afterPolls, ← hp, Feed.skip]
  | succ N ih =>
    rw [show 2 * (N + 1) + j = 2 + (2 * N + j) by omega,
      untilEnd_poll_high ht hw hp hL hr (hb 0 (by omega)) (hl 0 (by omega))]
    have h2 : p.before.length + 2 * n + 2 = p.before.length + 2 * (n + 1) := by omega
    rw [ih (s := afterPolls 1 i (p.before.length + 2 * n) n s) (n := n + 1) (by simp [afterPolls, h2]) hL (.inr rfl)
      (fun j hj => by
        have := hb (j + 1) (by omega)
        simpa [State.busyAt, afterPolls, Nat.add_comm] using this)
      (fun j hj => by rw [show n + 1 + j + 1 = n + (j + 1) + 1 by omega]; exact hl (j + 1) (by omega))]
    congr 1
    simp only [afterPolls, skip_skip]
    have e1 : p.before.length + 2 * (n + 1) + 2 * N = p.before.length + 2 * n + 2 * (N + 1) := by omega
    have e2 : n + 1 + N = n + (N + 1) := by omega
    have e3 : 1 + N = N + 1 := by omega
    simp [e1, e2, e3, List.replicate_succ]

/-- The read that answers 0: what follows the wait is next, or the operation has ended (41_panel_primitives.md R144). -/
theorem untilEnd_poll_low {turn : State → Outcome} {i : Instr} {p : Plan} {w : Wait} {L : BitVec 16}
    (ht : StepOf turn i p L) (hw : p.wait = some w) {s : State} {n : Nat}
    (hp : s.pc = .running i (p.before.length + 2 * n) n) (hL : s.bufLen = L) (hr : n = 0 ∨ s.rdval = .high)
    (hb : s.busyAt 0 = .low) (j : Nat) :
    turn s = .next (if w.after = [] then (afterRead s).finish p else afterRead s) ∧
    untilEnd turn (1 + j) s =
      if w.after = [] then .next ((afterRead s).finish p) else untilEnd turn j (afterRead s) := by
  have hp1 : (afterRead s).pc = .running i (p.before.length + 2 * n + 1) (n + 1) := by simp [afterRead, hp]
  have h1 : turn s = .next (if w.after = [] then (afterRead s).finish p else afterRead s) := by
    have hm : (s.items p)[s.pc.done]? = some (.poll w.limit) := by
      rw [State.items, hp]; exact items_read hw hr
    rw [ht s _ n hp hL]
    unfold performNext
    rw [hm]
    show (match micro (.poll w.limit) s with | .on t => _ | .out t => _ | .refused r => _) = _
    rw [micro_poll, poll_low hb]
    show Host.Outcome.next ((afterRead s).settle p) = _
    have hn : ((afterRead s).items p)[(afterRead s).pc.done]? = w.after.head? := by
      simp only [State.items, hp1, done_running, reads_running]
      show (p.items (n + 1) (s.busyAt 0))[_]? = _
      rw [hb, ← List.head?_drop, items_after hw]
    rw [State.settle, hn]
    cases w.after <;> rfl
  refine ⟨h1, ?_⟩
  rw [Nat.add_comm 1 j]
  by_cases ha : w.after = []
  · rw [if_pos ha] at h1 ⊢
    exact untilEnd_end h1 rfl _
  · rw [if_neg ha] at h1 ⊢
    exact untilEnd_on h1 hp1 _

/-- The read that reaches the bound and answers 1: PanelTimeout, without a further sleep (41_panel_primitives.md R145). -/
theorem turn_poll_timeout {turn : State → Outcome} {i : Instr} {p : Plan} {w : Wait} {L : BitVec 16}
    (ht : StepOf turn i p L) (hw : p.wait = some w) {s : State} {n : Nat}
    (hp : s.pc = .running i (p.before.length + 2 * n) n) (hL : s.bufLen = L) (hr : n = 0 ∨ s.rdval = .high)
    (hb : s.busyAt 0 = .high) (hl : w.limit = some (n + 1)) :
    turn s = .next { afterRead s with faultMark := true, err := .panelTimeout, pc := .idle } := by
  have hrd : (afterRead s).pc.reads = n + 1 := by simp [afterRead, hp]
  have hm : (s.items p)[s.pc.done]? = some (.poll w.limit) := by
    rw [State.items, hp]; exact items_read hw hr
  rw [ht s _ n hp hL]
  unfold performNext
  rw [hm]
  show (match micro (.poll w.limit) s with | .on t => _ | .out t => _ | .refused r => _) = _
  rw [micro_poll, poll_high hb, hrd, if_pos hl]

end Sys2Proof.Laws
end

