-- ==== Sys2Proof/Laws/Exec.lean ====
section
/-! SUPPORT. What exec can do, said once: an entry check decides, ACQUIRE or ENCODE is performed, or the next micro-operation of
the operation's list is (spec/10_state.md R23; spec/40_transport.md R120). -/

namespace Sys2Proof.Laws

open Sys2Proof Sys2Proof.Machine

/-- The entry checks of an operation with a micro-operation list let it through (40_transport.md R120; 42_panel_sequences.md
R166). -/
structure Accepts (i : Instr) (s : State) : Prop where
  acquired : (∀ ms, i ≠ .sleep ms) → s.trState = .acquired
  ready : (∃ f, i = .clear f) ∨ i = .displayFrame → s.pdState = .idle ∧ s.pdMode ≠ .none
  frame : i = .displayFrame → s.bufLen.toNat = frameLen
  buffer : i = .writeBytes → s.bufLen.toNat ≤ bufCap

/-- The machine's own exec is execWith at Config.setup. -/
theorem execWith_setup (i : Instr) (s : State) : execWith Config.setup i s = exec i s := by
  cases i <;> rfl

theorem runOp_eq (m : Nat) (i : Instr) (s : State) : runOp m i s = runWith Config.setup m i s := by
  have h : exec i = execWith Config.setup i := funext fun s => (execWith_setup i s).symm
  show untilEnd (exec i) m s = _
  rw [h]

/-- Each operation with a list is `operate` of it, under its own entry checks. -/
theorem exec_eq_operate {c : Setup} {i : Instr} {s : State} {p : Plan} (h : planOf c s i = some p) :
    ∃ check : Outcome → Outcome, execWith c i s = operate i p check s ∧
      (Accepts i s → ∀ go, check go = go) ∧
      ∀ go t, check go = .next t →
        Accepts i s ∧ go = .next t ∨
        (∃ e ∈ [Err.notAcquired, .invalidFrameSize], t = s.raise e) ∨
        i = .release ∧ s.trState ≠ .acquired ∧ t = s.complete := by
  have acq : ∀ go t, needAcquired s go = .next t →
      s.trState = .acquired ∧ go = .next t ∨ ∃ e ∈ [Err.notAcquired, .invalidFrameSize], t = s.raise e := by
    intro go t hg
    rcases needAcquired_next hg with h1 | ⟨_, h1⟩
    · exact .inl h1
    · exact .inr ⟨_, by simp, h1⟩
  -- operations whose one check is the acquisition
  have plain : (∀ ms, i ≠ .sleep ms) → (∀ f, i ≠ .clear f) → i ≠ .displayFrame → i ≠ .writeBytes →
      execWith c i s = operate i p (needAcquired s) s →
      ∃ check : Outcome → Outcome, execWith c i s = operate i p check s ∧
      (Accepts i s → ∀ go, check go = go) ∧
      ∀ go t, check go = .next t →
        Accepts i s ∧ go = .next t ∨
        (∃ e ∈ [Err.notAcquired, .invalidFrameSize], t = s.raise e) ∨
        i = .release ∧ s.trState ≠ .acquired ∧ t = s.complete := by
    intro h1 h2 h3 h4 he
    refine ⟨_, he, fun ha go => needAcquired_acquired (ha.acquired h1) go, fun go t hg => ?_⟩
    rcases acq go t hg with ⟨ha, hg⟩ | he
    · exact .inl ⟨⟨fun _ => ha, fun h => by rcases h with ⟨f, h⟩ | h; exacts [absurd h (h2 f), absurd h h3],
        fun h => absurd h h3, fun h => absurd h h4⟩, hg⟩
    · exact .inr (.inl he)
  cases i with
  | acquire => cases h
  | encode => cases h
  | release =>
    cases h
    refine ⟨needOpen s, rfl, fun ha go => by simp [needOpen, ha.acquired (by simp)], fun go t hg => ?_⟩
    cases hs : s.trState <;> simp only [needOpen, hs] at hg
    · exact .inr (.inr ⟨rfl, by simp, by simpa using hg.symm⟩)
    · exact .inl ⟨⟨fun _ => hs, by simp, by simp, by simp⟩, hg⟩
    · exact .inr (.inr ⟨rfl, by simp, by simpa using hg.symm⟩)
  | setPin role l =>
    cases role <;> cases h <;> exact plain (by simp) (by simp) (by simp) (by simp) rfl
  | readPin role =>
    cases role <;> cases h; exact plain (by simp) (by simp) (by simp) (by simp) rfl
  | sleep ms =>
    cases h
    exact ⟨id, rfl, fun _ _ => rfl, fun go t hg => .inl ⟨⟨fun h => absurd rfl (h ms), by simp, by simp, by simp⟩, hg⟩⟩
  | writeBytes =>
    cases h
    refine ⟨fun go => needAcquired s (needBuffer s go), rfl, fun ha go => ?_, fun go t hg => ?_⟩
    · simp only [needAcquired_acquired (ha.acquired (by simp)), needBuffer, if_neg (Nat.not_lt.2 (ha.buffer rfl))]
    · rcases acq _ t hg with ⟨ha, hg⟩ | he
      · unfold needBuffer at hg
        split at hg
        · cases hg
        · exact .inl ⟨⟨fun _ => ha, by simp, by simp, fun _ => Nat.not_lt.1 ‹_›⟩, hg⟩
      · exact .inr (.inl he)
  | clear f =>
    cases h
    refine ⟨fun go => needAcquired s (needReady s go), rfl, fun ha go => ?_, fun go t hg => ?_⟩
    · simp only [needAcquired_acquired (ha.acquired (by simp)), needReady_ready (ha.ready (.inl ⟨f, rfl⟩))]
    · rcases acq _ t hg with ⟨ha, hg⟩ | he
      · obtain ⟨h1, h2, hg⟩ := needReady_next hg
        exact .inl ⟨⟨fun _ => ha, fun _ => ⟨h1, h2⟩, by simp, by simp⟩, hg⟩
      · exact .inr (.inl he)
  | displayFrame =>
    cases h
    refine ⟨fun go => needFrame s (needAcquired s (needReady s go)), rfl, fun ha go => ?_, fun go t hg => ?_⟩
    · simp only [needFrame, ha.frame rfl, ne_eq, not_true_eq_false, if_false, needAcquired_acquired (ha.acquired (by simp)),
        needReady_ready (ha.ready (.inr rfl))]
    · unfold needFrame at hg
      split at hg
      · exact .inr (.inl ⟨.invalidFrameSize, by simp, by simpa using hg.symm⟩)
      · rcases acq _ t hg with ⟨ha, hg⟩ | he
        · obtain ⟨h1, h2, hg⟩ := needReady_next hg
          exact .inl ⟨⟨fun _ => ha, fun _ => ⟨h1, h2⟩, fun _ => not_not.1 ‹_›, by simp⟩, hg⟩
        · exact .inr (.inl he)
  | _ => cases h; exact plain (by simp) (by simp) (by simp) (by simp) rfl

/-- The step of an operation in flight is its next micro-operation. -/
theorem stepOf_execWith {c : Setup} {i : Instr} {p : Plan} {s₀ : State} (h : planOf c s₀ i = some p) :
    StepOf (execWith c i) i p s₀.bufLen := by
  intro s k n hp hL
  have h' : planOf c s i = some p := by
    rw [← h]
    cases i <;> simp only [planOf, encode, opPlan, hL]
  obtain ⟨check, he, _⟩ := exec_eq_operate h'
  rw [he, operate_running hp]

/-- An operation whose entry checks let it through starts with the first micro-operation of its list, and so runs as from its
start. -/
theorem execWith_start {c : Setup} {i : Instr} {p : Plan} {s : State} (h : planOf c s i = some p) (hp : s.pc = .idle)
    (ha : Accepts i s) : execWith c i s = performNext p (s.start i p) := by
  obtain ⟨check, he, hc, _⟩ := exec_eq_operate h
  rw [he, operate_idle hp, hc ha]

theorem runWith_start {c : Setup} {i : Instr} {p : Plan} {s : State} (h : planOf c s i = some p) (hp : s.pc = .idle)
    (ha : Accepts i s) (m : Nat) : runWith c (m + 1) i s = runWith c (m + 1) i (s.start i p) := by
  refine untilEnd_congr ?_ m
  rw [execWith_start h hp ha]
  exact (stepOf_execWith h (s.start i p) 0 0 rfl rfl).symm

/-- Everything exec can answer by a next state. -/
theorem execWith_next {c : Setup} {i : Instr} {s t : State} (h : execWith c i s = .next t) :
    (s.pc = .idle ∧ ∃ e ∈ [Err.invalidPinRole, .notAcquired, .invalidFrameSize, .unsupportedImageSize], t = s.raise e) ∨
    (s.pc = .idle ∧ i = .acquire ∧ s.trState = .unacquired ∧ t = s.tryAcquire) ∨
    (s.pc = .idle ∧ i = .release ∧ s.trState ≠ .acquired ∧ t = s.complete) ∨
    (s.pc = .idle ∧ i = .encode ∧ ∃ o buf, orientationOf s.imgW s.imgH = some o ∧ packImage o s.img s.buf = .ok buf ∧
      t = { s with buf := buf, bufLen := BitVec.ofNat 16 frameLen }.complete) ∨
    ∃ p, planOf c s i = some p ∧
      (s.pc = .idle ∧ Accepts i s ∧ performNext p (s.start i p) = .next t ∨
       (∃ k n, s.pc = .running i k n) ∧ performNext p s = .next t) := by
  cases hpl : planOf c s i with
  | some p =>
    obtain ⟨check, he, _, hc⟩ := exec_eq_operate hpl
    rw [he] at h
    rcases operate_next h with ⟨hp, h⟩ | h
    · rcases hc _ t h with ⟨ha, hg⟩ | ⟨e, he, ht⟩ | ⟨h1, h2, h3⟩
      · exact .inr (.inr (.inr (.inr ⟨p, rfl, .inl ⟨hp, ha, hg⟩⟩)))
      · exact .inl ⟨hp, e, by simp at he ⊢; tauto, ht⟩
      · exact .inr (.inr (.inl ⟨hp, h1, h2, h3⟩))
    · exact .inr (.inr (.inr (.inr ⟨p, rfl, .inr h⟩)))
  | none =>
    have role : ∀ r, needIdle s (.next (s.raise r)) = .next t → s.pc = .idle ∧ t = s.raise r := by
      intro r hr
      obtain ⟨hp, hr⟩ := needIdle_next hr
      exact ⟨hp, by simpa using hr.symm⟩
    cases i with
    | acquire =>
      obtain ⟨hp, h⟩ := needIdle_next h
      cases hs : s.trState <;> simp only [hs] at h
      · exact .inr (.inl ⟨hp, rfl, rfl, by simpa using h.symm⟩)
      · cases h
      · cases h
    | encode =>
      obtain ⟨hp, h⟩ := needIdle_next h
      split at h
      · exact .inl ⟨hp, .unsupportedImageSize, by simp, by simpa using h.symm⟩
      · split at h
        · cases h
        · exact .inr (.inr (.inr (.inl ⟨hp, rfl, _, _, ‹_›, ‹_›, by simpa using h.symm⟩)))
    | setPin r l =>
      cases r <;> cases hpl
      obtain ⟨hp, ht⟩ := role _ h
      exact .inl ⟨hp, .invalidPinRole, by simp, ht⟩
    | readPin r =>
      cases r <;> cases hpl <;>
      · obtain ⟨hp, ht⟩ := role _ h
        exact .inl ⟨hp, .invalidPinRole, by simp, ht⟩
    | _ => cases hpl

end Sys2Proof.Laws
end

