-- ==== Sys2Proof/Laws/Memory.lean ====
section
/-! SUPPORT. The laws of the memories: reading after writing, and that every memory operation keeps the canonical form and
the bounds. -/

namespace Sys2Proof.Laws

open Sys2Proof.Machine

variable {α : Type}

@[simp] theorem read_write_same (m : List (Nat × α)) (a : Nat) (v : α) :
    Memory.read (Memory.write m a v) a = some v := by
  induction m with
  | nil => simp [Memory.write, Memory.read]
  | cons c m ih =>
    obtain ⟨b, u⟩ := c
    unfold Memory.write
    split
    · simp [Memory.read]
    · split
      · simp [Memory.read]
      · simp [Memory.read, *]

theorem read_write_other (m : List (Nat × α)) {a c : Nat} (v : α) (h : c ≠ a) :
    Memory.read (Memory.write m a v) c = Memory.read m c := by
  induction m with
  | nil => simp [Memory.write, Memory.read, h]
  | cons d m ih =>
    obtain ⟨b, u⟩ := d
    unfold Memory.write
    split
    · simp [Memory.read, h]
    · split
      · subst_vars
        simp [Memory.read, h]
      · simp [Memory.read, ih]

theorem key_of_mem_write {m : List (Nat × α)} {a : Nat} {v : α} {c : Nat × α} (h : c ∈ Memory.write m a v) :
    c.1 = a ∨ c ∈ m := by
  induction m with
  | nil => simp_all [Memory.write]
  | cons d m ih =>
    obtain ⟨b, u⟩ := d
    unfold Memory.write at h
    split at h
    · rcases List.mem_cons.1 h with rfl | h
      · exact .inl rfl
      · exact .inr h
    · split at h
      · rcases List.mem_cons.1 h with rfl | h
        · exact .inl rfl
        · exact .inr (List.mem_cons_of_mem _ h)
      · rcases List.mem_cons.1 h with rfl | h
        · exact .inr List.mem_cons_self
        · exact (ih h).imp id (List.mem_cons_of_mem _)

theorem wf_write {m : List (Nat × α)} (a : Nat) (v : α) (h : Memory.wf m) : Memory.wf (Memory.write m a v) := by
  induction m with
  | nil => simp [Memory.write]
  | cons d m ih =>
    obtain ⟨b, u⟩ := d
    obtain ⟨hb, hm⟩ := List.pairwise_cons.1 h
    unfold Memory.write
    split
    · rename_i hab
      refine List.pairwise_cons.2 ⟨fun c hc => ?_, h⟩
      rcases List.mem_cons.1 hc with rfl | hc
      · exact hab
      · exact Nat.lt_trans hab (hb c hc)
    · split
      · subst_vars
        exact List.pairwise_cons.2 ⟨hb, hm⟩
      · refine List.pairwise_cons.2 ⟨fun c hc => ?_, ih hm⟩
        rcases key_of_mem_write hc with hc | hc
        · simp only [hc]; omega
        · exact hb c hc

theorem within_write {m : List (Nat × α)} {cap a : Nat} (v : α) (ha : a < cap) (h : Memory.within cap m) :
    Memory.within cap (Memory.write m a v) := by
  intro c hc
  rcases key_of_mem_write hc with hc | hc
  · omega
  · exact h c hc

theorem read_fill (v : α) (n : Nat) (m : List (Nat × α)) (a : Nat) :
    Memory.read (Memory.fill v n m) a = if a < n then some v else Memory.read m a := by
  induction n with
  | zero => simp [Memory.fill]
  | succ n ih =>
    by_cases h : a = n
    · subst h; simp [Memory.fill]
    · rw [Memory.fill, read_write_other _ _ h, ih]
      have : a < n ↔ a < n + 1 := by omega
      simp [this]

theorem wf_fill (v : α) (n : Nat) {m : List (Nat × α)} (h : Memory.wf m) : Memory.wf (Memory.fill v n m) := by
  induction n with
  | zero => exact h
  | succ n ih => exact wf_write _ _ ih

theorem within_fill (v : α) {n cap : Nat} (hn : n ≤ cap) {m : List (Nat × α)} (h : Memory.within cap m) :
    Memory.within cap (Memory.fill v n m) := by
  induction n with
  | zero => exact h
  | succ n ih => exact within_write _ (by omega) (ih (by omega))

/-- An index that reads as something is listed. -/
theorem mem_of_read {m : List (Nat × α)} {a : Nat} {v : α} (h : Memory.read m a = some v) : (a, v) ∈ m := by
  induction m with
  | nil => simp [Memory.read, Memory.unlisted] at h
  | cons d m ih =>
    obtain ⟨b, u⟩ := d
    rw [Memory.read] at h
    split at h
    · simp_all
    · exact List.mem_cons_of_mem _ (ih h)

/-- What the loops of ENCODE keep: the canonical form and the bounds. -/
theorem encodePixels_keeps {o : Orientation} {img : List (Nat × Pixel)} {cap : Nat} {ps : List (Nat × Nat)}
    {buf buf' : List Host.Cell} (h : encodePixels o img ps buf = .ok buf') (hw : Memory.wf buf)
    (hc : Memory.within cap buf) : Memory.wf buf' ∧ Memory.within cap buf' := by
  induction ps generalizing buf with
  | nil => simp only [encodePixels, Except.ok.injEq] at h; subst h; exact ⟨hw, hc⟩
  | cons p ps ih =>
    obtain ⟨x, y⟩ := p
    rw [encodePixels] at h
    split at h
    · cases h
    · split at h
      · exact ih h hw hc
      · split at h
        · cases h
        · rename_i b hb
          exact ih h (wf_write _ _ hw) (within_write _ (hc _ (mem_of_read hb)) hc)

/-- The bytes the loops of ENCODE touch exist after the fill. -/
theorem targetIndex_lt {o : Orientation} {x y : Nat} (hx : x < o.width) (hy : y < o.height) :
    targetIndex o x y < frameLen := by
  cases o <;> simp only [targetIndex, Orientation.width, Orientation.height, panelWidth, panelHeight, frameLen] at * <;>
    omega

theorem mem_pixelOrder {w h : Nat} {p : Nat × Nat} : p ∈ pixelOrder w h ↔ p.1 < w ∧ p.2 < h := by
  obtain ⟨x, y⟩ := p
  simp [pixelOrder, and_comm]

/-- The loops go through when every pixel visited is written and every byte touched exists. -/
theorem encodePixels_ok {o : Orientation} {img : List (Nat × Pixel)} {ps : List (Nat × Nat)} {buf : List Host.Cell}
    (hi : ∀ p ∈ ps, (Memory.read img (p.1 + p.2 * o.width)).isSome = true)
    (hb : ∀ p ∈ ps, (Memory.read buf (targetIndex o p.1 p.2)).isSome = true) :
    ∃ buf', encodePixels o img ps buf = .ok buf' := by
  induction ps generalizing buf with
  | nil => exact ⟨buf, rfl⟩
  | cons p ps ih =>
    obtain ⟨x, y⟩ := p
    obtain ⟨c, hc⟩ := Option.isSome_iff_exists.1 (hi _ List.mem_cons_self)
    obtain ⟨b, hb0⟩ := Option.isSome_iff_exists.1 (hb _ List.mem_cons_self)
    have hi' := fun q hq => hi q (List.mem_cons_of_mem _ hq)
    have hb' := fun q hq => hb q (List.mem_cons_of_mem _ hq)
    simp only at hc hb0
    simp only [encodePixels, hc]
    cases isBlack c with
    | false => exact ih hi' hb'
    | true =>
      simp only [hb0]
      refine ih hi' (fun q hq => ?_)
      by_cases h : targetIndex o q.1 q.2 = targetIndex o x y
      · rw [h, read_write_same]; rfl
      · rw [read_write_other _ _ h]; exact hb' q hq

/-- An image written whole is packed. -/
theorem packImage_ok {o : Orientation} {img : List (Nat × Pixel)} (buf : List Host.Cell)
    (hi : ∀ k < 46464, (Memory.read img k).isSome = true) : ∃ buf', packImage o img buf = .ok buf' := by
  refine encodePixels_ok (fun p hp => hi _ ?_) (fun p hp => ?_)
  · obtain ⟨hx, hy⟩ := mem_pixelOrder.1 hp
    cases o <;> simp only [Orientation.width, Orientation.height, panelWidth, panelHeight] at * <;> omega
  · obtain ⟨hx, hy⟩ := mem_pixelOrder.1 hp
    rw [read_fill, if_pos (targetIndex_lt hx hy)]
    rfl

theorem packImage_keeps {o : Orientation} {img : List (Nat × Pixel)} {buf buf' : List Host.Cell}
    (h : packImage o img buf = .ok buf') (hw : Memory.wf buf) (hc : Memory.within bufCap buf) :
    Memory.wf buf' ∧ Memory.within bufCap buf' :=
  encodePixels_keeps h (wf_fill _ _ hw) (within_fill _ (by decide) hc)

end Sys2Proof.Laws
end

