-- ==== Sys2Proof/Laws/PerInstr.lean ====
section
/-! SUPPORT. Per instruction: the encoding of each operation carries the match bits of its row of spec/opcode_table.json
under the row's mask (spec/30_encoding.md R100; spec/44_wire_commands.md R229). -/

open Sys2Proof

/-- A word of a 32-bit row: its fixed bits, under the row's mask. -/
def Sys2Proof.Laws.RowWord.onPort (code mask : Word) : Encoding → Prop
  | .word w => w &&& mask = code
  | .frames _ => False

/-- The frames of an 8-bit row: its command byte in a command frame, then data frames only. -/
def Sys2Proof.Laws.RowWord.onWire (cmd : Byte) : Encoding → Prop
  | .word _ => False
  | .frames fs => ∃ ds, fs = ⟨.low, cmd⟩ :: ds ∧ ∀ f ∈ ds, f.dc = .high

/-- What the encoding of an operation carries, row by row. -/
def Sys2Proof.Laws.RowWord.Statement : Instr → Prop
  | .acquire => Sys2Proof.Laws.RowWord.onPort 0xC0000000 0xFFFFFFFF (encode .acquire)
  | .release => Sys2Proof.Laws.RowWord.onPort 0xC1000000 0xFFFFFFFF (encode .release)
  | .setPin role level => Sys2Proof.Laws.RowWord.onPort 0xC2000000 0xFFF8FFFE (encode (.setPin role level))
  | .readPin role => Sys2Proof.Laws.RowWord.onPort 0xC3000000 0xFFF8FFFF (encode (.readPin role))
  | .sleep ms => Sys2Proof.Laws.RowWord.onPort 0xC4000000 0xFFFF0000 (encode (.sleep ms))
  | .writeByte b => Sys2Proof.Laws.RowWord.onPort 0xC5000000 0xFFFFFF00 (encode (.writeByte b))
  | .writeBytes => Sys2Proof.Laws.RowWord.onPort 0xC6000000 0xFFFFFFFF (encode .writeBytes)
  | .reset => Sys2Proof.Laws.RowWord.onPort 0xD0000000 0xFFFFFFFF (encode .reset)
  | .sendCmd b => Sys2Proof.Laws.RowWord.onPort 0xD1000000 0xFFFFFF00 (encode (.sendCmd b))
  | .sendData b => Sys2Proof.Laws.RowWord.onPort 0xD2000000 0xFFFFFF00 (encode (.sendData b))
  | .readBusy => Sys2Proof.Laws.RowWord.onPort 0xD3000000 0xFFFFFFFF (encode .readBusy)
  | .init => Sys2Proof.Laws.RowWord.onPort 0xE0000000 0xFFFFFFFF (encode .init)
  | .init4Gray => Sys2Proof.Laws.RowWord.onPort 0xE1000000 0xFFFFFFFF (encode .init4Gray)
  | .clear f => Sys2Proof.Laws.RowWord.onPort 0xE2000000 0xFFFFFF00 (encode (.clear f))
  | .displayFrame => Sys2Proof.Laws.RowWord.onPort 0xE3000000 0xFFFFFFFF (encode .displayFrame)
  | .encode => Sys2Proof.Laws.RowWord.onPort 0xF0000000 0xFFFFFFFF (encode .encode)
  | .panelSetting d => Sys2Proof.Laws.RowWord.onWire 0x00 (encode (.panelSetting d))
  | .powerSetting ds => Sys2Proof.Laws.RowWord.onWire 0x01 (encode (.powerSetting ds))
  | .powerOn => Sys2Proof.Laws.RowWord.onWire 0x04 (encode .powerOn)
  | .boosterSoftStart ds => Sys2Proof.Laws.RowWord.onWire 0x06 (encode (.boosterSoftStart ds))
  | .writePlaneOld ds => Sys2Proof.Laws.RowWord.onWire 0x10 (encode (.writePlaneOld ds))
  | .displayRefresh => Sys2Proof.Laws.RowWord.onWire 0x12 (encode .displayRefresh)
  | .writePlaneNew ds => Sys2Proof.Laws.RowWord.onWire 0x13 (encode (.writePlaneNew ds))
  | .partialRefreshControl ds => Sys2Proof.Laws.RowWord.onWire 0x16 (encode (.partialRefreshControl ds))
  | .lutVcom ds => Sys2Proof.Laws.RowWord.onWire 0x20 (encode (.lutVcom ds))
  | .lutW2w ds => Sys2Proof.Laws.RowWord.onWire 0x21 (encode (.lutW2w ds))
  | .lutB2w ds => Sys2Proof.Laws.RowWord.onWire 0x22 (encode (.lutB2w ds))
  | .lutB2b ds => Sys2Proof.Laws.RowWord.onWire 0x23 (encode (.lutB2b ds))
  | .lutW2b ds => Sys2Proof.Laws.RowWord.onWire 0x24 (encode (.lutW2b ds))
  | .pllControl d => Sys2Proof.Laws.RowWord.onWire 0x30 (encode (.pllControl d))
  | .vcomAndInterval d => Sys2Proof.Laws.RowWord.onWire 0x50 (encode (.vcomAndInterval d))
  | .resolutionSetting width height => Sys2Proof.Laws.RowWord.onWire 0x61 (encode (.resolutionSetting width height))
  | .vcomDc d => Sys2Proof.Laws.RowWord.onWire 0x82 (encode (.vcomDc d))
  | .powerOptimization ds => Sys2Proof.Laws.RowWord.onWire 0xF8 (encode (.powerOptimization ds))

theorem Sys2Proof.Laws.RowWord.onWire_wireForm (cmd : Byte) (ds : List Byte) :
    Sys2Proof.Laws.RowWord.onWire cmd (wireForm cmd ds) :=
  ⟨ds.map (Frame.mk .high), rfl, by simp⟩

theorem Sys2Proof.Laws.RowWord.acquire :
    Sys2Proof.Laws.RowWord.Statement .acquire := rfl

theorem Sys2Proof.Laws.RowWord.release :
    Sys2Proof.Laws.RowWord.Statement .release := rfl

theorem Sys2Proof.Laws.RowWord.setPin (role : PinRole) (level : Level) :
    Sys2Proof.Laws.RowWord.Statement (.setPin role level) := by
  cases role <;> cases level <;> rfl

theorem Sys2Proof.Laws.RowWord.readPin (role : PinRole) :
    Sys2Proof.Laws.RowWord.Statement (.readPin role) := by
  cases role <;> rfl

theorem Sys2Proof.Laws.RowWord.sleep (ms : BitVec 16) :
    Sys2Proof.Laws.RowWord.Statement (.sleep ms) := (Sys2Proof.Laws.formatT_row _ _).trans rfl

theorem Sys2Proof.Laws.RowWord.writeByte (b : Byte) :
    Sys2Proof.Laws.RowWord.Statement (.writeByte b) := (Sys2Proof.Laws.formatB_row _ _).trans rfl

theorem Sys2Proof.Laws.RowWord.writeBytes :
    Sys2Proof.Laws.RowWord.Statement .writeBytes := rfl

theorem Sys2Proof.Laws.RowWord.reset :
    Sys2Proof.Laws.RowWord.Statement .reset := rfl

theorem Sys2Proof.Laws.RowWord.sendCmd (b : Byte) :
    Sys2Proof.Laws.RowWord.Statement (.sendCmd b) := (Sys2Proof.Laws.formatB_row _ _).trans rfl

theorem Sys2Proof.Laws.RowWord.sendData (b : Byte) :
    Sys2Proof.Laws.RowWord.Statement (.sendData b) := (Sys2Proof.Laws.formatB_row _ _).trans rfl

theorem Sys2Proof.Laws.RowWord.readBusy :
    Sys2Proof.Laws.RowWord.Statement .readBusy := rfl

theorem Sys2Proof.Laws.RowWord.init :
    Sys2Proof.Laws.RowWord.Statement .init := rfl

theorem Sys2Proof.Laws.RowWord.init4Gray :
    Sys2Proof.Laws.RowWord.Statement .init4Gray := rfl

theorem Sys2Proof.Laws.RowWord.clear (f : Byte) :
    Sys2Proof.Laws.RowWord.Statement (.clear f) := (Sys2Proof.Laws.formatB_row _ _).trans rfl

theorem Sys2Proof.Laws.RowWord.displayFrame :
    Sys2Proof.Laws.RowWord.Statement .displayFrame := rfl

theorem Sys2Proof.Laws.RowWord.encode :
    Sys2Proof.Laws.RowWord.Statement .encode := rfl

theorem Sys2Proof.Laws.RowWord.panelSetting (d : Byte) :
    Sys2Proof.Laws.RowWord.Statement (.panelSetting d) := Sys2Proof.Laws.RowWord.onWire_wireForm _ _

theorem Sys2Proof.Laws.RowWord.powerSetting (ds : List Byte) :
    Sys2Proof.Laws.RowWord.Statement (.powerSetting ds) := Sys2Proof.Laws.RowWord.onWire_wireForm _ _

theorem Sys2Proof.Laws.RowWord.powerOn :
    Sys2Proof.Laws.RowWord.Statement .powerOn := Sys2Proof.Laws.RowWord.onWire_wireForm _ _

theorem Sys2Proof.Laws.RowWord.boosterSoftStart (ds : List Byte) :
    Sys2Proof.Laws.RowWord.Statement (.boosterSoftStart ds) := Sys2Proof.Laws.RowWord.onWire_wireForm _ _

theorem Sys2Proof.Laws.RowWord.writePlaneOld (ds : List Byte) :
    Sys2Proof.Laws.RowWord.Statement (.writePlaneOld ds) := Sys2Proof.Laws.RowWord.onWire_wireForm _ _

theorem Sys2Proof.Laws.RowWord.displayRefresh :
    Sys2Proof.Laws.RowWord.Statement .displayRefresh := Sys2Proof.Laws.RowWord.onWire_wireForm _ _

theorem Sys2Proof.Laws.RowWord.writePlaneNew (ds : List Byte) :
    Sys2Proof.Laws.RowWord.Statement (.writePlaneNew ds) := Sys2Proof.Laws.RowWord.onWire_wireForm _ _

theorem Sys2Proof.Laws.RowWord.partialRefreshControl (ds : List Byte) :
    Sys2Proof.Laws.RowWord.Statement (.partialRefreshControl ds) := Sys2Proof.Laws.RowWord.onWire_wireForm _ _

theorem Sys2Proof.Laws.RowWord.lutVcom (ds : List Byte) :
    Sys2Proof.Laws.RowWord.Statement (.lutVcom ds) := Sys2Proof.Laws.RowWord.onWire_wireForm _ _

theorem Sys2Proof.Laws.RowWord.lutW2w (ds : List Byte) :
    Sys2Proof.Laws.RowWord.Statement (.lutW2w ds) := Sys2Proof.Laws.RowWord.onWire_wireForm _ _

theorem Sys2Proof.Laws.RowWord.lutB2w (ds : List Byte) :
    Sys2Proof.Laws.RowWord.Statement (.lutB2w ds) := Sys2Proof.Laws.RowWord.onWire_wireForm _ _

theorem Sys2Proof.Laws.RowWord.lutB2b (ds : List Byte) :
    Sys2Proof.Laws.RowWord.Statement (.lutB2b ds) := Sys2Proof.Laws.RowWord.onWire_wireForm _ _

theorem Sys2Proof.Laws.RowWord.lutW2b (ds : List Byte) :
    Sys2Proof.Laws.RowWord.Statement (.lutW2b ds) := Sys2Proof.Laws.RowWord.onWire_wireForm _ _

theorem Sys2Proof.Laws.RowWord.pllControl (d : Byte) :
    Sys2Proof.Laws.RowWord.Statement (.pllControl d) := Sys2Proof.Laws.RowWord.onWire_wireForm _ _

theorem Sys2Proof.Laws.RowWord.vcomAndInterval (d : Byte) :
    Sys2Proof.Laws.RowWord.Statement (.vcomAndInterval d) := Sys2Proof.Laws.RowWord.onWire_wireForm _ _

theorem Sys2Proof.Laws.RowWord.resolutionSetting (width : BitVec 16) (height : BitVec 16) :
    Sys2Proof.Laws.RowWord.Statement (.resolutionSetting width height) := Sys2Proof.Laws.RowWord.onWire_wireForm _ _

theorem Sys2Proof.Laws.RowWord.vcomDc (d : Byte) :
    Sys2Proof.Laws.RowWord.Statement (.vcomDc d) := Sys2Proof.Laws.RowWord.onWire_wireForm _ _

theorem Sys2Proof.Laws.RowWord.powerOptimization (ds : List Byte) :
    Sys2Proof.Laws.RowWord.Statement (.powerOptimization ds) := Sys2Proof.Laws.RowWord.onWire_wireForm _ _
end

