-- ==== Sys2Proof/Laws/Sequences.lean ====
section
/-! SUPPORT. What the longer micro-operation lists do: the reset pulse, the bytes of BUF, the data frames of BUF, the pins after a
list of frames; and whole runs of an operation, with and without a wait. -/

namespace Sys2Proof.Laws

open Sys2Proof Sys2Proof.Machine

/-- The first five micro-operations of RESETPULSE always go through, and then its last (41_panel_primitives.md R141). -/
theorem pulse_on (last : Micro) (s : State) :
    perform (resetPulse last) s = micro last { s with
      pins := { s.pins with reset := .driven .high }, trace := s.trace ++ pulseEvents.take 5, pc := advanceBy 5 s.pc } := by
  have h : ∀ f : Flow, andThen f [] = f := fun f => by cases f <;> rfl
  simp [resetPulse, perform_cons, State.drive, State.delay, State.emit, Pins.set, pulseEvents, resetHighFirst, resetLow,
    advance_eq, h]

/-- Written entries of BUF whose bytes all go out are sent in order (40_transport.md R131). -/
theorem perform_spiBufs {bytes : List Byte} {s : State} {j : Nat}
    (hr : ∀ k < bytes.length, Memory.read s.buf (j + k) = bytes[k]?) (hs : ∀ k < bytes.length, s.spiAt k = true) :
    perform ((List.range' j bytes.length).map .spiBuf) s = .on { s with
      trace := s.trace ++ bytes.map .spiWrite, spiOk := s.spiOk.skip bytes.length,
      pc := advanceBy bytes.length s.pc } := by
  induction bytes generalizing s j with
  | nil => simp
  | cons b bs ih =>
    simp only [List.length_cons, List.range'_succ, List.map_cons, perform_cons]
    rw [spiBuf_some (b := b) (by simpa using hr 0 (by simp)), shiftOut_ok (hs 0 (by simp)), andThen_on, ih]
    · simp [afterByte, advance_eq, Nat.add_comm]
    · intro k hk
      simpa [afterByte, show j + 1 + k = j + (k + 1) by omega] using hr (k + 1) (by simpa using hk)
    · intro k hk
      simpa [afterByte, State.spiAt, Nat.add_comm] using hs (k + 1) (by simpa using hk)

/-- The data frames of written entries of BUF are the data frames of their bytes (42_panel_sequences.md R165). -/
theorem perform_bufFrames {bytes : List Byte} {s : State} {j : Nat}
    (hr : ∀ k < bytes.length, Memory.read s.buf (j + k) = bytes[k]?) :
    perform ((List.range' j bytes.length).flatMap bufFrameItems) s =
      perform (framesItems (bytes.map (Frame.mk .high))) s := by
  induction bytes generalizing s j with
  | nil => rfl
  | cons b bs ih =>
    simp only [List.length_cons, List.range'_succ, List.flatMap_cons, List.map_cons, perform_append, framesItems_cons]
    have h1 : perform (bufFrameItems j) s = perform (frameItems ⟨.high, b⟩) s := by
      simp only [bufFrameItems, frameItems, perform_cons, micro_setPin, andThen_on, micro_spiWrite]
      rw [spiBuf_some (b := b) (by simpa using hr 0 (by simp))]
    rw [h1]
    cases hf : s.spiAt 0
    · rw [perform_frame_fail hf]; rfl
    · rw [perform_frame hf, andThen_on, andThen_on, ih]
      intro k hk
      simpa [afterFrames, show j + 1 + k = j + (k + 1) by omega] using hr (k + 1) (by simpa using hk)

/-- The state after frames the last of which has DC level `d`. -/
theorem afterFrames_last {fs : List Frame} {d : Level} (h : fs.getLast?.map Frame.dc = some d) (s : State) :
    afterFrames fs s = { s with
      pins := { s.pins with dc := .driven d, cs := .driven .high }, trace := s.trace ++ framesEvents fs,
      spiOk := s.spiOk.skip fs.length, pc := advanceBy (4 * fs.length) s.pc } := by
  unfold afterFrames pinsAfter
  split <;> simp_all

/-- The last frame of a sequence is the last frame of its last entry. -/
theorem getLast_seqFrames (es : List Entry) (e : Entry) : (seqFrames (es ++ [e])).getLast? = e.frames.getLast? := by
  simp [seqFrames, Entry.frames, List.getLast?_append, List.getLast?_cons]

/-- The last frame of an entry is a data frame exactly when the entry has data. -/
theorem getLast_frames (e : Entry) :
    e.frames.getLast?.map Frame.dc = some (if e.data = [] then .low else .high) := by
  unfold Entry.frames
  cases e.data with
  | nil => rfl
  | cons a l => simp [List.getLast?_cons, List.getLast?_map]

/-! ## What the sequences do before and after their wait, when every byte goes out -/

theorem initFrames_last (c : Setup) : (initFrames c).getLast?.map Frame.dc = some .low := by
  rw [initFrames, getLast_seqFrames, getLast_frames]
  rfl

/-- INIT and INIT4GRAY up to the wait (42_panel_sequences.md R162, R163). -/
theorem initBefore_on {c : Setup} {s : State} (h : ∀ n < (initFrames c).length, s.spiAt n = true) :
    perform (initBefore c) s = .on { s with
      pins := { s.pins with reset := .driven .high, dc := .driven .low, cs := .driven .high },
      pdState := .configuring,
      trace := s.trace ++ pulseEvents ++ framesEvents (initFrames c),
      spiOk := s.spiOk.skip (initFrames c).length,
      pc := advanceBy (6 + 4 * (initFrames c).length) s.pc } := by
  rw [initBefore, perform_append, pulse_on, micro_sleepInto, andThen_on, perform_frames,
    afterFrames_last (initFrames_last c)]
  · simp [State.delay, State.emit, pulseEvents, resetHighLast, advance_eq]
  · exact h

theorem stdFrames_last (c : Setup) : (stdFrames c).getLast?.map Frame.dc = some .high := by
  have h : cfgStd ++ lutSeq c = (cfgStd ++ (lutSeq c).take 4) ++ [⟨0x24, c.lutW2b.toList⟩] := by simp [lutSeq]
  rw [stdFrames, h, getLast_seqFrames, getLast_frames, if_neg]
  intro he
  have hl := congrArg List.length he
  rw [Vector.length_toList] at hl
  simp [lutLen] at hl

theorem gray4Frames_last : gray4Frames.getLast?.map Frame.dc = some .high := by decide

theorem clearFrames_length (f : Byte) : (clearFrames f).length = 11619 := by
  simp [-List.reduceReplicate, clearFrames, seqFrames, Entry.frames, frameLen]

theorem clearFrames_last (f : Byte) : (clearFrames f).getLast?.map Frame.dc = some .low := by
  have he : clearFrames f = seqFrames ([⟨0x10, List.replicate frameLen f⟩, ⟨0x13, List.replicate frameLen f⟩] ++
      [⟨0x12, []⟩]) := rfl
  rw [he, getLast_seqFrames, getLast_frames]
  rfl

/-- CLEAR up to the wait (42_panel_sequences.md R164). -/
theorem clearBefore_on {f : Byte} {s : State} (h : ∀ n < 11619, s.spiAt n = true) :
    perform (framesItems (clearFrames f)) s = .on { s with
      pins := { s.pins with dc := .driven .low, cs := .driven .high },
      trace := s.trace ++ framesEvents (clearFrames f), spiOk := s.spiOk.skip 11619,
      pc := advanceBy 46476 s.pc } := by
  rw [perform_frames (by rw [clearFrames_length]; exact h), afterFrames_last (clearFrames_last f), clearFrames_length]

theorem oldPlaneFrames_length : oldPlaneFrames.length = 5809 := by
  simp [-List.reduceReplicate, oldPlaneFrames, seqFrames, Entry.frames, frameLen]

/-- DISPLAYFRAME up to the wait (42_panel_sequences.md R165). -/
theorem displayBefore_on {bytes : List Byte} {s : State} (hl : bytes.length = 5808)
    (hr : ∀ k < 5808, Memory.read s.buf k = bytes[k]?) (h : ∀ n < 11619, s.spiAt n = true) :
    perform displayBefore s = .on { s with
      pins := { s.pins with dc := .driven .low, cs := .driven .high },
      trace := s.trace ++ framesEvents oldPlaneFrames ++ [.sleep settleTime] ++
        framesEvents (seqFrames [⟨0x13, bytes⟩, ⟨0x12, []⟩]),
      spiOk := s.spiOk.skip 11619, pc := advanceBy 46477 s.pc } := by
  have he : displayBefore = framesItems oldPlaneFrames ++ .sleep settleTime ::
      (frameItems ⟨.low, 0x13⟩ ++ (newPlaneItems ++ frameItems ⟨.low, 0x12⟩)) := by simp [displayBefore]
  have h1 : oldPlaneFrames.getLast?.map Frame.dc = some .high := by
    have h2 : oldPlaneFrames = seqFrames ([] ++ [⟨0x10, List.replicate frameLen 0xFF⟩]) := rfl
    rw [h2, getLast_seqFrames, getLast_frames, if_neg]
    simp [-List.reduceReplicate, frameLen]
  rw [he, perform_append, perform_frames, andThen_on, afterFrames_last h1,
    perform_cons, micro_sleep, andThen_on, perform_append, perform_frame, andThen_on, perform_append, newPlaneItems,
    List.range_eq_range', show frameLen = bytes.length from hl.symm, perform_bufFrames, perform_frames, andThen_on,
    perform_frame]
  · obtain ⟨b, bs, rfl⟩ : ∃ b bs, bytes = b :: bs := by
      cases bytes with
      | nil => simp at hl
      | cons b bs => exact ⟨b, bs, rfl⟩
    have hl' : bs.length = 5807 := by simpa using hl
    simp [-List.reduceReplicate, afterFrames, pinsAfter, State.delay, State.emit, oldPlaneFrames_length, hl',
      framesEvents, seqFrames, Entry.frames, advance_eq, List.getLast?_cons]
  · simpa [afterFrames, State.spiAt, State.delay, State.emit, oldPlaneFrames_length, hl] using h 11618 (by omega)
  · intro n hn
    simpa [afterFrames, State.spiAt, State.delay, State.emit, oldPlaneFrames_length, hl] using
      h (5810 + n) (by simp [hl] at hn; omega)
  · simpa [hl, afterFrames] using hr
  · simpa [afterFrames, State.spiAt, State.delay, State.emit, oldPlaneFrames_length, hl] using h 5809 (by omega)
  · intro n hn
    exact h n (by rw [oldPlaneFrames_length] at hn; omega)

/-! ## The lists hold no read of BUSY, and how long they are -/

theorem quiet_framesItems (fs : List Frame) : ∀ m ∈ framesItems fs, quiet m = true := by
  intro m hm
  obtain ⟨f, -, hm⟩ := List.mem_flatMap.1 hm
  simp only [frameItems, List.mem_cons, List.not_mem_nil, or_false] at hm
  rcases hm with rfl | rfl | rfl | rfl <;> rfl

@[simp] theorem framesItems_length (fs : List Frame) : (framesItems fs).length = 4 * fs.length := by
  induction fs with
  | nil => rfl
  | cons f fs ih => rw [framesItems_cons, List.length_append, ih, List.length_cons]; simp [frameItems]; omega

theorem quiet_initBefore (c : Setup) : ∀ m ∈ initBefore c, quiet m = true := by
  intro m hm
  rcases List.mem_append.1 hm with hm | hm
  · simp only [resetPulse, List.mem_cons, List.not_mem_nil, or_false] at hm
    rcases hm with rfl | rfl | rfl | rfl | rfl | rfl <;> rfl
  · exact quiet_framesItems _ m hm

theorem initBefore_length (c : Setup) : (initBefore c).length = 6 + 4 * (initFrames c).length := by
  simp [initBefore, resetPulse]
  omega

theorem quiet_displayBefore : ∀ m ∈ displayBefore, quiet m = true := by
  intro m hm
  simp only [displayBefore, List.mem_append, List.mem_cons] at hm
  rcases hm with hm | rfl | (hm | hm) | hm
  · exact quiet_framesItems _ m hm
  · rfl
  · exact quiet_framesItems [⟨.low, 0x13⟩] m (by simpa [framesItems] using hm)
  · obtain ⟨k, -, hm⟩ := List.mem_flatMap.1 hm
    simp only [bufFrameItems, List.mem_cons, List.not_mem_nil, or_false] at hm
    rcases hm with rfl | rfl | rfl | rfl <;> rfl
  · exact quiet_framesItems [⟨.low, 0x12⟩] m (by simpa [framesItems] using hm)

theorem displayBefore_length : displayBefore.length = 46477 := by
  have h : newPlaneItems.length = 4 * frameLen := by
    have : ∀ n, ((List.range n).flatMap bufFrameItems).length = 4 * n := by
      intro n
      induction n with
      | zero => rfl
      | succ n ih => rw [List.range_succ, List.flatMap_append, List.length_append, ih]; simp [bufFrameItems]; omega
    exact this frameLen
  simp only [displayBefore, List.length_append, List.length_cons, framesItems_length, oldPlaneFrames_length, h, frameItems,
    List.length_nil, frameLen]

theorem stdFrames_length (c : Setup) : (stdFrames c).length = 225 := by
  have h1 : c.lutVcom.toList.length = 44 := Vector.length_toList
  have h2 : c.lutW2w.toList.length = 42 := Vector.length_toList
  have h3 : c.lutB2w.toList.length = 42 := Vector.length_toList
  have h4 : c.lutB2b.toList.length = 42 := Vector.length_toList
  have h5 : c.lutW2b.toList.length = 42 := Vector.length_toList
  simp [stdFrames, seqFrames, Entry.frames, cfgStd, lutSeq, h1, h2, h3, h4, h5]

theorem gray4Frames_length : gray4Frames.length = 13 := by decide

theorem initFrames_length (c : Setup) : (initFrames c).length = (seqFrames c.powerPrefix).length + 1 := by
  simp [initFrames, seqFrames, Entry.frames]

/-! ## Frames that stop -/

/-- Frames whose byte `j` is the first to fail: the frames before it are sent, CS stays low, nothing after it is attempted
(60_exceptions.md R250, R251). -/
def afterFramesFault (fs : List Frame) (j : Nat) (f : Frame) (s : State) : State :=
  { s with pins := { s.pins with dc := .driven f.dc, cs := .driven .low },
           trace := s.trace ++ framesEvents (fs.take j) ++ [.pinWrite .dc f.dc, .pinWrite .cs .low, .spiFault f.byte],
           spiOk := s.spiOk.skip (j + 1), pc := .idle, err := .transferFailure, faultMark := true }

theorem perform_frames_fault {fs : List Frame} {s : State} {j : Nat} {f : Frame} (hj : fs[j]? = some f)
    (h : ∀ n < j, s.spiAt n = true) (hf : s.spiAt j = false) :
    perform (framesItems (fs.take j) ++ [.setPin .dc f.dc, .setPin .cs .low, .spiWrite f.byte]) s =
      .out (afterFramesFault fs j f s) := by
  have hlen : (fs.take j).length = j := by
    rw [List.length_take]
    have := (List.getElem?_eq_some_iff.1 hj).1
    omega
  rw [perform_append, perform_frames (by rw [hlen]; exact h), andThen_on]
  have h2 : State.spiAt (((afterFrames (fs.take j) s).drive .dc f.dc).drive .cs .low) 0 = false := by
    have : (afterFrames (fs.take j) s).spiAt 0 = false := by
      simp only [State.spiAt, afterFrames, hlen, answer_skip, Nat.add_zero]
      exact hf
    exact this
  simp only [perform_cons, micro_setPin, micro_spiWrite, andThen_on, shiftOut_fail h2, andThen_out]
  simp only [afterFault, afterFramesFault, State.drive, State.emit, Pins.set, afterFrames, hlen, skip_skip]
  congr 2
  · unfold pinsAfter; split <;> rfl
  · simp

/-! ## Whole runs -/

/-- An operation without a wait, from its issue to its end: its list performed, and it has ended. -/
theorem run_plain {c : Setup} {i : Instr} {p : Plan} {s : State} (h : planOf c s i = some p) (hw : p.wait = none)
    (hp : s.pc = .idle) (ha : Accepts i s) (hq : ∀ m ∈ p.before, quiet m = true) (hb : p.before ≠ []) :
    runWith c p.before.length i s =
      resume (perform p.before (s.start i p)) (fun t => .next (t.finish p)) := by
  obtain ⟨m, hm⟩ : ∃ m, p.before.length = m + 1 := ⟨_, (Nat.succ_pred_eq_of_pos (List.length_pos_iff.2 hb)).symm⟩
  rw [hm, runWith_start h hp ha, ← hm, ← untilEnd_finish (s := s.start i p) (stepOf_execWith h) hq hb (k := 0) (n := 0) rfl rfl
    (by simp [State.items, Plan.items, hw]) 0]
  rfl

/-- An operation from its issue through a first stretch of its list, and then on. -/
theorem run_stretch {c : Setup} {i : Instr} {p : Plan} {s : State} {ms rest : List Micro} (h : planOf c s i = some p)
    (hp : s.pc = .idle) (ha : Accepts i s) (hq : ∀ m ∈ ms, quiet m = true) (hd : p.items 0 s.rdval = ms ++ rest)
    (hr : rest ≠ []) (j : Nat) (hj : 1 ≤ ms.length + j) :
    runWith c (ms.length + j) i s = resume (perform ms (s.start i p)) (untilEnd (execWith c i) j) := by
  obtain ⟨m, hm⟩ : ∃ m, ms.length + j = m + 1 := ⟨_, (Nat.succ_pred_eq_of_pos hj).symm⟩
  rw [hm, runWith_start h hp ha, ← hm]
  exact untilEnd_perform (s := s.start i p) (stepOf_execWith h) hq hr (k := 0) (n := 0) rfl rfl (by simpa [State.items] using hd) j

/-- What a wait leaves that finds BUSY at 1 `N` times and then at 0 (41_panel_primitives.md R144 a). -/
def afterWait (N : Nat) (i : Instr) (k n : Nat) (s : State) : State :=
  { s with pc := .running i (k + 2 * N + 1) (n + N + 1), rdval := .low, busy := s.busy.skip (N + 1),
           trace := s.trace ++ waitEvents N }

/-- The wait of an operation, `N` reads of 1 and one of 0, and what follows it. -/
theorem untilEnd_wait {turn : State → Outcome} {i : Instr} {p : Plan} {w : Wait} {L : BitVec 16}
    (ht : StepOf turn i p L) (hw : p.wait = some w) {N : Nat} {s : State} {n : Nat}
    (hp : s.pc = .running i (p.before.length + 2 * n) n) (hL : s.bufLen = L) (hr : n = 0 ∨ s.rdval = .high)
    (hb : ∀ j < N, s.busyAt j = .high) (hlow : s.busyAt N = .low) (hl : ∀ j < N, w.limit ≠ some (n + j + 1)) (j : Nat) :
    untilEnd turn (2 * N + 1 + j) s =
      if w.after = [] then .next ((afterWait N i (p.before.length + 2 * n) n s).finish p)
      else untilEnd turn j (afterWait N i (p.before.length + 2 * n) n s) := by
  rw [Nat.add_assoc, untilEnd_polls ht hw hp hL hr hb hl]
  have hp2 : (afterPolls N i (p.before.length + 2 * n) n s).pc = .running i (p.before.length + 2 * (n + N)) (n + N) := by
    simp only [afterPolls]; congr 1; omega
  have hr2 : n + N = 0 ∨ (afterPolls N i (p.before.length + 2 * n) n s).rdval = .high := by
    rcases N with _ | N
    · simpa [afterPolls] using hr
    · exact .inr rfl
  have hlow2 : (afterPolls N i (p.before.length + 2 * n) n s).busyAt 0 = .low := by
    simpa [State.busyAt, afterPolls] using hlow
  rw [(untilEnd_poll_low ht hw hp2 hL hr2 hlow2 j).2]
  have he : afterRead (afterPolls N i (p.before.length + 2 * n) n s) =
      afterWait N i (p.before.length + 2 * n) n s := by
    simp [afterRead, hlow2]
    simp [afterPolls, afterWait, waitEvents]
  rw [he]

/-- An operation with a wait, from its issue to its end, when what it does before and after the wait goes through. -/
theorem run_waiting {c : Setup} {i : Instr} {p : Plan} {w : Wait} {s u v : State} (h : planOf c s i = some p)
    (hw : p.wait = some w) (hp : s.pc = .idle) (ha : Accepts i s) (hq : ∀ m ∈ p.before, quiet m = true)
    (hq' : ∀ m ∈ w.after, quiet m = true) (hu : perform p.before (s.start i p) = .on u)
    (hpu : u.pc = .running i p.before.length 0) (hLu : u.bufLen = s.bufLen) {N : Nat}
    (hb : ∀ j < N, u.busyAt j = .high) (hlow : u.busyAt N = .low) (hl : ∀ j < N, w.limit ≠ some (j + 1))
    (hv : perform w.after (afterWait N i p.before.length 0 u) = .on v) :
    runWith c (p.before.length + (2 * N + 1 + w.after.length)) i s = .next (v.finish p) := by
  rw [run_stretch h hp ha hq (rest := [.poll w.limit]) (by simp [Plan.items, hw, Wait.items]) (by simp) _ (by omega), hu,
    resume_on, untilEnd_wait (stepOf_execWith h) hw (n := 0) (by simpa using hpu) hLu (.inl rfl) hb hlow
      (by simpa using hl)]
  by_cases hn : w.after = []
  · rw [if_pos hn]
    rw [hn] at hv
    cases hv
    rfl
  · have hi := untilEnd_finish (stepOf_execWith h) hq' hn (s := afterWait N i p.before.length 0 u)
      (k := p.before.length + 2 * N + 1) (n := N + 1) (by simp [afterWait]) hLu
      (by simpa [State.items, afterWait] using items_after hw N) 0
    rw [if_neg hn]
    simpa [hv] using hi

end Sys2Proof.Laws
end

