-- ==== Sys2Proof/Laws/Plans.lean ====
section
/-! SUPPORT. What every micro-operation list looks like, said once for all operations: where its reads of BUSY and its changes of
PD_STATE stand, what comes with its first and its last micro-operation, and that a byte of a frame follows CS low
(spec/10_state.md R23, R26; spec/30_encoding.md R91). -/

namespace Sys2Proof.Laws

open Sys2Proof Sys2Proof.Machine

/-! ## A byte of a frame follows CS low -/

/-- Every byte of the list comes right after CS low (30_encoding.md R91). -/
def Framed (l : List Micro) : Prop :=
  ∀ k m, l[k]? = some m → m.sends = true → ∃ k', k = k' + 1 ∧ l[k']? = some (.setPin .cs .low)

theorem framed_append {a b : List Micro} (ha : Framed a) (hb : Framed b) : Framed (a ++ b) := by
  intro k m hk hm
  by_cases h : k < a.length
  · rw [List.getElem?_append_left h] at hk
    obtain ⟨k', rfl, h'⟩ := ha k m hk hm
    exact ⟨k', rfl, by rw [List.getElem?_append_left (by omega)]; exact h'⟩
  · rw [List.getElem?_append_right (by omega)] at hk
    obtain ⟨k', h1, h'⟩ := hb _ m hk hm
    exact ⟨a.length + k', by omega, by rw [List.getElem?_append_right (by omega)]; simpa using h'⟩

/-- A list without a byte. -/
theorem framed_none {a : List Micro} (h : ∀ m ∈ a, m.sends = false) : Framed a := by
  intro k m hk hm
  rw [h m (List.mem_of_getElem? hk)] at hm
  cases hm

theorem framed_frame (f : Frame) : Framed (frameItems f) := by
  intro k m hk hm
  rcases k with _ | _ | _ | _ | k <;> simp [frameItems] at hk <;> subst hk <;> simp [Micro.sends] at hm
  exact ⟨1, rfl, rfl⟩

theorem framed_bufFrame (j : Nat) : Framed (bufFrameItems j) := by
  intro k m hk hm
  rcases k with _ | _ | _ | _ | k <;> simp [bufFrameItems] at hk <;> subst hk <;> simp [Micro.sends] at hm
  exact ⟨1, rfl, rfl⟩

theorem framed_flatMap {α : Type} (l : List α) {f : α → List Micro} (h : ∀ x, Framed (f x)) : Framed (l.flatMap f) := by
  induction l with
  | nil => intro k m hk; simp at hk
  | cons a l ih => rw [List.flatMap_cons]; exact framed_append (h a) ih

theorem framed_frames (fs : List Frame) : Framed (framesItems fs) := framed_flatMap fs framed_frame

theorem framed_wait {w : Wait} (hw : Framed w.after) (n : Nat) (l : Level) : Framed (w.items n l) := by
  have polls : ∀ n, Framed (List.replicate n [Micro.poll w.limit, .sleep pollInterval]).flatten := by
    intro n
    refine framed_none fun m hm => ?_
    simp only [List.mem_flatten, List.mem_replicate] at hm
    obtain ⟨x, ⟨_, rfl⟩, hm⟩ := hm
    simp at hm
    rcases hm with rfl | rfl <;> rfl
  have one : Framed [Micro.poll w.limit] := framed_none (by simp [Micro.sends])
  rcases n with _ | n
  · exact one
  · cases l
    · exact framed_append (polls n) (framed_append one hw)
    · exact framed_append (polls _) one

/-! ## Members of the lists -/

/-- The micro-operation reads no BUSY and changes no state but by a level or a byte or a delay. -/
def sane (m : Micro) : Prop := quiet m = true ∧ (∀ ms q, m ≠ .sleepInto ms q) ∧ m ≠ .close

theorem mem_framesItems {fs : List Frame} {m : Micro} (h : m ∈ framesItems fs) :
    (∃ r l, m = .setPin r l ∧ (r = .dc ∨ r = .cs)) ∨ ∃ b, m = .spiWrite b := by
  obtain ⟨f, -, hm⟩ := List.mem_flatMap.1 h
  simp [frameItems] at hm
  rcases hm with rfl | rfl | rfl | rfl <;> simp

theorem mem_displayBefore {m : Micro} (h : m ∈ displayBefore) :
    (∃ r l, m = .setPin r l ∧ (r = .dc ∨ r = .cs)) ∨ (∃ b, m = .spiWrite b) ∨ (∃ k, m = .spiBuf k) ∨
      m = .sleep settleTime := by
  have frame : ∀ f : Frame, m ∈ frameItems f →
      (∃ r l, m = .setPin r l ∧ (r = .dc ∨ r = .cs)) ∨ ∃ b, m = .spiWrite b :=
    fun f hf => mem_framesItems (fs := [f]) (by simpa [framesItems] using hf)
  simp only [displayBefore, List.mem_append, List.mem_cons] at h
  rcases h with h | rfl | (h | h) | h
  · rcases mem_framesItems h with h | h
    · exact .inl h
    · exact .inr (.inl h)
  · simp
  · rcases frame _ h with h | h
    · exact .inl h
    · exact .inr (.inl h)
  · obtain ⟨k, -, hm⟩ := List.mem_flatMap.1 h
    simp [bufFrameItems] at hm
    rcases hm with rfl | rfl | rfl | rfl <;> simp
  · rcases frame _ h with h | h
    · exact .inl h
    · exact .inr (.inl h)

theorem sane_frames {fs : List Frame} : ∀ m ∈ framesItems fs, sane m := by
  intro m hm
  rcases mem_framesItems hm with ⟨r, l, rfl, _⟩ | ⟨b, rfl⟩ <;> simp [sane, quiet]

theorem sane_display : ∀ m ∈ displayBefore, sane m := by
  intro m hm
  rcases mem_displayBefore hm with ⟨r, l, rfl, _⟩ | ⟨b, rfl⟩ | ⟨k, rfl⟩ | rfl <;> simp [sane, quiet]

/-- A micro-operation of a list is one before the wait, a read, a sleep of the wait, or one after it. -/
theorem item_in {p : Plan} {n k : Nat} {l : Level} {m : Micro} (hm : (p.items n l)[k]? = some m) :
    p.before[k]? = some m ∨
      ∃ w, p.wait = some w ∧ p.before.length ≤ k ∧ (m = .poll w.limit ∨ m = .sleep 200 ∨ m ∈ w.after) := by
  by_cases h : k < p.before.length
  · rw [Plan.items, List.getElem?_append_left h] at hm
    exact .inl hm
  right
  rw [Plan.items, List.getElem?_append_right (by omega)] at hm
  cases hw : p.wait with
  | none => simp [hw] at hm
  | some w =>
    rw [hw] at hm
    refine ⟨w, rfl, by omega, ?_⟩
    have hm := List.mem_of_getElem? hm
    have polls : ∀ n x, x ∈ (List.replicate n [Micro.poll w.limit, .sleep pollInterval]).flatten →
        x = .poll w.limit ∨ x = .sleep 200 := by
      intro n x hx
      simp only [List.mem_flatten, List.mem_replicate] at hx
      obtain ⟨y, ⟨_, rfl⟩, hx⟩ := hx
      simpa [pollInterval] using hx
    rcases n with _ | n
    · simp [Wait.items] at hm
      exact .inl hm
    · cases l
      · simp only [Wait.items, List.mem_append, List.mem_cons] at hm
        rcases hm with hm | rfl | hm
        · rcases polls _ _ hm with h | h <;> simp [h]
        · simp
        · simp [hm]
      · simp only [Wait.items, List.mem_append, List.mem_singleton] at hm
        rcases hm with hm | rfl
        · rcases polls _ _ hm with h | h <;> simp [h]
        · simp

/-- At a position that a list comes through, a read of BUSY is the wait's, the last read answered 1 or was none, and the position
lies past the reads made. -/
theorem poll_at {p : Plan} {w : Wait} (hw : p.wait = some w) (hq : ∀ m ∈ p.before, quiet m = true)
    (hq' : ∀ m ∈ w.after, quiet m = true) {n k : Nat} {l : Level} {m : Micro} (hm : (p.items n l)[k]? = some m)
    (hn : quiet m = false) (hk : n = 0 ∨ p.before.length + 2 * n ≤ k + 1) :
    (n = 0 ∨ l = .high) ∧ k = p.before.length + 2 * n ∧ m = .poll w.limit := by
  have hi : p.items n l = p.before ++ w.items n l := by simp [Plan.items, hw]
  have len : ∀ n, (List.replicate n [Micro.poll w.limit, .sleep pollInterval]).flatten.length = 2 * n := by
    intro n; simp; omega
  rw [hi] at hm
  by_cases h : k < p.before.length
  · rw [List.getElem?_append_left h] at hm
    rw [hq m (List.mem_of_getElem? hm)] at hn
    cases hn
  rw [List.getElem?_append_right (by omega)] at hm
  rcases n with _ | n
  · simp only [Wait.items] at hm
    rcases hx : k - p.before.length with _ | x <;> rw [hx] at hm <;> simp at hm
    exact ⟨.inl rfl, by omega, hm.symm⟩
  · have hk : p.before.length + 2 * (n + 1) ≤ k + 1 := by rcases hk with hk | hk <;> omega
    cases l
    · exfalso
      simp only [Wait.items] at hm
      rw [List.getElem?_append_right (by rw [len]; omega), len] at hm
      rcases hx : k - p.before.length - 2 * n with _ | x
      · omega
      · rw [hx, List.getElem?_cons_succ] at hm
        rw [hq' m (List.mem_of_getElem? hm)] at hn
        cases hn
    · simp only [Wait.items] at hm
      by_cases h2 : k - p.before.length < 2 * (n + 1)
      · exfalso
        have : k - p.before.length = 2 * n + 1 := by omega
        rw [List.getElem?_append_left (by rw [len]; exact h2), List.replicate_succ', List.flatten_append,
          List.getElem?_append_right (by rw [len]; omega), len, this] at hm
        simp at hm
        subst hm
        cases hn
      · rw [List.getElem?_append_right (by rw [len]; omega), len] at hm
        rcases hx : k - p.before.length - 2 * (n + 1) with _ | x
        · rw [hx] at hm
          simp at hm
          exact ⟨.inr rfl, by omega, hm.symm⟩
        · rw [hx] at hm
          simp at hm

/-! ## Every list -/

/-- An operation that pulses RESET, and one that refreshes. -/
abbrev pulses (i : Instr) : Prop := i = .reset ∨ i = .init ∨ i = .init4Gray
abbrev refreshes (i : Instr) : Prop := (∃ f, i = .clear f) ∨ i = .displayFrame

/-- What the list `p` of the operation `i` holds. -/
structure Shape (c : Setup) (i : Instr) (p : Plan) : Prop where
  before : (∀ m ∈ p.before, quiet m = true) ∨ (p.before = [.readPin] ∧ p.wait = none ∧ i = .readPin .busy)
  wait : ∀ w, p.wait = some w → w.limit = c.pollLimit ∧ ∀ m ∈ w.after, sane m
  into : ∀ k ms q, p.before[k]? = some (.sleepInto ms q) → k = 5 ∧ q = .configuring ∧ (i = .init ∨ i = .init4Gray)
  five : i = .init ∨ i = .init4Gray → ∃ ms, p.before[5]? = some (.sleepInto ms .configuring)
  close : ∀ k, p.before[k]? = some .close → i = .release ∧ k = 3 ∧ p = releasePlan
  enter : pulses i ∧ p.enter = pulseMark ∨ refreshes i ∧ p.enter = ⟨some .refreshing, none⟩ ∨
    ¬pulses i ∧ ¬refreshes i ∧ p.enter = Mark.keep
  leave : i = .reset ∧ p.leave = ⟨some .idle, none⟩ ∨ i = .init ∧ p.leave = ⟨some .idle, some .standard⟩ ∨
    i = .init4Gray ∧ p.leave = ⟨some .idle, some .gray4⟩ ∨ refreshes i ∧ p.leave = ⟨some .idle, none⟩ ∨
    ¬pulses i ∧ ¬refreshes i ∧ p.leave = Mark.keep
  start : ∀ b, waitStart c i = some b → b = p.before.length ∧ p.wait ≠ none
  noStart : waitStart c i = none → p.wait = none
  sleep : ∀ ms, i = .sleep ms → p = .plain [.sleep ms.toNat]

/-- The list of an operation that neither pulses RESET nor refreshes nor waits. -/
theorem shape_plain {c : Setup} {i : Instr} {ms : List Micro} (h : ∀ m ∈ ms, sane m) (hi : ¬pulses i)
    (hr : ¬refreshes i) (hw : waitStart c i = none) (hs : ∀ n, i = .sleep n → ms = [.sleep n.toNat]) :
    Shape c i (.plain ms) where
  before := .inl fun m hm => (h m hm).1
  wait := by simp [Plan.plain]
  into k n q hk := absurd rfl ((h _ (List.mem_of_getElem? hk)).2.1 n q)
  five hh := absurd (.inr hh) hi
  close k hk := absurd rfl (h _ (List.mem_of_getElem? hk)).2.2
  enter := .inr (.inr ⟨hi, hr, rfl⟩)
  leave := .inr (.inr (.inr (.inr ⟨hi, hr, rfl⟩)))
  start := by simp [hw]
  noStart _ := rfl
  sleep n hn := by rw [hs n hn]

/-- The list of CLEAR or DISPLAYFRAME. -/
theorem shape_refresh {c : Setup} {i : Instr} {ms : List Micro} (h : ∀ m ∈ ms, sane m) (hi : refreshes i)
    (hl : waitStart c i = some ms.length) : Shape c i (refreshPlan c.pollLimit ms) := by
  have hp : ¬pulses i := by rcases hi with ⟨f, rfl⟩ | rfl <;> simp [pulses]
  refine ⟨.inl fun m hm => (h m hm).1, ?_, fun k n q hk => absurd rfl ((h _ (List.mem_of_getElem? hk)).2.1 n q),
    fun hh => absurd (.inr hh) hp, fun k hk => absurd rfl (h _ (List.mem_of_getElem? hk)).2.2, .inr (.inl ⟨hi, rfl⟩),
    .inr (.inr (.inr (.inl ⟨hi, rfl⟩))), ?_, ?_, ?_⟩
  · intro w hw
    cases hw
    simp
  · intro b hb
    rw [hl] at hb
    exact ⟨by simpa [refreshPlan] using hb.symm, by simp [refreshPlan]⟩
  · simp [hl]
  · rintro n rfl
    simp [refreshes] at hi

/-- The list of INIT or INIT4GRAY. -/
theorem shape_init {c : Setup} {i : Instr} {fs : List Frame} {mode : PdMode}
    (hi : i = .init ∧ mode = .standard ∨ i = .init4Gray ∧ mode = .gray4) :
    Shape c i ⟨pulseMark, initBefore c, some ⟨c.pollLimit, framesItems fs⟩, ⟨some .idle, some mode⟩⟩ := by
  have pulse : ∀ k m, (initBefore c)[k]? = some m → k = 5 ∧ m = .sleepInto resetHighLast .configuring ∨ sane m := by
    intro k m hk
    simp only [initBefore, resetPulse] at hk
    rcases k with _ | _ | _ | _ | _ | _ | k <;> simp at hk
    · simp [← hk, sane, quiet]
    · simp [← hk, sane, quiet]
    · simp [← hk, sane, quiet]
    · simp [← hk, sane, quiet]
    · simp [← hk, sane, quiet]
    · exact .inl ⟨rfl, hk.symm⟩
    · exact .inr (sane_frames _ (List.mem_of_getElem? hk))
  refine ⟨.inl (quiet_initBefore c), ?_, ?_, fun _ => ⟨_, rfl⟩, ?_, .inl ⟨by tauto, rfl⟩,
    ?_, ?_, ?_, ?_⟩
  · intro w hw
    cases hw
    exact ⟨rfl, sane_frames⟩
  · intro k ms q hk
    rcases pulse k _ hk with ⟨h1, h2⟩ | h
    · cases h2
      exact ⟨h1, rfl, by tauto⟩
    · exact absurd rfl (h.2.1 ms q)
  · intro k hk
    rcases pulse k _ hk with ⟨_, h2⟩ | h
    · cases h2
    · exact absurd rfl h.2.2
  · rcases hi with ⟨rfl, rfl⟩ | ⟨rfl, rfl⟩ <;> simp
  · intro b hb
    rw [initBefore_length]
    rcases hi with ⟨rfl, _⟩ | ⟨rfl, _⟩ <;> simpa [waitStart] using hb.symm
  · intro hb
    rcases hi with ⟨rfl, _⟩ | ⟨rfl, _⟩ <;> simp [waitStart] at hb
  · rintro ms rfl
    simp at hi

/-- What the list of any operation holds. -/
theorem shape {c : Setup} {s : State} {i : Instr} {p : Plan} (h : planOf c s i = some p) : Shape c i p := by
  cases i with
  | acquire => cases h
  | encode => cases h
  | setPin r v =>
    cases r <;> cases h <;> exact shape_plain (by simp [sane, quiet]) (by simp [pulses]) (by simp [refreshes]) rfl (by simp)
  | readPin r =>
    cases r <;> cases h
    refine ⟨.inr ⟨rfl, rfl, rfl⟩, by simp [Plan.plain], ?_, by simp, ?_, by simp [Plan.plain, pulses, refreshes],
      by simp [Plan.plain, pulses, refreshes], by simp [waitStart], fun _ => rfl, by simp⟩
    · intro k ms q hk
      rcases k with _ | k <;> simp [Plan.plain] at hk
    · intro k hk
      rcases k with _ | k <;> simp [Plan.plain] at hk
  | sleep ms =>
    cases h
    exact shape_plain (by simp [sane, quiet]) (by simp [pulses]) (by simp [refreshes]) rfl (by rintro _ ⟨⟩; rfl)
  | writeByte b =>
    cases h
    exact shape_plain (by simp [sane, quiet]) (by simp [pulses]) (by simp [refreshes]) rfl (by simp)
  | writeBytes =>
    cases h
    refine shape_plain ?_ (by simp [pulses]) (by simp [refreshes]) rfl (by simp)
    intro m hm
    obtain ⟨k, _, rfl⟩ := List.mem_map.1 hm
    simp [sane, quiet]
  | release =>
    cases h
    refine ⟨.inl (by simp [releasePlan, Plan.plain, quiet]), by simp [releasePlan, Plan.plain], ?_, by simp, ?_,
      by simp [releasePlan, Plan.plain, pulses, refreshes], by simp [releasePlan, Plan.plain, pulses, refreshes],
      by simp [waitStart], fun _ => rfl, by simp⟩
    · intro k ms q hk
      rcases k with _ | _ | _ | _ | k <;> simp [releasePlan, Plan.plain] at hk
    · intro k hk
      rcases k with _ | _ | _ | _ | k <;> simp [releasePlan, Plan.plain] at hk
      exact ⟨rfl, rfl, rfl⟩
  | reset =>
    cases h
    refine ⟨.inl (by simp [resetPlan, resetPulse, quiet]), by simp [resetPlan], ?_, by simp, ?_,
      by simp [resetPlan, pulses], by simp [resetPlan], by simp [waitStart], fun _ => rfl, by simp⟩
    · intro k ms q hk
      rcases k with _ | _ | _ | _ | _ | _ | k <;> simp [resetPlan, resetPulse] at hk
    · intro k hk
      rcases k with _ | _ | _ | _ | _ | _ | k <;> simp [resetPlan, resetPulse] at hk
  | sendCmd b =>
    cases h
    exact shape_plain (sane_frames (fs := [⟨.low, b⟩])) (by simp [pulses]) (by simp [refreshes]) rfl (by simp)
  | sendData b =>
    cases h
    exact shape_plain (sane_frames (fs := [⟨.high, b⟩])) (by simp [pulses]) (by simp [refreshes]) rfl (by simp)
  | readBusy =>
    cases h
    refine ⟨.inl (by simp [readBusyPlan]), ?_, by simp [readBusyPlan], by simp, by simp [readBusyPlan],
      by simp [readBusyPlan, pulses, refreshes], by simp [readBusyPlan, pulses, refreshes], ?_, by simp [waitStart], by simp⟩
    · intro w hw
      cases hw
      simp
    · intro b hb
      simpa [waitStart, readBusyPlan] using hb.symm
  | init => cases h; exact shape_init (.inl ⟨rfl, rfl⟩)
  | init4Gray => cases h; exact shape_init (.inr ⟨rfl, rfl⟩)
  | clear f =>
    cases h
    exact shape_refresh sane_frames (.inl ⟨f, rfl⟩) (by rw [framesItems_length, clearFrames_length]; rfl)
  | displayFrame => cases h; exact shape_refresh sane_display (.inr rfl) (by rw [displayBefore_length]; rfl)
  | _ => cases h; exact shape_plain sane_frames (by simp [pulses]) (by simp [refreshes]) rfl (by simp)

/-- An operation with a wait has a list, which comes to the wait after `b` micro-operations. -/
theorem plan_of_waitStart {c : Setup} {i : Instr} {b : Nat} (h : waitStart c i = some b) (s : State) :
    ∃ p w, planOf c s i = some p ∧ p.wait = some w ∧ p.before.length = b ∧ w.limit = c.pollLimit := by
  have hp : ∃ p, planOf c s i = some p := by
    cases i <;> first | exact ⟨_, rfl⟩ | cases h
  obtain ⟨p, hp⟩ := hp
  obtain ⟨h1, h2⟩ := (shape hp).start b h
  obtain ⟨w, hw⟩ := Option.ne_none_iff_exists'.1 h2
  exact ⟨p, w, hp, hw, h1.symm, ((shape hp).wait w hw).1⟩

/-- In the list of every operation but WRITEBYTE and WRITEBYTES a byte follows CS low. -/
theorem framed_plan {c : Setup} {s : State} {i : Instr} {p : Plan} (h : planOf c s i = some p)
    (h1 : ∀ b, i ≠ .writeByte b) (h2 : i ≠ .writeBytes) (n : Nat) (l : Level) : Framed (p.items n l) := by
  have after : ∀ w, p.wait = some w → Framed w.after := by
    cases i with
    | setPin r v => cases r <;> cases h <;> simp [Plan.plain]
    | readPin r => cases r <;> cases h; simp [Plan.plain]
    | init => cases h; intro w hw; cases hw; exact framed_frames _
    | init4Gray => cases h; intro w hw; cases hw; exact framed_frames _
    | clear f => cases h; intro w hw; cases hw; exact framed_none (by simp)
    | displayFrame => cases h; intro w hw; cases hw; exact framed_none (by simp)
    | readBusy => cases h; intro w hw; cases hw; exact framed_none (by simp)
    | _ => cases h <;> simp [Plan.plain, releasePlan, bufferPlan, resetPlan]
  have before : Framed p.before := by
    have pulse : ∀ m : Micro, m.sends = false → Framed (resetPulse m) := by
      intro m hm
      refine framed_none fun x hx => ?_
      simp [resetPulse] at hx
      rcases hx with rfl | rfl | rfl | rfl | rfl | rfl <;> first | rfl | exact hm
    cases i with
    | writeByte b => exact absurd rfl (h1 b)
    | writeBytes => exact absurd rfl h2
    | acquire => cases h
    | encode => cases h
    | release => cases h; exact framed_none (by simp [releasePlan, Plan.plain, Micro.sends])
    | setPin r v => cases r <;> cases h <;> exact framed_none (by simp [Plan.plain, Micro.sends])
    | readPin r => cases r <;> cases h; exact framed_none (by simp [Plan.plain, Micro.sends])
    | sleep r => cases h; exact framed_none (by simp [Plan.plain, Micro.sends])
    | reset => cases h; exact pulse _ rfl
    | sendCmd b => cases h; exact framed_frame _
    | sendData b => cases h; exact framed_frame _
    | readBusy => cases h; exact framed_none (by simp [readBusyPlan])
    | init => cases h; exact framed_append (pulse _ rfl) (framed_frames _)
    | init4Gray => cases h; exact framed_append (pulse _ rfl) (framed_frames _)
    | clear f => cases h; exact framed_frames _
    | displayFrame =>
      cases h
      refine framed_append (framed_frames _) (framed_append (a := [.sleep settleTime]) (framed_none (by simp [Micro.sends])) ?_)
      exact framed_append (framed_append (framed_frame _) (framed_flatMap _ framed_bufFrame)) (framed_frame _)
    | _ => cases h; exact framed_frames _
  refine framed_append before ?_
  cases hw : p.wait with
  | none => intro k m hk; simp at hk
  | some w => exact framed_wait (after w hw) n l

end Sys2Proof.Laws
end

