-- ==== Sys2Proof/Laws/Step.lean ====
section
/-! SUPPORT. Runs of several steps: unrolled from the front, cut in two, equal to the host's own run; and an operation in flight
run to its end is a run of the machine (spec/10_state.md R23). -/

namespace Sys2Proof.Laws

open Sys2Proof Sys2Proof.Machine

@[simp] theorem steps_zero (s : State) : steps 0 s = .next s := rfl

/-- A first step that goes on, then the rest. -/
theorem steps_succ {s t : State} (h : step s = .next t) (n : Nat) : steps (n + 1) s = steps n t := by
  rw [steps, h]

/-- A first run that goes on, then the rest. -/
theorem steps_add {a : Nat} {s t : State} (h : steps a s = .next t) (b : Nat) : steps (a + b) s = steps b t := by
  induction a generalizing s with
  | zero => cases h; rw [Nat.zero_add]
  | succ a ih =>
    rw [steps] at h
    split at h
    · rw [Nat.add_right_comm, steps_succ ‹_›]
      exact ih h
    · cases h
    · cases h

/-- The host's run of this machine is `steps`. -/
theorem run_eq_steps (n : Nat) (s : State) : Host.Core.run Sys2Proof.core n s = steps n s := by
  induction n generalizing s with
  | zero => rfl
  | succ n ih =>
    refine (Host.Core.run.eq_2 Sys2Proof.core s n).trans ?_
    have h : Sys2Proof.core.step s = step s := rfl
    rw [h, steps]
    cases step s with
    | next t => exact ih t
    | fault r => rfl
    | refused r => rfl

/-! ## An operation in flight -/

/-- While an operation is in flight, a step is its next micro-operation. -/
theorem step_running {s : State} {i : Instr} {k n : Nat} (h : s.pc = .running i k n) : step s = exec i s := by
  simp only [step, fetch, h]

/-- A step that does not end an operation leaves it in flight. -/
theorem micro_on_op {m : Micro} {s t : State} {i : Instr} {k n : Nat} (h : micro m s = .on t)
    (hp : s.pc = .running i k n) : ∃ k' n', t.pc = .running i k' n' := by
  by_cases hq : quiet m = true
  · exact ⟨_, _, by rw [(micro_on_quiet hq h).2, hp, advance_running]⟩
  · cases m with
    | readPin => cases h; exact ⟨_, _, by rw [sample_pc, hp, advance_running]⟩
    | poll l =>
      rcases poll_cases l s with ⟨h', _⟩ | ⟨_, _, h'⟩ <;> rw [micro_poll, h'] at h <;> cases h
      exact ⟨k + 1, n + 1, by simp [afterRead, hp]⟩
    | _ => exact absurd rfl hq

theorem exec_inFlight {c : Setup} {i j : Instr} {s t : State} {k n : Nat} (h : execWith c i s = .next t)
    (hp : t.pc = .running j k n) : j = i := by
  have next : ∀ {p : Plan} {u : State} {k' n' : Nat}, u.pc = .running i k' n' → performNext p u = .next t → j = i := by
    intro p u k' n' hu hx
    rcases performNext_next hx with ⟨_, rfl⟩ | ⟨m, _, ⟨v, hv, rfl⟩ | hv⟩
    · rw [finish_pc] at hp; cases hp
    · rcases settle_cases v p with ⟨_, h2⟩ | ⟨_, h2⟩ <;> rw [h2] at hp
      · rw [finish_pc] at hp; cases hp
      · obtain ⟨a, b, hv⟩ := micro_on_op hv hu
        rw [hv] at hp
        cases hp
        rfl
    · rw [micro_out_pc hv] at hp; cases hp
  rcases execWith_next h with ⟨_, e, _, rfl⟩ | ⟨_, _, _, rfl⟩ | ⟨_, _, _, rfl⟩ | ⟨_, _, o, buf, _, _, rfl⟩ |
      ⟨p, _, ⟨_, _, hx⟩ | ⟨⟨k', n', hk⟩, hx⟩⟩
  · cases hp
  · unfold State.tryAcquire at hp
    cases hg : s.grantAt 0 <;> rw [hg] at hp <;> cases hp
  · cases hp
  · cases hp
  · exact next (start_pc s i p) hx
  · exact next hk hx

/-- An operation in flight run until it has ended is a run of the machine: as many steps as were asked for where it has not ended,
and up to that step where it has (10_state.md R23). -/
theorem steps_of_runOp {m : Nat} {i : Instr} {s t : State} {k n : Nat} (hp : s.pc = .running i k n)
    (h : runOp m i s = .next t) : ∃ j, j ≤ m ∧ steps j s = .next t ∧ (t.pc ≠ .idle → j = m) := by
  induction m generalizing s k n with
  | zero => exact ⟨0, Nat.le_refl 0, h, fun _ => rfl⟩
  | succ m ih =>
    have hs : step s = exec i s := step_running hp
    cases he : exec i s with
    | fault r => rw [runOp, untilEnd, he] at h; cases h
    | refused r => rw [runOp, untilEnd, he] at h; cases h
    | next u =>
      rw [he] at hs
      cases hu : u.pc with
      | idle =>
        rw [runOp, untilEnd_end he hu] at h
        cases h
        exact ⟨1, by omega, by rw [steps_succ hs, steps_zero], fun hi => absurd hu hi⟩
      | running j a b =>
        obtain rfl : j = i := exec_inFlight (c := Config.setup) ((execWith_setup i s).trans he) hu
        rw [runOp, untilEnd_on he hu] at h
        obtain ⟨x, h1, h2, h3⟩ := ih hu h
        exact ⟨x + 1, by omega, by rw [steps_succ hs, h2], fun hi => by rw [h3 hi]⟩

end Sys2Proof.Laws
end

