-- ==== Sys2Proof/Tests/Slice0.lean ====
section
/-! SUPPORT. The model's own tests: ill-formed terms, decoding of words written out from the encoding tables, each
instruction against spec/95_test_vectors.md, and a witness for the hypotheses of each obligation. Expected values come from
the spec's tables, never from the model. -/

namespace Sys2Proof.Tests

open Sys2Proof Sys2Proof.Machine Sys2Proof.Laws

/-! ## Small states -/

/-- The outcome is a next state that passes the check. -/
def after (o : Outcome) (p : State → Bool) : Bool :=
  match o with
  | .next t => p t
  | .fault _ => false
  | .refused _ => false

/-- The outcome is the refusal named. -/
def stops (o : Outcome) (r : Refusal) : Bool :=
  match o with
  | .next _ => false
  | .fault _ => false
  | .refused r' => r' == r

/-- After an ACQUIRE that was granted, the trace left empty. -/
def acquired : State := { State.reset with trState := .acquired }

/-- As `acquired`, after INIT, ready to refresh. -/
def ready : State := { acquired with pdState := .idle, pdMode := .standard }

/-- After RELEASE. -/
def released : State := { State.reset with trState := .released }

/-- The answers of the environment: `n` writes that succeed, then the levels of BUSY. -/
def fed (n : Nat) (busy : List Level) (s : State) : State :=
  { s with spiOk := ⟨List.replicate n true, 0⟩, busy := ⟨busy, 0⟩ }

/-- The host about to make the moves listed. -/
def host (ms : List HostMove) (s : State) : State := { s with host := ms }

/-- An operation in flight. -/
def inFlight (op : Instr) (k n : Nat) (s : State) : State := { s with pc := .running op k n }

/-- The fixtures of 95_test_vectors.md. -/
def fixture (limit : Option Nat) : Setup where
  powerPrefix := [⟨0x01, [0xAA]⟩, ⟨0x06, [0xBB]⟩, ⟨0xF8, [0xCC, 0xDD]⟩]
  lutVcom := Vector.replicate _ 0xA0
  lutW2w := Vector.replicate _ 0xA1
  lutB2w := Vector.replicate _ 0xA2
  lutB2b := Vector.replicate _ 0xA3
  lutW2b := Vector.replicate _ 0xA4
  pollLimit := limit

theorem spiAt_fed {n m : Nat} (h : m < n) (busy : List Level) (s : State) : (fed n busy s).spiAt m = true :=
  answer_known _ _ _ _ (by simp [fed, h])

/-! ## Ill-formed terms, one for each check (44_wire_commands.md R229) -/

theorem test_illFormed_writePlaneOld : (Instr.writePlaneOld [0]).wellFormed = false := by decide
theorem test_illFormed_writePlaneNew : (Instr.writePlaneNew (List.replicate 5807 0)).wellFormed = false := by
  simp [-List.reduceReplicate, Instr.wellFormed, Instr.fixedCount, Instr.carries, frameLen]
theorem test_illFormed_lutVcom : (Instr.lutVcom (List.replicate 42 0)).wellFormed = false := by decide
theorem test_illFormed_lutW2w : (Instr.lutW2w (List.replicate 44 0)).wellFormed = false := by decide
theorem test_illFormed_lutB2w : (Instr.lutB2w []).wellFormed = false := by decide
theorem test_illFormed_lutB2b : (Instr.lutB2b (List.replicate 41 0)).wellFormed = false := by decide
theorem test_illFormed_lutW2b : (Instr.lutW2b (List.replicate 43 0)).wellFormed = false := by decide
theorem test_wellFormed_lutW2b : (Instr.lutW2b (List.replicate 42 0)).wellFormed = true := by decide

/-! ## Decoding: words written out bit by bit from 30_encoding.md R95 to R100 (opc, sub, imm16) -/

theorem test_decode_acquire : decodeWord 0b11000000_00000000_0000000000000000 = .ok .acquire := by decide
theorem test_decode_release : decodeWord 0b11000001_00000000_0000000000000000 = .ok .release := by decide
theorem test_decode_setPin : decodeWord 0b11000010_00000100_0000000000000001 = .ok (.setPin .power .high) := by decide
theorem test_decode_setPin_dc : decodeWord 0b11000010_00000001_0000000000000000 = .ok (.setPin .dc .low) := by decide
theorem test_decode_readPin : decodeWord 0b11000011_00000011_0000000000000000 = .ok (.readPin .busy) := by decide
theorem test_decode_sleep : decodeWord 0b11000100_00000000_0000011111010000 = .ok (.sleep 2000) := by decide
theorem test_decode_writeByte : decodeWord 0b11000101_00000000_0000000010100101 = .ok (.writeByte 0xA5) := by decide
theorem test_decode_writeBytes : decodeWord 0b11000110_00000000_0000000000000000 = .ok .writeBytes := by decide
theorem test_decode_reset : decodeWord 0b11010000_00000000_0000000000000000 = .ok .reset := by decide
theorem test_decode_sendCmd : decodeWord 0b11010001_00000000_0000000000010010 = .ok (.sendCmd 0x12) := by decide
theorem test_decode_sendData : decodeWord 0b11010010_00000000_0000000010101111 = .ok (.sendData 0xAF) := by decide
theorem test_decode_readBusy : decodeWord 0b11010011_00000000_0000000000000000 = .ok .readBusy := by decide
theorem test_decode_init : decodeWord 0b11100000_00000000_0000000000000000 = .ok .init := by decide
theorem test_decode_init4Gray : decodeWord 0b11100001_00000000_0000000000000000 = .ok .init4Gray := by decide
theorem test_decode_clear : decodeWord 0b11100010_00000000_0000000000001111 = .ok (.clear 0x0F) := by decide
theorem test_decode_displayFrame : decodeWord 0b11100011_00000000_0000000000000000 = .ok .displayFrame := by decide
theorem test_decode_encode : decodeWord 0b11110000_00000000_0000000000000000 = .ok .encode := by decide

/-- The illegal words of 95_test_vectors.md 2.1, each for its own reason (30_encoding.md R102). -/
theorem test_decode_illegal :
    [0x00000000, 0x12000000, 0xC7000000, 0xFFFFFFFF].all (fun w => decodeWord w == .error .noSuchOpc) ∧
    [0xC2000002, 0xC2080000, 0xC3030001, 0xC4010000, 0xC5000100, 0xD3000001].all
      (fun w => decodeWord w == .error .reservedBit) ∧
    [0xC2050000, 0xC2060001, 0xC3070000].all (fun w => decodeWord w == .error .reservedRole) := by decide

/-! ## Decoding: the frames of each wire command (30_encoding.md R91, R92; 44_wire_commands.md R211 to R228) -/

/-- A command byte and its data bytes as frames: DC 0, then DC 1. -/
def wire (cmd : Byte) (data : List Byte) : List Frame := ⟨.low, cmd⟩ :: data.map (fun b => ⟨.high, b⟩)

theorem test_decode_panelSetting : decodeFrames (wire 0b00000000 [0xAF]) = .ok (.panelSetting 0xAF) := by decide
theorem test_decode_powerSetting : decodeFrames (wire 0b00000001 [0xAA]) = .ok (.powerSetting [0xAA]) := by decide
theorem test_decode_powerOn : decodeFrames (wire 0b00000100 []) = .ok .powerOn := by decide
theorem test_decode_booster : decodeFrames (wire 0b00000110 [0xBB]) = .ok (.boosterSoftStart [0xBB]) := by decide
theorem test_decode_planes (f : Byte) :
    decodeFrames (wire 0b00010000 (List.replicate 5808 f)) = .ok (.writePlaneOld (List.replicate 5808 f)) ∧
    decodeFrames (wire 0b00010011 (List.replicate 5808 f)) = .ok (.writePlaneNew (List.replicate 5808 f)) := by
  have h : ∀ n, hasLength (List.replicate n f) n = true := by
    intro n
    induction n with
    | zero => rfl
    | succ n ih => exact ih
  simp [-List.reduceReplicate, wire, decodeFrames, decodeEntry, wireRows, countedData, frameLen, h]
theorem test_decode_displayRefresh : decodeFrames (wire 0b00010010 []) = .ok .displayRefresh := by decide
theorem test_decode_partial : decodeFrames (wire 0b00010110 []) = .ok (.partialRefreshControl []) := by decide
theorem test_decode_lutVcom :
    decodeFrames (wire 0b00100000 (List.replicate 44 0xA0)) = .ok (.lutVcom (List.replicate 44 0xA0)) := by decide
theorem test_decode_lutW2w :
    decodeFrames (wire 0b00100001 (List.replicate 42 0xA1)) = .ok (.lutW2w (List.replicate 42 0xA1)) := by decide
theorem test_decode_lutB2w :
    decodeFrames (wire 0b00100010 (List.replicate 42 0xA2)) = .ok (.lutB2w (List.replicate 42 0xA2)) := by decide
theorem test_decode_lutB2b :
    decodeFrames (wire 0b00100011 (List.replicate 42 0xA3)) = .ok (.lutB2b (List.replicate 42 0xA3)) := by decide
theorem test_decode_lutW2b :
    decodeFrames (wire 0b00100100 (List.replicate 42 0xA4)) = .ok (.lutW2b (List.replicate 42 0xA4)) := by decide
theorem test_decode_pll : decodeFrames (wire 0b00110000 [0x3A]) = .ok (.pllControl 0x3A) := by decide
theorem test_decode_vcomInterval : decodeFrames (wire 0b01010000 [0x57]) = .ok (.vcomAndInterval 0x57) := by decide
theorem test_decode_resolution :
    decodeFrames (wire 0b01100001 [0x00, 0xB0, 0x01, 0x08]) = .ok (.resolutionSetting 176 264) := by decide
theorem test_decode_vcomDc : decodeFrames (wire 0b10000010 [0x12]) = .ok (.vcomDc 0x12) := by decide
theorem test_decode_optimization :
    decodeFrames (wire 0b11111000 [0xCC, 0xDD]) = .ok (.powerOptimization [0xCC, 0xDD]) := by decide

theorem test_decode_badFrames :
    decodeFrames [] = .error .noFrame ∧ decodeFrames [⟨.high, 0x00⟩] = .error .dataFirst ∧
    decodeFrames [⟨.low, 0x04⟩, ⟨.low, 0x12⟩] = .error .secondCommand ∧
    decodeFrames (wire 0xAB []) = .error .unknownCommand ∧ decodeFrames (wire 0x00 []) = .error .wrongDataCount := by
  decide

/-! ## Each instruction, from the rows V1 to V116 of 95_test_vectors.md -/

/-- V1. -/
theorem test_acquire_granted :
    after (exec .acquire { State.reset with grants := ⟨[true], 0⟩ })
      (fun t => t.trState == .acquired && t.trace == [.opened] && t.err == .ok && t.status == 0x00000100) = true := by
  decide

/-- V2; V8. -/
theorem test_acquire_refused :
    after (exec .acquire { State.reset with grants := ⟨[false], 0⟩ })
      (fun t => t.trState == .unacquired && t.trace == [] && t.err == .hardwareUnavailable) = true ∧
    stops (exec .acquire released) (.contractViolation .acquireAgain) = true := by decide

/-- V6. -/
theorem test_release :
    after (runOp 4 .release { ready with pins := ⟨.driven .high, .driven .low, .driven .high, .driven .high⟩ })
      (fun t => t.trace == [.pinWrite .reset .low, .pinWrite .dc .low, .pinWrite .power .low, .closed] &&
        t.pins == Pins.closed && t.pdState == .poweredOff && t.status == 0x00000200) = true := by decide

/-- V5, V7. -/
theorem test_release_again :
    after (exec .release released) (fun t => t.trace == [] && t.trState == .released && t.err == .ok) = true ∧
    after (exec .release State.reset) (fun t => t.trace == [] && t.trState == .unacquired) = true := by decide

/-- V14: recorded though the level does not change. -/
theorem test_setPin_same :
    after (exec (.setPin .reset .low) { acquired with pins := { Pins.closed with reset := .driven .low } })
      (fun t => t.trace == [.pinWrite .reset .low] && t.pins.reset == .driven .low) = true := by decide

/-- V10, V11, V12, V111. -/
theorem test_setPin_errors :
    after (exec (.setPin .busy .high) State.reset) (fun t => t.err == .invalidPinRole && t.trace == []) = true ∧
    after (exec (.setPin .reset .high) State.reset) (fun t => t.err == .notAcquired && t.trace == []) = true ∧
    after (exec (.setPin .busy .low) acquired) (fun t => t.err == .invalidPinRole) = true := by decide

/-- V18 and the STATUS word of 2.2. -/
theorem test_readPin :
    after (exec (.readPin .busy) (fed 0 [.high] acquired))
      (fun t => t.trace == [.pinRead .high] && t.status == 0x00008100) = true := by decide

/-- V16, V17. -/
theorem test_readPin_errors :
    after (exec (.readPin .dc) State.reset) (fun t => t.err == .invalidPinRole) = true ∧
    after (exec (.readPin .busy) State.reset) (fun t => t.err == .notAcquired) = true := by decide

/-- V20. -/
theorem test_sleep : after (exec (.sleep 5) State.reset) (fun t => t.trace == [.sleep 5] && t.err == .ok) = true := by
  decide

/-- V23, V24: a byte reaches the wire view only with CS low and DC known. -/
theorem test_writeByte :
    after (exec (.writeByte 0x12) (fed 1 [] acquired))
      (fun t => t.trace == [.spiWrite 0x12] && wireView t.trace == []) = true ∧
    after (exec (.writeByte 0x12)
        { fed 1 [] acquired with trace := [.pinWrite .dc .low, .pinWrite .cs .low] })
      (fun t => wireView t.trace == [⟨.low, 0x12⟩]) = true := by decide

/-- V25, V22. -/
theorem test_writeByte_fails :
    after (exec (.writeByte 0x12) { acquired with spiOk := ⟨[false], 0⟩ })
      (fun t => t.trace == [.spiFault 0x12] && t.err == .transferFailure && t.faultMark) = true ∧
    after (exec (.writeByte 0xA5) State.reset) (fun t => t.err == .notAcquired) = true := by decide

/-- V26, V29. -/
theorem test_writeBytes :
    after (runOp 3 .writeBytes { fed 3 [] acquired with buf := [(0, 1), (1, 2), (2, 3)], bufLen := 3 })
      (fun t => t.trace == [.spiWrite 1, .spiWrite 2, .spiWrite 3] && t.err == .ok && t.pc == .idle) = true ∧
    after (runOp 3 .writeBytes { acquired with
        buf := [(0, 1), (1, 2), (2, 3)], bufLen := 3, spiOk := ⟨[true, false], 0⟩ })
      (fun t => t.trace == [.spiWrite 1, .spiFault 2] && t.err == .transferFailure) = true := by decide

/-- V27, V28, V30, V115, and an entry never written (20_memory.md R67). -/
theorem test_writeBytes_edges :
    after (exec .writeBytes acquired) (fun t => t.trace == [] && t.err == .ok && t.pc == .idle) = true ∧
    stops (exec .writeBytes { acquired with bufLen := 8193 }) (.contractViolation .bufferTooLong) = true ∧
    after (exec .writeBytes { State.reset with bufLen := 9000 }) (fun t => t.err == .notAcquired) = true ∧
    stops (runOp 2 .writeBytes { fed 1 [] acquired with buf := [(0, 7)], bufLen := 2 }) (.unwritten .buf 1) = true := by
  decide

/-- V42: the configuration is forgotten. -/
theorem test_reset :
    after (runOp 6 .reset ready)
      (fun t => t.trace == [.pinWrite .reset .high, .sleep 200, .pinWrite .reset .low, .sleep 5,
          .pinWrite .reset .high, .sleep 200] &&
        t.status == 0x00000D00 && t.pins.reset == .driven .high && t.pc == .idle) = true ∧
    after (exec .reset State.reset) (fun t => t.err == .notAcquired && t.trace == []) = true := by decide

/-- Each step is one micro-operation (10_state.md R23): after the first of RESET, PD_STATE is Resetting and five are left; and
inside a frame CS is low. -/
theorem test_states_between_micro_operations :
    after (step (host [.writeReg 0 0xD0000000] ready))
      (fun t => t.pc == .running .reset 1 0 && t.trace == [.pinWrite .reset .high] && t.status == 0x00000500) = true ∧
    after (steps 5 (host [.writeReg 0 0xD0000000] ready))
      (fun t => t.pc == .running .reset 5 0 && t.status == 0x00000500 && t.trace.length == 5) = true ∧
    after (steps 2 (host [.writeReg 0 0xD1000012] (fed 1 [] acquired)))
      (fun t => t.pc == .running (.sendCmd 0x12) 2 0 && t.pins.cs == .driven .low &&
        t.trace == [.pinWrite .dc .low, .pinWrite .cs .low]) = true := by decide

/-- V43, V45. -/
theorem test_sendCmd :
    after (runOp 4 (.sendCmd 0x04) (fed 1 [] acquired))
      (fun t => t.trace == [.pinWrite .dc .low, .pinWrite .cs .low, .spiWrite 0x04, .pinWrite .cs .high] &&
        wireView t.trace == [⟨.low, 0x04⟩] && t.pins.dc == .driven .low && t.pins.cs == .driven .high) = true ∧
    after (runOp 4 (.sendCmd 0x12) { acquired with spiOk := ⟨[false], 0⟩ })
      (fun t => t.trace == [.pinWrite .dc .low, .pinWrite .cs .low, .spiFault 0x12] &&
        t.err == .transferFailure && t.pins.cs == .driven .low) = true := by decide

/-- V44. -/
theorem test_sendData :
    after (runOp 4 (.sendData 0xAF) (fed 1 [] acquired))
      (fun t => t.trace == [.pinWrite .dc .high, .pinWrite .cs .low, .spiWrite 0xAF, .pinWrite .cs .high] &&
        wireView t.trace == [⟨.high, 0xAF⟩]) = true := by decide

/-- V47, V54. -/
theorem test_readBusy :
    after (exec .readBusy (fed 0 [.low] acquired))
      (fun t => t.trace == [.pinRead .low] && t.rdval == .low && t.pc == .idle && t.err == .ok) = true ∧
    after (exec .readBusy State.reset) (fun t => t.err == .notAcquired) = true := by decide

/-- V51, V52, V53: the bound. -/
theorem test_readBusy_bound :
    after (readBusyWith (some 1) (fed 0 [.high] acquired))
      (fun t => t.trace == [.pinRead .high] && t.err == .panelTimeout && t.rdval == .high) = true ∧
    after (runWith (fixture (some 2)) 3 .readBusy (fed 0 [.high, .high] acquired))
      (fun t => t.trace == [.pinRead .high, .sleep 200, .pinRead .high] && t.err == .panelTimeout && t.pc == .idle) =
      true ∧
    after (runWith (fixture none) 2 .readBusy (fed 0 [.high] acquired))
      (fun t => t.trace == [.pinRead .high, .sleep 200] && t.pc == .running .readBusy 2 1) = true := by decide

/-- V60, V64: the third byte of INIT fails. -/
theorem test_init_fails :
    after (runWith (fixture none) 17 .init { acquired with spiOk := ⟨[true, true, false], 0⟩ })
      (fun t => t.trace.length == 17 && t.trace.getLast? == some (.spiFault 0x06) && t.status == 0x00000902 &&
        t.pins == ⟨.driven .high, .driven .low, .driven .low, .unknown⟩) = true ∧
    after (exec .init State.reset) (fun t => t.err == .notAcquired && t.trace == []) = true := by decide +kernel

/-- The start of INIT up to a read of BUSY that answers 1, with the fixtures: pulse 6, eight frames, one read, one sleep
(2.5 and P1). -/
theorem test_init_waits :
    after (runWith (fixture none) 40 .init (fed 8 [.high] acquired))
      (fun t => t.trace.length == 6 + 8 * 4 + 2 && t.pc == .running .init 40 1 && t.pdState == .configuring &&
        wireView t.trace == [⟨.low, 0x01⟩, ⟨.high, 0xAA⟩, ⟨.low, 0x06⟩, ⟨.high, 0xBB⟩, ⟨.low, 0xF8⟩, ⟨.high, 0xCC⟩,
          ⟨.high, 0xDD⟩, ⟨.low, 0x04⟩]) = true := by decide +kernel

/-- V63 and the STATUS word of 2.2. -/
theorem test_init4Gray :
    after (runWith (fixture none) 91 .init4Gray (fed 21 [.low] acquired))
      (fun t => t.trace.length == 91 && t.pc == .idle && t.status == 0x00004D00 &&
        (wireView t.trace).drop 8 == [⟨.low, 0x00⟩, ⟨.high, 0xBF⟩, ⟨.low, 0x30⟩, ⟨.high, 0x90⟩, ⟨.low, 0x61⟩,
          ⟨.high, 0x00⟩, ⟨.high, 0xB0⟩, ⟨.high, 0x01⟩, ⟨.high, 0x08⟩, ⟨.low, 0x82⟩, ⟨.high, 0x12⟩, ⟨.low, 0x50⟩,
          ⟨.high, 0x57⟩]) = true := by decide +kernel

/-- V66, V67, V68. -/
theorem test_clear_errors :
    after (exec (.clear 0) State.reset) (fun t => t.err == .notAcquired) = true ∧
    stops (exec (.clear 0) acquired) (.contractViolation .notReady) = true ∧
    stops (exec (.clear 0) { acquired with pdState := .idle }) (.contractViolation .notReady) = true := by decide

/-- CLEAR in its wait, `n` reads of 1 made, its next micro-operation a read. -/
def clearing (n : Nat) (busy : Level) : State :=
  inFlight (.clear 0xFF) (46476 + 2 * n) n (fed 0 [busy] { ready with pdState := .refreshing, rdval := .high })

/-- DISPLAYFRAME in its wait, `n` reads of 1 made, its next micro-operation a read. -/
def displaying (n : Nat) (busy : Level) : State :=
  inFlight .displayFrame (46477 + 2 * n) n (fed 0 [busy] { ready with pdState := .refreshing, rdval := .high })

/-- V71: the third read of 1 under a bound of three; the STATUS word of 2.2. -/
theorem test_clear_timeout :
    after (execWith (fixture (some 3)) (.clear 0xFF) (clearing 2 .high))
      (fun t => t.trace == [.pinRead .high] && t.status == 0x0000B105 && t.faultMark && t.pc == .idle) = true := by
  have h : planOf (fixture (some 3)) (clearing 2 .high) (.clear 0xFF) = some (clearPlan (some 3) 0xFF) := rfl
  have hl : (clearPlan (some 3) 0xFF).before.length = 46476 := ((shape h).start _ rfl).1.symm
  rw [turn_poll_timeout (stepOf_execWith h) rfl (n := 2) (by rw [hl]; rfl) rfl (.inr rfl) rfl rfl]
  decide

/-- V72, V73, V74, V75, V76, V112, V113, V114. -/
theorem test_displayFrame_errors :
    after (exec .displayFrame State.reset) (fun t => t.err == .invalidFrameSize) = true ∧
    after (exec .displayFrame { ready with bufLen := 5807 }) (fun t => t.err == .invalidFrameSize && t.trace == []) = true ∧
    after (exec .displayFrame { ready with bufLen := 5809 }) (fun t => t.err == .invalidFrameSize && t.trace == []) = true ∧
    after (exec .displayFrame { State.reset with bufLen := 5808 }) (fun t => t.err == .notAcquired) = true ∧
    stops (exec .displayFrame { acquired with bufLen := 5808 }) (.contractViolation .notReady) = true := by decide

/-- A refresh whose read of BUSY answers 0 has ended. -/
theorem refresh_ends {op : Instr} {b n : Nat} {s : State} (hb : waitStart Config.setup op = some b) (hi : refreshes op)
    (hp : s.pc = .running op (b + 2 * n) n) (hr : n = 0 ∨ s.rdval = .high) (hl : s.busyAt 0 = .low) :
    exec op s = .next { s with
      pc := .idle, err := .ok, rdval := .low, pdState := .idle, trace := s.trace ++ [.pinRead .low],
      busy := s.busy.skip 1 } := by
  obtain ⟨p, w, h, hw, rfl, _⟩ := plan_of_waitStart hb s
  have ha : w.after = [] ∧ p.leave = ⟨some .idle, none⟩ := by
    rcases hi with ⟨f, rfl⟩ | rfl <;> cases h <;> cases hw <;> exact ⟨rfl, rfl⟩
  rw [← execWith_setup, (untilEnd_poll_low (stepOf_execWith h) hw hp rfl hr hl 0).1, if_pos ha.1]
  simp [State.finish, State.mark, State.complete, afterRead, ha.2, hl]

/-- DISPLAYFRAME leaves its wait with BUSY at 0: Idle again (V77). -/
theorem test_displayFrame_ends :
    after (exec .displayFrame (displaying 1 .low))
      (fun t => t.trace == [.pinRead .low] && t.status == 0x00002D00 && t.pc == .idle) = true := by
  rw [refresh_ends (b := 46477) (n := 1) rfl (.inr rfl) rfl (.inr rfl) rfl]
  decide

/-- The rows of 2.6: where a pixel lands. -/
theorem test_encode_targets :
    [(0, 0, 0, 0x80#8), (7, 0, 0, 0x01#8), (8, 0, 1, 0x80#8), (175, 0, 21, 0x01#8), (0, 1, 22, 0x80#8),
      (100, 50, 1112, 0x08#8), (0, 263, 5786, 0x80#8), (175, 263, 5807, 0x01#8)].all
      (fun r => targetIndex .portrait r.1 r.2.1 == r.2.2.1 && targetMask .portrait r.1 r.2.1 == r.2.2.2) = true ∧
    [(0, 0, 5786, 0x80#8), (263, 0, 0, 0x80#8), (0, 175, 5807, 0x01#8), (263, 175, 21, 0x01#8), (1, 0, 5764, 0x80#8),
      (0, 1, 5786, 0x40#8), (0, 8, 5787, 0x80#8), (263, 7, 0, 0x01#8), (263, 8, 1, 0x80#8),
      (100, 50, 3592, 0x20#8)].all
      (fun r => targetIndex .landscape r.1 r.2.1 == r.2.2.1 && targetMask .landscape r.1 r.2.1 == r.2.2.2) = true := by
  decide

/-- V104 and V95: two black pixels in one byte; 0x000001 is white. V102: other sizes are rejected, BUF_LEN kept. -/
theorem test_encode_bits :
    encodePixels .portrait [(0, 0), (7, 0), (9, 1)] [(0, 0), (7, 0), (9, 0)] [(0, 0xFF), (1, 0xFF)] =
      .ok [(0, 0x7E), (1, 0xFF)] ∧
    [(176, 176), (264, 264), (0, 0), (175, 264), (264, 177), (177, 264)].all (fun r =>
      after (exec .encode { State.reset with imgW := r.1, imgH := r.2, bufLen := 7 })
        (fun t => t.err == .unsupportedImageSize && t.bufLen == 7 && t.trace == [])) = true := by decide

/-- The wire commands, each sent as its frames (the wire view of P1 and P3, split at the commands). -/
theorem test_wire_commands :
    [(Instr.panelSetting 0xAF, wire 0x00 [0xAF]), (.powerSetting [0xAA], wire 0x01 [0xAA]), (.powerOn, wire 0x04 []),
      (.boosterSoftStart [0xBB], wire 0x06 [0xBB]), (.displayRefresh, wire 0x12 []),
      (.partialRefreshControl [1], wire 0x16 [1]), (.pllControl 0x3A, wire 0x30 [0x3A]),
      (.vcomAndInterval 0x57, wire 0x50 [0x57]), (.resolutionSetting 176 264, wire 0x61 [0x00, 0xB0, 0x01, 0x08]),
      (.vcomDc 0x12, wire 0x82 [0x12]), (.powerOptimization [0xCC, 0xDD], wire 0xF8 [0xCC, 0xDD])].all
      (fun r => after (runOp (4 * r.2.length) r.1 (fed 5 [] acquired))
        (fun t => wireView t.trace == r.2 && t.err == .ok && t.pc == .idle)) = true := by
  decide +kernel

/-- The tables: VCOM whole, the others by their first bytes (P3). -/
theorem test_wire_tables :
    [(Instr.lutVcom (List.replicate 44 0xA0), wire 0x20 (List.replicate 44 0xA0)), (.lutW2w [0xA1], wire 0x21 [0xA1]),
      (.lutB2w [0xA2], wire 0x22 [0xA2]), (.lutB2b [0xA3], wire 0x23 [0xA3]), (.lutW2b [0xA4], wire 0x24 [0xA4])].all
      (fun r => after (runOp (4 * r.2.length) r.1 (fed 45 [] acquired))
        (fun t => wireView t.trace == r.2 && t.err == .ok && t.pc == .idle)) = true := by
  decide +kernel

/-- The planes, by their first bytes (P1), and a panel command with the Transport not acquired. -/
theorem test_wire_planes :
    after (runOp 12 (.writePlaneOld [0xFF, 0x00]) (fed 3 [] acquired))
      (fun t => wireView t.trace == wire 0x10 [0xFF, 0x00] && t.pc == .idle) = true ∧
    after (runOp 8 (.writePlaneNew [0x7F]) (fed 2 [] acquired))
      (fun t => wireView t.trace == wire 0x13 [0x7F] && t.pc == .idle) = true ∧
    after (exec .powerOn State.reset) (fun t => t.err == .notAcquired && t.trace == []) = true := by decide

/-- A wire command whose second byte fails: its first frame is sent, CS stays low, the third byte is not attempted
(60_exceptions.md R250, R251; V45). -/
theorem test_wire_fails :
    after (runOp 12 (.powerOptimization [0xCC, 0xDD]) { acquired with spiOk := ⟨[true, false], 0⟩ })
      (fun t => wireView t.trace == [⟨.low, 0xF8⟩] && t.trace.getLast? == some (.spiFault 0xCC) && t.trace.length == 7 &&
        t.err == .transferFailure && t.pins.cs == .driven .low && t.pins.dc == .driven .high && t.pc == .idle) = true := by
  decide

/-! ## The end of a run (70_reset_and_hazards.md R300) -/

/-- DISPLAYFRAME with a buffer of length 0, and then a delay. -/
def mixed : State := host [.writeReg 0 0xE3000000, .writeReg 0 0xC40000C8] State.reset

/-- An error of an earlier operation is seen though a later one ends OK, and passes only where the claim names it. -/
theorem test_goodEnd_sees_every_error :
    ends 2 mixed = [⟨some .displayFrame, .invalidFrameSize, .low⟩, ⟨some (.sleep 200), .ok, .low⟩] ∧
    ¬GoodEnd [] 2 mixed ∧ GoodEnd [.invalidFrameSize] 2 mixed ∧ ¬GoodPanelEnd [.invalidFrameSize] 2 mixed := by
  have he : ends 2 mixed = [⟨some .displayFrame, .invalidFrameSize, .low⟩, ⟨some (.sleep 200), .ok, .low⟩] := by decide
  refine ⟨he, ?_, ⟨_, rfl, ⟨rfl, rfl⟩, ?_, ?_⟩, ?_⟩
  · rintro ⟨t, -, -, h, -⟩
    rw [he] at h
    have := h ⟨some .displayFrame, .invalidFrameSize, .low⟩ (by simp)
    simp at this
  · rw [he]
    decide
  · intro b hb
    have hb : Event.spiFault b ∈ [Event.sleep 200] := hb
    simp at hb
  · rintro ⟨-, e, h, h', -⟩
    rw [he] at h
    simp [End.ofRefresh] at h
    rw [← h] at h'
    cases h'

/-- A refresh that returned with BUSY at 0. -/
theorem test_goodPanelEnd : GoodPanelEnd [] 1 (displaying 1 .low) := by
  have hs : step (displaying 1 .low) = _ :=
    (step_running (i := .displayFrame) rfl).trans
      (refresh_ends (b := 46477) (n := 1) rfl (.inr rfl) rfl (.inr rfl) rfl)
  have he : ends 1 (displaying 1 .low) = [⟨some .displayFrame, .ok, .low⟩] := by
    rw [ends, hs]
    rfl
  refine ⟨⟨_, by rw [steps_succ hs, steps_zero], ⟨rfl, rfl⟩, by rw [he]; decide, ?_⟩, _, by rw [he]; rfl, rfl, rfl⟩
  intro b hb
  simp [displaying, inFlight, fed, ready, acquired, State.reset] at hb

/-! ## The host port -/

/-- V110 and the frames of no panel command. -/
theorem test_step_illegal :
    after (step (host [.writeReg 0 0xC2050000] State.reset)) (fun t => t.err == .illegalOperation && t.host == []) = true ∧
    stops (step (host [.entry [⟨.low, 0xAB⟩]] State.reset)) (.notAnEntry .unknownCommand) = true := by decide

/-- The edges of the three spaces (20_memory.md R66, R67). -/
theorem test_step_edges :
    after (step (host [.writeBuf 8191 0xA5] State.reset)) (fun t => t.buf == [(8191, 0xA5)]) = true ∧
    stops (step (host [.writeBuf 8192 0xA5] State.reset)) (.outOfRange .buf 8192) = true ∧
    after (step (host [.writeImg 46463 1] State.reset)) (fun t => t.img == [(46463, 1)]) = true ∧
    stops (step (host [.writeImg 46464 1] State.reset)) (.outOfRange .img 46464) = true ∧
    after (step (host [.writeReg 4 0x00010108] State.reset)) (fun t => t.imgH == 264) = true ∧
    stops (step (host [.read .reg 5] State.reset)) (.outOfRange .reg 5) = true ∧
    stops (step (host [.read .buf 0] State.reset)) (.unwritten .buf 0) = true := by decide

/-- OPW reads 0 and STATUS ignores a write (10_state.md R29, R32). -/
theorem test_step_registers :
    after (step (host [.read .reg 0] { ready with hostData := 7 })) (fun t => t.hostData == 0) = true ∧
    after (step (host [.read .reg 1] ready)) (fun t => t.hostData == 0x00002D00) = true ∧
    after (step (host [.writeReg 1 0xFFFFFFFF] ready)) (fun t => t == ready) = true := by decide

/-! ## Witnesses: for each obligation with hypotheses, states and operands that meet them -/

theorem test_witness_DecodeOfEncodeIsTheInstruction : (Instr.lutVcom (List.replicate 44 0)).wellFormed = true := by decide

theorem test_witness_LegalEncodingIsItsOwnEncoding :
    decode (.word 0xC2040001) = .ok (.setPin .power .high) ∧ decode (.frames (wire 0x04 [])) = .ok .powerOn := by decide

theorem test_witness_WordSpellsTheOneRowItMatches :
    (∃ r ∈ opRows, (0xC40007D0 : Word) &&& r.mask = r.code) ∧ ∀ r ∈ opRows, (0x12000000 : Word) &&& r.mask ≠ r.code := by
  decide

theorem test_witness_IllegalWordChangesOnlyErr :
    (∃ s : State, s.pc = .idle ∧ s.host = [.writeReg 0 0x12000000] ∧
      ∀ r ∈ opRows, (0x12000000 : Word) &&& r.mask ≠ r.code) ∧
    (∃ s : State, s.pc = .idle ∧ s.host = [.writeReg 0 0xC2050000] ∧
      opcField 0xC2050000 = 0xC2 ∧ 5 ≤ ((0xC2050000 : Word).extractLsb' 16 3).toNat) ∧
    ∃ s : State, s.pc = .idle ∧ s.host = [.writeReg 0 0xC3070000] ∧
      opcField 0xC3070000 = 0xC3 ∧ 5 ≤ ((0xC3070000 : Word).extractLsb' 16 3).toNat :=
  ⟨⟨host [.writeReg 0 0x12000000] State.reset, rfl, rfl, by decide⟩,
    ⟨host [.writeReg 0 0xC2050000] State.reset, rfl, rfl, by decide, by decide⟩,
    ⟨host [.writeReg 0 0xC3070000] State.reset, rfl, rfl, by decide, by decide⟩⟩

theorem test_witness_StepRunsTheDecodedInstruction :
    (∃ s : State, s.pc = .idle ∧ s.host = [.writeReg 0 0xC40000C8] ∧ decodeWord 0xC40000C8 = .ok (.sleep 200)) ∧
    (∃ s : State, s.pc = .idle ∧ s.host = [.entry (wire 0x04 [])] ∧ decodeFrames (wire 0x04 []) = .ok .powerOn) ∧
    ∃ s : State, s.pc = .running .readBusy 2 1 :=
  ⟨⟨host [.writeReg 0 0xC40000C8] State.reset, rfl, rfl, by decide⟩,
    ⟨host [.entry (wire 0x04 [])] State.reset, rfl, rfl, by decide⟩, ⟨inFlight .readBusy 2 1 acquired, rfl⟩⟩

/-- HostSeesTheRegisterMap and HostWritesAndReadsEntries: every index, the edges among them. -/
theorem test_witness_HostPort (index : Nat) (v : Word) (b : Byte) (p : Pixel) (space : Space) :
    ∀ m ∈ [HostMove.read space index, .writeReg index v, .writeBuf index b, .writeImg index p],
      ∃ s : State, s.pc = .idle ∧ s.host = [m] :=
  fun m _ => ⟨host [m] State.reset, rfl, rfl⟩

theorem test_witness_HostReadsWritten :
    (∃ s : State, s.pc = .idle ∧ s.host = [.read .buf 8191] ∧ Memory.read s.buf 8191 = some 0xA5) ∧
    ∃ s : State, s.pc = .idle ∧ s.host = [.read .img 46463] ∧ Memory.read s.img 46463 = some 1 :=
  ⟨⟨{ host [.read .buf 8191] State.reset with buf := [(8191, 0xA5)] }, rfl, rfl, rfl⟩,
    ⟨{ host [.read .img 46463] State.reset with img := [(46463, 1)] }, rfl, rfl, rfl⟩⟩

theorem test_witness_SixteenBitRegistersReadBack (v : BitVec 16) :
    ∀ index ∈ [2, 3, 4], 2 ≤ index ∧ index ≤ 4 ∧
      ∃ s : State, s.pc = .idle ∧ s.host = [.writeReg index (v.zeroExtend 32), .read .reg index] := by
  intro index h
  refine ⟨?_, ?_, host [.writeReg index (v.zeroExtend 32), .read .reg index] State.reset, rfl, rfl⟩ <;>
    (simp at h; omega)

theorem test_witness_NothingIsAcceptedWhileAnOperationIsInFlight :
    ∃ s : State, s.pc = .running .readBusy 2 1 ∧ (Instr.init ≠ .readBusy) :=
  ⟨inFlight .readBusy 2 1 acquired, rfl, by decide⟩

theorem test_witness_AcquireOpensAllOrNothing :
    (∃ s : State, s.pc = .idle ∧ s.trState = .unacquired ∧ s.grantAt 0 = true) ∧
    (∃ s : State, s.pc = .idle ∧ s.trState = .unacquired ∧ s.grantAt 0 = false) ∧
    ∃ s : State, s.pc = .idle ∧ s.trState ≠ .unacquired :=
  ⟨⟨{ State.reset with grants := ⟨[true], 0⟩ }, rfl, rfl, rfl⟩,
    ⟨{ State.reset with grants := ⟨[false], 0⟩ }, rfl, rfl, rfl⟩, ⟨acquired, rfl, by decide⟩⟩

/-- The obligations whose hypotheses are IDLE and a lifecycle state. -/
theorem test_witness_Lifecycle : ∀ r : TrState, ∃ s : State, s.pc = .idle ∧ s.trState = r :=
  fun r => ⟨{ State.reset with trState := r }, rfl, rfl⟩

/-- ReadPinLeavesTheLevelInRdval, SetPinDrivesItsOutput: every role. -/
theorem test_witness_Roles :
    outputOf .reset = some .reset ∧ outputOf .dc = some .dc ∧ outputOf .cs = some .cs ∧ outputOf .power = some .power := by
  decide

theorem test_witness_WriteByteSendsOrFaults :
    ∀ ok : Bool, ∃ s : State, s.pc = .idle ∧ s.trState = .acquired ∧ s.spiAt 0 = ok :=
  fun ok => ⟨{ acquired with spiOk := ⟨[ok], 0⟩ }, rfl, rfl, rfl⟩

/-- The longest buffer WRITEBYTES takes. -/
theorem test_witness_WriteBytesSendsTheBuffer :
    ∃ (s : State) (bytes : List Byte), s.pc = .idle ∧ s.trState = .acquired ∧ bytes.length = s.bufLen.toNat ∧
      s.bufLen.toNat ≤ 8192 ∧ (∀ k < bytes.length, Memory.read s.buf k = bytes[k]?) ∧
      ∀ k < bytes.length, s.spiAt k = true := by
  refine ⟨fed 8192 [] { acquired with buf := Memory.fill 0x5A 8192 [], bufLen := 8192 }, List.replicate 8192 0x5A, rfl, rfl,
    List.length_replicate, by decide, ?_, ?_⟩
  · intro k hk
    rw [List.length_replicate] at hk
    simp [-List.reduceReplicate, fed, read_fill, hk]
  · intro k hk
    rw [List.length_replicate] at hk
    exact spiAt_fed hk _ _

/-- Its other clauses: an empty buffer, and one of two bytes. -/
theorem test_witness_WriteBytesShort :
    (∃ s : State, s.pc = .idle ∧ s.trState = .acquired ∧ ([] : List Byte).length = s.bufLen.toNat) ∧
    ∃ s : State, s.pc = .idle ∧ s.trState = .acquired ∧ s.bufLen.toNat = 2 ∧
      (∀ k < 2, Memory.read s.buf k = [1#8, 2][k]?) ∧ ∀ k < 2, s.spiAt k = true :=
  ⟨⟨acquired, rfl, rfl, rfl⟩, ⟨fed 2 [] { acquired with buf := [(0, 1), (1, 2)], bufLen := 2 }, rfl, rfl, rfl, by decide,
    fun _ hk => spiAt_fed hk _ _⟩⟩

theorem test_witness_WriteBytesStopsAtTheFirstFailure :
    ∃ (s : State) (bytes : List Byte) (b : Byte), s.pc = .idle ∧ s.trState = .acquired ∧ 1 < s.bufLen.toNat ∧
      s.bufLen.toNat ≤ 8192 ∧ bytes.length = 1 ∧ (∀ k < 1, Memory.read s.buf k = bytes[k]?) ∧
      Memory.read s.buf 1 = some b ∧ (∀ k < 1, s.spiAt k = true) ∧ s.spiAt 1 = false :=
  ⟨{ acquired with buf := [(0, 1), (1, 2), (2, 3)], bufLen := 3, spiOk := ⟨[true, false], 0⟩ }, [1], 2, rfl, rfl,
    by decide, by decide, rfl, by decide, rfl, by decide, rfl⟩

theorem test_witness_PinAndSpiOperationsNeedTheTransport :
    ∃ s : State, s.pc = .idle ∧ s.trState ≠ .acquired ∧ s.bufLen.toNat = 5808 :=
  ⟨{ State.reset with bufLen := 5808 }, rfl, by decide, by decide⟩

theorem test_witness_ContractViolationsAreRefused :
    (∃ s : State, s.pc = .idle ∧ s.trState = .released) ∧
    (∃ s : State, s.pc = .idle ∧ s.trState = .acquired ∧ s.pdState ≠ .idle ∧ s.bufLen.toNat = 5808) ∧
    (∃ s : State, s.pc = .idle ∧ s.trState = .acquired ∧ s.pdState = .idle ∧ s.pdMode = .none) ∧
    ∃ s : State, s.pc = .idle ∧ s.trState = .acquired ∧ s.bufLen.toNat = 8193 :=
  ⟨⟨released, rfl, rfl⟩, ⟨{ acquired with bufLen := 5808 }, rfl, rfl, by decide, by decide⟩,
    ⟨{ acquired with pdState := .idle }, rfl, rfl, rfl, rfl⟩, ⟨{ acquired with bufLen := 8193 }, rfl, rfl, by decide⟩⟩

theorem test_witness_DisplayFrameRejectsOtherLengths :
    ∀ n ∈ [5807#16, 5809#16], ∃ s : State, s.pc = .idle ∧ s.bufLen = n ∧ n.toNat ≠ 5808 := by
  intro n h
  refine ⟨{ ready with bufLen := n }, rfl, rfl, ?_⟩
  rcases List.mem_pair.1 h with rfl | rfl <;> decide

theorem test_witness_UnwrittenEntryIsRefused :
    (∃ s : State, s.pc = .idle ∧ s.trState = .acquired ∧ 8191 < s.bufLen.toNat ∧ s.bufLen.toNat ≤ 8192 ∧
      Memory.read s.buf 8191 = none ∧ ∀ k < 8191, s.spiAt k = true) ∧
    (∃ s : State, s.pc = .idle ∧ s.trState = .acquired ∧ s.bufLen.toNat = 5808 ∧ s.pdState = .idle ∧ s.pdMode ≠ .none ∧
      Memory.read s.buf 5807 = none ∧ ∀ k < 5810 + 5807, s.spiAt k = true) ∧
    ∃ s : State, s.pc = .idle ∧ orientationOf s.imgW s.imgH ≠ none ∧ Memory.read s.img 46463 = none :=
  ⟨⟨fed 8191 [] { acquired with bufLen := 8192 }, rfl, rfl, by decide, by decide, rfl, fun _ hk => spiAt_fed hk _ _⟩,
    ⟨fed 11617 [] { ready with bufLen := 5808 }, rfl, rfl, by decide, rfl, by decide, rfl, fun _ hk => spiAt_fed hk _ _⟩,
    ⟨{ State.reset with imgW := 176, imgH := 264 }, rfl, by decide, rfl⟩⟩

/-- SendCmdAndSendDataFrameOneByte has the hypotheses of WriteByteSendsOrFaults. ReadBusyEndsOrWaits: both levels. -/
theorem test_witness_ReadBusyEndsOrWaits :
    ∀ l : Level, ∃ s : State, s.pc = .idle ∧ s.trState = .acquired ∧ s.busyAt 0 = l :=
  fun l => ⟨fed 0 [l] acquired, rfl, rfl, rfl⟩

theorem test_witness_ReadBusyMakesNPlusOneReads (N : Nat) :
    ∃ s : State, s.pc = .idle ∧ s.trState = .acquired ∧ s.host = [.writeReg 0 0xD3000000] ∧
      (∀ n < N, s.busyAt n = .high) ∧ s.busyAt N = .low :=
  ⟨host [.writeReg 0 0xD3000000] (fed 0 (List.replicate N .high ++ [.low]) acquired), rfl, rfl, rfl,
    fun n hn => answer_known _ _ _ _ (by simp [host, fed, hn, List.getElem?_append]),
    answer_known _ _ _ _ (by simp [host, fed])⟩

/-- Every operation that waits, every number of reads made and of reads to come. -/
theorem test_witness_WaitGoesOnWhileBusyUnlessBounded (op : Instr) (b n N : Nat)
    (h : waitStart Config.setup op = some b) :
    ∃ s : State, waitStart Config.setup op = some b ∧ s.pc = .running op (b + 2 * n) n ∧
      (n = 0 ∨ s.rdval = .high) ∧ ∀ j < N, s.busyAt j = .high :=
  ⟨inFlight op (b + 2 * n) n (fed 0 (List.replicate N .high) { ready with rdval := .high }), h, rfl, .inr rfl,
    fun n hn => answer_known _ _ _ _ (by simp [inFlight, fed, hn])⟩

theorem test_witness_waitStart :
    waitStart Config.setup .readBusy = some 0 ∧ waitStart Config.setup (.clear 0) = some 46476 ∧
    waitStart Config.setup .displayFrame = some 46477 := ⟨rfl, rfl, rfl⟩

/-- The poll bound, if there is one, is at least one read. -/
theorem limit_pos : ∀ M, Config.setup.pollLimit = some M → 0 < M := by
  intro M h
  have h0 : Config.setup.pollLimit ≠ some 0 := by simp [Config.setup, Config.busyTimeoutPolls]
  rw [h] at h0
  have : M ≠ 0 := fun e => h0 (by rw [e])
  omega

/-- InitLoadsTheStandardConfiguration, Init4GrayLoadsTheGrayConfiguration: BUSY at 0 at the first read, any number of writes that
succeed. -/
theorem test_witness_Init (m : Nat) :
    ∃ s : State, s.pc = .idle ∧ s.trState = .acquired ∧ (∀ j < 0, s.busyAt j = .high) ∧ s.busyAt 0 = .low ∧
      (∀ M, Config.setup.pollLimit = some M → 0 < M) ∧ ∀ n < m, s.spiAt n = true :=
  ⟨fed m [.low] acquired, rfl, rfl, fun _ h => absurd h (Nat.not_lt_zero _), rfl, limit_pos, fun _ hn => spiAt_fed hn _ _⟩

/-- SequencesWaitWhileBusy, of INIT and INIT4GRAY. -/
theorem test_witness_InitWaits (m : Nat) :
    ∃ s : State, s.pc = .idle ∧ s.trState = .acquired ∧ s.busyAt 0 = .high ∧ ∀ n < m, s.spiAt n = true :=
  ⟨fed m [.high] acquired, rfl, rfl, rfl, fun _ hn => spiAt_fed hn _ _⟩

/-- Ready, with a white frame in BUF. -/
def shown : State := { ready with buf := Memory.fill 0xFF 5808 [], bufLen := 5808 }

/-- ClearFillsBothPlanes, DisplayFrameSendsTheBuffer (BUSY at 0 at the first read), SequencesWaitWhileBusy (at 1). -/
theorem test_witness_Refresh (l : Level) :
    ∃ (s : State) (bytes : List Byte), s.pc = .idle ∧ s.trState = .acquired ∧ s.pdState = .idle ∧ s.pdMode ≠ .none ∧
      s.bufLen.toNat = 5808 ∧ bytes.length = 5808 ∧ (∀ k < 5808, Memory.read s.buf k = bytes[k]?) ∧ s.busyAt 0 = l ∧
      ∀ n < 11619, s.spiAt n = true := by
  refine ⟨fed 11619 [l] shown, List.replicate 5808 0xFF, rfl, rfl,
    rfl, fun h => (nomatch h), rfl, List.length_replicate, fun k hk => ?_, rfl, fun _ hn => spiAt_fed hn _ _⟩
  simp [-List.reduceReplicate, fed, shown, read_fill, hk]

/-- WaitEndsWhenBusyReadsIdle, for each operation that waits. -/
theorem test_witness_WaitEndsWhenBusyReadsIdle (op : Instr) (b n m : Nat) (h : waitStart Config.setup op = some b) :
    ∃ s : State, waitStart Config.setup op = some b ∧ s.pc = .running op (b + 2 * n) n ∧ (n = 0 ∨ s.rdval = .high) ∧
      s.busyAt 0 = .low ∧ ∀ j < m, s.spiAt j = true :=
  ⟨inFlight op (b + 2 * n) n (fed m [.low] { ready with rdval := .high }), h, rfl, .inr rfl, rfl,
    fun _ hn => spiAt_fed hn [.low] ready⟩

/-! ### Good states with an operation in flight -/

/-- A position inside the part before the wait. -/
theorem reaches_before {p : Plan} {k : Nat} (l : Level) (h1 : 1 ≤ k) (h2 : k < p.before.length) : p.reaches k 0 l :=
  ⟨h1, by rw [Plan.items, List.length_append]; omega, .inl rfl⟩

/-- The position of the first read. -/
theorem reaches_read {p : Plan} {w : Wait} (hw : p.wait = some w) (l : Level) (h : 1 ≤ p.before.length) :
    p.reaches p.before.length 0 l :=
  ⟨h, by simp [Plan.items, hw, Wait.items], .inl rfl⟩

/-- An operation in flight in a state with nothing recorded yet, at a position of its list before any byte or with CS low. -/
theorem inv_inFlight {c : Setup} {op : Instr} {p : Plan} {k n : Nat} {s : State} (h : planOf c s op = some p)
    (ht : s.trState = .acquired) (hb : s.buf = []) (hi : s.img = []) (htr : s.trace = [])
    (hf : panelFits op k s.pdState s.pdMode) (hc : s.ConfiguredIsIdleOrRefreshing)
    (hl : ∀ m, c.pollLimit = some m → 1 ≤ m → n ≤ m ∧ (s.rdval = .high → n < m)) (hr : p.reaches k n s.rdval)
    (ho : s.pins.cs = .driven .low ∨ ∀ m, (p.items n s.rdval)[k]? = some m → m.sends = false) :
    (inFlight op k n s).InvUnder c := by
  refine ⟨fun h => absurd ht h, hc, ⟨ht, hf, hl, p, ?_, hr, ?_⟩, ?_, ?_⟩
  · rw [← h]; cases op <;> rfl
  · intro _ _ m hm hs
    rcases ho with ho | ho
    · exact ho
    · rw [ho m hm] at hs; cases hs
  · refine ⟨?_, ?_, ?_, ?_⟩ <;> simp [inFlight, hb, hi]
  · intro b h
    simp [inFlight, htr] at h

/-- CLEAR and DISPLAYFRAME at the first read of their wait, whatever the poll bound. -/
theorem inv_refresh_read (l : Level) :
    (inFlight (.clear 0) 46476 0 (fed 0 [l] { ready with pdState := .refreshing })).Inv ∧
    (inFlight .displayFrame 46477 0 (fed 0 [l] { ready with pdState := .refreshing })).Inv := by
  have hn : ∀ (p : Plan) (w : Wait) (k : Nat) (l : Level), p.wait = some w → p.before.length = k →
      ∀ m, (p.items 0 l)[k]? = some m → m.sends = false := by
    rintro p w k l hw rfl m hm
    have := items_read (n := 0) (l := l) hw (.inl rfl)
    simp only [Nat.mul_zero, Nat.add_zero] at this
    rw [this] at hm
    cases hm
    rfl
  have hp1 : planOf Config.setup (fed 0 [l] { ready with pdState := .refreshing }) (.clear 0) =
      some (clearPlan Config.setup.pollLimit 0) := rfl
  have hp2 : planOf Config.setup (fed 0 [l] { ready with pdState := .refreshing }) .displayFrame =
      some (displayPlan Config.setup.pollLimit) := rfl
  have h1 : 46476 = (clearPlan Config.setup.pollLimit 0).before.length := ((shape hp1).start _ rfl).1
  have h2 : 46477 = (displayPlan Config.setup.pollLimit).before.length := ((shape hp2).start _ rfl).1
  refine ⟨inv_inFlight hp1 rfl rfl rfl rfl ?_ (fun _ => .inr rfl) (fun m _ h => ⟨by omega, fun _ => by omega⟩) ?_
      (.inr (hn _ _ _ _ rfl h1.symm)),
    inv_inFlight hp2 rfl rfl rfl rfl ?_ (fun _ => .inr rfl) (fun m _ h => ⟨by omega, fun _ => by omega⟩) ?_
      (.inr (hn _ _ _ _ rfl h2.symm))⟩
  · simp [panelFits, fed, ready]
  · rw [h1]; exact reaches_read rfl _ (by omega)
  · simp [panelFits, fed, ready]
  · rw [h2]; exact reaches_read rfl _ (by omega)

theorem test_witness_RefreshReturnsOnlyAtAnIdleRead :
    (∃ s t : State, s.Inv ∧ exec (.clear 0) s = .next t ∧ t.pc = .idle ∧ t.err = .ok) ∧
    ∃ s t : State, s.Inv ∧ exec .displayFrame s = .next t ∧ t.pc = .idle ∧ t.err = .ok :=
  ⟨⟨_, _, (inv_refresh_read .low).1, refresh_ends (b := 46476) (n := 0) rfl (.inl ⟨0, rfl⟩) rfl (.inl rfl) rfl, rfl, rfl⟩,
    ⟨_, _, (inv_refresh_read .low).2, refresh_ends (b := 46477) (n := 0) rfl (.inr rfl) rfl (.inl rfl) rfl, rfl, rfl⟩⟩

/-- INIT and INIT4GRAY inside the first frame after a wait that has read BUSY once, its byte next and about to fail. -/
theorem inv_init_after :
    (inFlight .init 41 1 { acquired with
      pdState := .configuring, pins := { Pins.closed with cs := .driven .low }, spiOk := ⟨[false], 0⟩ }).InvUnder
      (fixture none) ∧
    (inFlight .init4Gray 41 1 { acquired with
      pdState := .configuring, pins := { Pins.closed with cs := .driven .low }, spiOk := ⟨[false], 0⟩ }).InvUnder
      (fixture none) := by
  refine ⟨inv_inFlight (p := initPlan (fixture none)) rfl rfl rfl rfl rfl ?_ (fun h => absurd rfl h)
      (fun m h => by simp [fixture] at h) ⟨by omega, ?_, .inr ?_⟩ (.inl rfl),
    inv_inFlight (p := init4GrayPlan (fixture none)) rfl rfl rfl rfl rfl ?_ (fun h => absurd rfl h)
      (fun m h => by simp [fixture] at h) ⟨by omega, ?_, .inr ?_⟩ (.inl rfl)⟩
  · simp [panelFits, acquired, State.reset]
  · decide +kernel
  · decide +kernel
  · simp [panelFits, acquired, State.reset]
  · decide +kernel
  · decide +kernel

/-- A failing byte, for each sequence: INIT and INIT4GRAY after their wait, CLEAR and DISPLAYFRAME in their first frame. -/
theorem test_witness_FailedByByte :
    (∃ s t : State, s.InvUnder (fixture none) ∧ execWith (fixture none) .init s = .next t ∧ t.err = .transferFailure ∧
      t.pc = .idle) ∧
    (∃ s t : State, s.InvUnder (fixture none) ∧ execWith (fixture none) .init4Gray s = .next t ∧
      t.err = .transferFailure ∧ t.pc = .idle) ∧
    (∃ s t : State, s.InvUnder (fixture none) ∧ execWith (fixture none) (.clear 0) s = .next t ∧
      t.err = .transferFailure ∧ t.pc = .idle) ∧
    ∃ s t : State, s.InvUnder (fixture none) ∧ execWith (fixture none) .displayFrame s = .next t ∧
      t.err = .transferFailure ∧ t.pc = .idle := by
  refine ⟨⟨_, _, inv_init_after.1, rfl, rfl, rfl⟩, ⟨_, _, inv_init_after.2, rfl, rfl, rfl⟩,
    ⟨inFlight (.clear 0) 2 0 { ready with
      pdState := .refreshing, pins := { Pins.closed with cs := .driven .low }, spiOk := ⟨[false], 0⟩ }, _,
      inv_inFlight (p := clearPlan none 0) rfl rfl rfl rfl rfl ?_ (fun _ => .inr rfl) (fun m h => by simp [fixture] at h)
        (reaches_before _ (by omega) ?_) (.inl rfl), rfl, rfl, rfl⟩,
    ⟨inFlight .displayFrame 2 0 { ready with
      pdState := .refreshing, pins := { Pins.closed with cs := .driven .low }, spiOk := ⟨[false], 0⟩ }, _,
      inv_inFlight (p := displayPlan none) rfl rfl rfl rfl rfl ?_ (fun _ => .inr rfl) (fun m h => by simp [fixture] at h)
        (reaches_before _ (by omega) ?_) (.inl rfl), rfl, rfl, rfl⟩⟩
  · simp [panelFits, ready]
  · simp only [clearPlan, refreshPlan, framesItems_length, clearFrames_length]
    omega
  · simp [panelFits, ready]
  · simp only [displayPlan, refreshPlan, displayBefore_length]
    omega

/-- A first read of 1 under a bound of one read. -/
theorem test_witness_FailedByBound :
    ∃ s t : State, s.InvUnder (fixture (some 1)) ∧ execWith (fixture (some 1)) .init s = .next t ∧
      t.err = .panelTimeout ∧ t.pc = .idle := by
  refine ⟨inFlight .init 38 0 (fed 0 [.high] { acquired with pdState := .configuring }), _,
    inv_inFlight (p := initPlan (fixture (some 1))) rfl rfl rfl rfl rfl ?_ (fun h => absurd rfl h)
      (fun m _ h => ⟨by omega, fun _ => by omega⟩) ⟨by omega, ?_, .inl rfl⟩ (.inr fun m hm => ?_), rfl, rfl, rfl⟩
  · simp [panelFits, fed, acquired, State.reset]
  · decide +kernel
  · have h : ((initPlan (fixture (some 1))).items 0 .low)[38]? = some (.poll (some 1)) := by decide +kernel
    have hm : ((initPlan (fixture (some 1))).items 0 .low)[38]? = some m := hm
    rw [h] at hm
    cases hm
    rfl

theorem test_witness_PositionCountsMicroOperations :
    (∃ s t : State, s.pc = .idle ∧ execWith (fixture none) .reset s = .next t ∧ t.pc = .running .reset 1 0) ∧
    (∃ s t : State, s.pc = .idle ∧ execWith (fixture none) .readBusy s = .next t ∧ t.pc = .running .readBusy 1 1) ∧
    (∃ s t : State, s.pc = .running .reset 4 0 ∧ execWith (fixture none) .reset s = .next t ∧
      t.pc = .running .reset 5 0) ∧
    ∃ s t : State, s.pc = .running .reset 5 0 ∧ execWith (fixture none) .reset s = .next t ∧ t.pc = .idle :=
  ⟨⟨acquired, _, rfl, rfl, rfl⟩, ⟨fed 0 [.high] acquired, _, rfl, rfl, rfl⟩,
    ⟨inFlight .reset 4 0 acquired, _, rfl, rfl, rfl⟩, ⟨inFlight .reset 5 0 acquired, _, rfl, rfl, rfl⟩⟩

/-- A waiting operation whose every byte goes out and whose first read of BUSY answers 0 has ended OK. -/
theorem waiting_ends {i : Instr} {p : Plan} {w : Wait} {s u v : State} (h : planOf Config.setup s i = some p)
    (hw : p.wait = some w) (hp : s.pc = .idle) (ha : Accepts i s) (hq : ∀ m ∈ p.before, quiet m = true)
    (hu : perform p.before (s.start i p) = .on u) (hpu : u.pc = .running i p.before.length 0)
    (hLu : u.bufLen = s.bufLen) (hlow : u.busyAt 0 = .low)
    (hv : perform w.after (afterWait 0 i p.before.length 0 u) = .on v) :
    ∃ m t, 1 ≤ m ∧ runOp m i s = .next t ∧ t.pc = .idle ∧ t.err = .ok := by
  refine ⟨p.before.length + (2 * 0 + 1 + w.after.length), v.finish p, by omega, ?_, rfl, rfl⟩
  rw [runOp_eq]
  exact run_waiting h hw hp ha hq (fun m hm => (((shape h).wait w hw).2 m hm).1) hu hpu hLu
    (fun _ hj => absurd hj (Nat.not_lt_zero _)) hlow (fun _ hj => absurd hj (Nat.not_lt_zero _)) hv

theorem test_witness_SequenceLengthsAndTimes :
    ∀ i ∈ [Instr.reset, .readBusy, .init, .init4Gray, .clear 0, .displayFrame],
      ∃ s : State, s.pc = .idle ∧ ∃ m t, 1 ≤ m ∧ runOp m i s = .next t ∧ t.pc = .idle ∧ t.err = .ok := by
  intro i hi
  simp only [List.mem_cons, List.not_mem_nil, or_false] at hi
  rcases hi with rfl | rfl | rfl | rfl | rfl | rfl
  · exact ⟨acquired, rfl, 6, _, by omega, rfl, rfl, rfl⟩
  · exact ⟨fed 0 [.low] acquired, rfl, 1, _, by omega, rfl, rfl, rfl⟩
  · refine ⟨fed ((initFrames Config.setup).length + (stdFrames Config.setup).length) [.low] acquired, rfl,
      waiting_ends (p := initPlan Config.setup) rfl rfl rfl ⟨fun _ => rfl, by simp, by simp, by simp⟩
        (quiet_initBefore _) (initBefore_on ?_) ?_ rfl rfl (perform_frames ?_)⟩
    · exact fun n hn => (start_spiAt _ _ _ _).trans (spiAt_fed (by omega) _ _)
    · simp [initPlan, initBefore_length]
    · intro n hn
      have h := spiAt_fed (n := (initFrames Config.setup).length + (stdFrames Config.setup).length)
        (m := (initFrames Config.setup).length + n) (by omega) [.low] acquired
      simpa [State.spiAt, afterWait] using h
  · refine ⟨fed ((initFrames Config.setup).length + gray4Frames.length) [.low] acquired, rfl,
      waiting_ends (p := init4GrayPlan Config.setup) rfl rfl rfl ⟨fun _ => rfl, by simp, by simp, by simp⟩
        (quiet_initBefore _) (initBefore_on ?_) ?_ rfl rfl (perform_frames ?_)⟩
    · exact fun n hn => (start_spiAt _ _ _ _).trans (spiAt_fed (by omega) _ _)
    · simp [init4GrayPlan, initBefore_length]
    · intro n hn
      have h := spiAt_fed (n := (initFrames Config.setup).length + gray4Frames.length)
        (m := (initFrames Config.setup).length + n) (by omega) [.low] acquired
      simpa [State.spiAt, afterWait] using h
  · refine ⟨fed 11619 [.low] ready, rfl,
      waiting_ends (p := clearPlan Config.setup.pollLimit 0) rfl rfl rfl
        ⟨fun _ => rfl, fun _ => ⟨rfl, fun h => (nomatch h)⟩, by simp, by simp⟩ (quiet_framesItems _)
        (clearBefore_on ?_) ?_ rfl rfl rfl⟩
    · exact fun n hn => (start_spiAt _ _ _ _).trans (spiAt_fed hn [.low] ready)
    · have h : (framesItems (clearFrames 0)).length = 0 + 46476 := by rw [framesItems_length, clearFrames_length]
      exact (congrArg (Pc.running (.clear 0) · 0) h).symm
  · refine ⟨fed 11619 [.low] shown, rfl,
      waiting_ends (p := displayPlan Config.setup.pollLimit) rfl rfl rfl
        ⟨fun _ => rfl, fun _ => ⟨rfl, fun h => (nomatch h)⟩, fun _ => rfl, by simp⟩ quiet_displayBefore
        (displayBefore_on (bytes := List.replicate 5808 0xFF) List.length_replicate ?_ ?_) ?_ rfl rfl rfl⟩
    · intro k hk
      simp [-List.reduceReplicate, fed, shown, read_fill, hk]
    · exact fun n hn => (start_spiAt _ _ _ _).trans (spiAt_fed hn [.low] shown)
    · have h : displayBefore.length = 0 + 46477 := by rw [displayBefore_length]
      exact (congrArg (Pc.running .displayFrame · 0) h).symm

/-! ### FrameEncoder -/

/-- A state whose image is written whole, every pixel `p`, in the orientation `o`. -/
def imageOf (o : Orientation) (p : Pixel) : State :=
  { State.reset with
    img := Memory.fill p 46464 [], imgW := BitVec.ofNat 16 o.width, imgH := BitVec.ofNat 16 o.height }

theorem imageOf_read (o : Orientation) (p : Pixel) {k : Nat} (h : k < 46464) :
    Memory.read (imageOf o p).img k = some p := by
  simp [imageOf, read_fill, h]

theorem imageOf_orientation (o : Orientation) (p : Pixel) :
    orientationOf (imageOf o p).imgW (imageOf o p).imgH = some o := by
  cases o <;> rfl

/-- EncodeFollowsTheClosedForm and AllWhiteAndAllBlackEncode: both orientations, an image of any one colour. -/
theorem test_witness_EncodeFollowsTheClosedForm (o : Orientation) (p : Pixel) :
    ∃ s : State, s.pc = .idle ∧ orientationOf s.imgW s.imgH = some o ∧
      (∀ k < 46464, (Memory.read s.img k).isSome = true) ∧ ∀ k < 46464, Memory.read s.img k = some p :=
  ⟨imageOf o p, rfl, imageOf_orientation o p, fun _ h => by rw [imageOf_read o p h]; rfl, fun _ h => imageOf_read o p h⟩

theorem test_witness_EncodeRejectsOtherSizes :
    ∃ s : State, s.pc = .idle ∧ ¬(s.imgW = 176 ∧ s.imgH = 264) ∧ ¬(s.imgW = 264 ∧ s.imgH = 176) :=
  ⟨{ State.reset with imgW := 264, imgH := 177 }, rfl, by decide, by decide⟩

theorem test_witness_LandscapeEncodesAsItsRotation (p : Pixel) :
    ∃ s s' : State, s.pc = .idle ∧ s'.pc = .idle ∧ orientationOf s.imgW s.imgH = some .landscape ∧
      orientationOf s'.imgW s'.imgH = some .portrait ∧ (∀ k < 46464, (Memory.read s.img k).isSome = true) ∧
      ∀ px < 176, ∀ py < 264, Memory.read s'.img (px + py * 176) = Memory.read s.img ((263 - py) + px * 264) :=
  ⟨imageOf .landscape p, imageOf .portrait p, rfl, rfl, imageOf_orientation _ _, imageOf_orientation _ _,
    fun _ h => by rw [imageOf_read _ p h]; rfl,
    fun px hx py hy => by rw [imageOf_read _ p (by omega), imageOf_read _ p (by omega)]⟩

/-! ### Wire commands -/

/-- WireCommandSendsItsEntry and WireCommandIsSendCmdThenSendData: data of any length, all of it going out. -/
theorem test_witness_WireCommandSendsItsEntry (data : List Byte) :
    ∃ s : State, s.pc = .idle ∧ s.trState = .acquired ∧ ∀ n < data.length + 1, s.spiAt n = true :=
  ⟨fed (data.length + 1) [] acquired, rfl, rfl, fun _ h => spiAt_fed h _ _⟩

/-- WireCommandSendsItsEntry: data of any length, byte `j` the first to fail. -/
theorem test_witness_WireCommandFails (cmd : Byte) (data : List Byte) (j : Nat) (h : j < data.length + 1) :
    ∃ (s : State) (f : Frame), s.pc = .idle ∧ s.trState = .acquired ∧
      ((⟨.low, cmd⟩ : Frame) :: data.map (Frame.mk .high))[j]? = some f ∧ (∀ n < j, s.spiAt n = true) ∧ s.spiAt j = false :=
  ⟨{ acquired with spiOk := ⟨List.replicate j true ++ [false], 0⟩ }, _, rfl, rfl, List.getElem?_eq_getElem (by simpa using h),
    fun n hn => answer_known _ _ _ _ (by simp [hn, List.getElem?_append]), answer_known _ _ _ _ (by simp)⟩

theorem test_witness_WireCommandIsSendCmdThenSendData :
    encode (.vcomDc 0x12) = .frames (Entry.frames ⟨0x82, [0x12]⟩) ∧ encode .powerOn = .frames (Entry.frames ⟨0x04, []⟩) :=
  ⟨rfl, rfl⟩

/-- WireViewOfFramesIsTheFrames: CS low with DC known, CS high, CS never driven, DC never driven (V23, V24). -/
theorem test_witness_WireViewOfFramesIsTheFrames :
    lastLevel .dc [.pinWrite .dc .low, .pinWrite .cs .low] = .driven .low ∧
    lastLevel .cs [.pinWrite .dc .low, .pinWrite .cs .low] = .driven .low ∧
    lastLevel .cs [.pinWrite .cs .low, .pinWrite .cs .high] = .driven .high ∧
    lastLevel .cs [.pinWrite .dc .low] = .unknown ∧ lastLevel .dc [.pinWrite .cs .low] = .unknown := by decide

/-! ### Frames of operations and whole-machine rules -/

theorem encode_completes {s : State} {o : Orientation} (hp : s.pc = .idle) (ho : orientationOf s.imgW s.imgH = some o)
    (hi : ∀ k < 46464, (Memory.read s.img k).isSome = true) : ∃ t, exec .encode s = .next t ∧ t.bufLen = 5808 := by
  obtain ⟨buf, h⟩ := packImage_ok (o := o) s.buf hi
  refine ⟨{ s with buf := buf, bufLen := BitVec.ofNat 16 frameLen }.complete, ?_, rfl⟩
  simp only [exec, execEncode, needIdle_idle hp, ho, h]

/-- OnlyEncodeWritesMemory, RegistersHaveTheirWriters, PinsHaveTheirWriters: operations that go through, SETPIN of each role among
them, a frame in flight, and ENCODE. -/
theorem test_witness_Frames :
    (∀ role ∈ [PinRole.reset, .dc, .cs, .busy, .power], ∃ s t : State, exec (.setPin role .low) s = .next t) ∧
    (∃ s t : State, exec (.readPin .busy) s = .next t ∧ t.rdval ≠ s.rdval) ∧
    (∃ s t : State, s.pc ≠ .idle ∧ exec (.sendCmd 0) s = .next t ∧ t.pins ≠ s.pins) ∧
    ∃ s t : State, exec .encode s = .next t ∧ t.bufLen = 5808 := by
  refine ⟨fun role h => ?_, ⟨fed 0 [.high] acquired, _, rfl, by decide⟩,
    ⟨inFlight (.sendCmd 0) 1 0 acquired, _, by decide, rfl, by decide⟩, ?_⟩
  · cases role <;> exact ⟨acquired, _, rfl⟩
  · exact ⟨imageOf .portrait 0, encode_completes rfl (imageOf_orientation _ _)
      (fun k hk => by rw [imageOf_read _ _ hk]; rfl)⟩

/-- A good state with nothing in flight. -/
theorem inv_idle {c : Setup} {s : State} (hp : s.pc = .idle) (ht : s.trState = .acquired) (hb : s.buf = []) (hi : s.img = [])
    (htr : s.trace = []) (hc : s.ConfiguredIsIdleOrRefreshing) : s.InvUnder c := by
  refine ⟨fun h => absurd ht h, hc, ?_, ?_, ?_⟩
  · unfold State.InFlightProperly
    rw [hp]
    trivial
  · refine ⟨?_, ?_, ?_, ?_⟩ <;> simp [hb, hi]
  · intro b h
    simp [htr] at h

/-- RESET in flight, three of its six micro-operations done, whatever the poll bound. -/
theorem inv_resetting (k : Nat) (h1 : 1 ≤ k) (h2 : k < 6) :
    (inFlight .reset k 0 { acquired with pdState := .resetting }).Inv := by
  refine inv_inFlight (p := resetPlan) rfl rfl rfl rfl rfl ?_ (fun h => absurd rfl h)
    (fun m _ h => ⟨by omega, fun _ => by omega⟩) (reaches_before _ h1 h2) (.inr fun m hm => ?_)
  · simp [panelFits, acquired, State.reset]
  · have hm : resetPlan.before[k]? = some m := by simpa [Plan.items, resetPlan] using hm
    have hm := List.mem_of_getElem? hm
    simp only [resetPlan, resetPulse, List.mem_cons, List.not_mem_nil, or_false] at hm
    rcases hm with rfl | rfl | rfl | rfl | rfl | rfl <;> rfl

/-- PanelStateMovesOnlyAsTabled: RESET starts and ends, CLEAR returns, RELEASE closes. -/
theorem test_witness_PanelStateMovesOnlyAsTabled :
    (∃ s t : State, s.Inv ∧ exec .reset s = .next t ∧ s.pdState = .idle ∧ t.pdState = .resetting) ∧
    (∃ s t : State, s.Inv ∧ exec .reset s = .next t ∧ s.pdState = .resetting ∧ t.pdState = .idle) ∧
    ∃ s t : State, s.Inv ∧ exec (.clear 0) s = .next t ∧ s.pdState = .refreshing ∧ t.pdState = .idle :=
  ⟨⟨ready, _, inv_idle rfl rfl rfl rfl rfl (fun _ => .inl rfl), rfl, rfl, rfl⟩,
    ⟨_, _, inv_resetting 5 (by omega) (by omega), rfl, rfl, rfl⟩,
    ⟨_, _, (inv_refresh_read .low).1, refresh_ends (b := 46476) (n := 0) rfl (.inl ⟨0, rfl⟩) rfl (.inl rfl) rfl, rfl, rfl⟩⟩

/-- StepKeepsTheInvariant, TraceOnlyGrows: good states that are not the reset state, with nothing in flight and with RESET in
flight, and their steps. -/
theorem test_witness_StepKeepsTheInvariant :
    (∃ s t : State, s.Inv ∧ step s = .next t ∧ t.trace ≠ s.trace) ∧
    ∃ s t : State, s.Inv ∧ s.pc ≠ .idle ∧ step s = .next t ∧ t.trace ≠ s.trace :=
  ⟨⟨host [.writeReg 0 0xC1000000] ready, _, inv_idle rfl rfl rfl rfl rfl (fun _ => .inl rfl), rfl, by decide⟩,
    ⟨_, _, inv_resetting 3 (by omega) (by omega), by decide, rfl, by decide⟩⟩

theorem test_witness_ReleasedAndFaultedAreForGood :
    (∃ s t : State, step s = .next t ∧ s.trState = .released ∧ s.faultMark = true) ∧
    ∃ s t : State, step s = .next t ∧ t.trState = .unacquired :=
  ⟨⟨{ host [.writeReg 0 0xC1000000] released with faultMark := true }, _, rfl, rfl, rfl⟩,
    ⟨host [.writeReg 0 0xC1000000] State.reset, _, rfl, rfl⟩⟩

theorem test_witness_PowerIsRaisedOnlyBySetPin :
    ∃ s t : State, exec (.setPin .power .low) s = .next t ∧ Instr.setPin .power .low ≠ .setPin .power .high :=
  ⟨acquired, _, rfl, by decide⟩

/-- WaitingSendsNothing: CLEAR and DISPLAYFRAME at the first read of their wait; READBUSY about to sleep, where the bound lets an
operation wait at all. -/
theorem test_witness_WaitingSendsNothing :
    (∃ (s t : State) (k n : Nat), s.Inv ∧ s.pc = .running (.clear 0) k n ∧ exec (.clear 0) s = .next t ∧ 46476 ≤ k) ∧
    (∃ (s t : State) (k n : Nat), s.Inv ∧ s.pc = .running .displayFrame k n ∧ exec .displayFrame s = .next t ∧ 46477 ≤ k) ∧
    (Config.setup.pollLimit ≠ some 1 → ∃ (s t : State) (k n : Nat), s.Inv ∧ s.pc = .running .readBusy k n ∧
      exec .readBusy s = .next t ∧ 1 ≤ n ∧ s.rdval = .high) := by
  refine ⟨⟨_, _, 46476, 0, (inv_refresh_read .low).1, rfl,
      refresh_ends (b := 46476) (n := 0) rfl (.inl ⟨0, rfl⟩) rfl (.inl rfl) rfl, Nat.le_refl _⟩,
    ⟨_, _, 46477, 0, (inv_refresh_read .low).2, rfl,
      refresh_ends (b := 46477) (n := 0) rfl (.inr rfl) rfl (.inl rfl) rfl, Nat.le_refl _⟩, fun h => ?_⟩
  refine ⟨inFlight .readBusy 1 1 { acquired with rdval := .high }, _, 1, 1,
    inv_inFlight (p := readBusyPlan Config.setup.pollLimit) rfl rfl rfl rfl rfl ?_ (fun h => absurd rfl h) ?_
      ⟨Nat.le_refl 1, ?_, .inr (Nat.le_refl 2)⟩ (.inr fun m hm => ?_), rfl, rfl, Nat.le_refl 1, rfl⟩
  · simp [panelFits]
  · intro m hm h1
    have : m ≠ 1 := fun e => h (by rw [hm, e])
    exact ⟨by omega, fun _ => by omega⟩
  · simp [readBusyPlan, Plan.items, Wait.items]
  · simp [readBusyPlan, Plan.items, Wait.items] at hm
    rw [← hm]
    rfl

/-- The hypotheses of FramesAreCutIntoTheirEntries, StatusWordHoldsItsFields, ResetLeavesTheStatedValues,
ResetMeetsTheInvariant, SpecWordsDecode, EachPixelOwnsOneBit, ConfigurationsAreAsymmetric and PrefixHoldsOnlyItsFourCommands are
none; of EachPixelOwnsOneBit's clauses the corners are shown. -/
theorem test_witness_EachPixelOwnsOneBit :
    targetIndex .portrait 0 0 = 0 ∧ targetIndex .portrait 175 263 = 5807 ∧ targetIndex .landscape 263 0 = 0 ∧
    targetIndex .landscape 0 175 = 5807 := by decide

end Sys2Proof.Tests
end

section
/-! PROOFS. What one micro-operation changes and what it leaves alone, said once for all eight kinds, and from it what a step of an
operation can do (spec/10_state.md R22 to R28, R40; spec/40_transport.md R121 to R126; spec/60_exceptions.md R252). -/

namespace Sys2Proof.Proofs

open Sys2Proof Sys2Proof.Machine Sys2Proof.Laws

/-! ## One micro-operation -/

/-- The pins after a micro-operation (40_transport.md R121, R126). -/
def pinsAfterMicro (m : Micro) (p : Pins) : Pins :=
  match m with
  | .setPin r l => p.set r (.driven l)
  | .close => Pins.closed
  | _ => p

/-- PD_STATE after a micro-operation (10_state.md R26). -/
def pdStateAfterMicro (m : Micro) (p : PdState) : PdState :=
  match m with
  | .sleepInto _ q => q
  | .close => .poweredOff
  | _ => p

/-- A micro-operation performed from `s`, whether it went through or an error ended the operation there: it records the one event
`e`. -/
structure Performs (m : Micro) (e : Event) (s t : State) : Prop where
  trace : t.trace = s.trace ++ [e]
  reads : readCount [e] = if quiet m then 0 else 1
  trState : t.trState = if m = .close then .released else s.trState
  pins : t.pins = pinsAfterMicro m s.pins
  pdState : t.pdState = pdStateAfterMicro m s.pdState
  pdMode : t.pdMode = if m = .close then .none else s.pdMode
  rdval : quiet m = true → t.rdval = s.rdval
  bufLen : t.bufLen = s.bufLen
  buf : t.buf = s.buf
  img : t.img = s.img
  marked : s.faultMark = true → t.faultMark = true
  fault : ∀ b, e = .spiFault b → t.faultMark = true

/-- A byte, of a frame or of BUF, wherever it ends. -/
theorem performs_shiftOut {m : Micro} {b : Byte} {s t : State} (hm : m.sends = true)
    (h : s.shiftOut b = .on t ∨ s.shiftOut b = .out t) : ∃ e, Performs m e s t := by
  have hm : (∃ b, m = .spiWrite b) ∨ ∃ k, m = .spiBuf k := by cases m <;> simp [Micro.sends] at hm ⊢
  rcases shiftOut_cases b s with ⟨_, h'⟩ | ⟨_, h'⟩ <;> rw [h'] at h
  · obtain rfl : afterByte b s = t := by simpa using h
    refine ⟨.spiWrite b, ?_⟩
    rcases hm with ⟨_, rfl⟩ | ⟨_, rfl⟩ <;> constructor <;> simp [afterByte, readCount, quiet, pinsAfterMicro, pdStateAfterMicro]
  · obtain rfl : afterFault b s = t := by simpa using h
    refine ⟨.spiFault b, ?_⟩
    rcases hm with ⟨_, rfl⟩ | ⟨_, rfl⟩ <;>
      constructor <;> simp [afterFault, readCount, quiet, pinsAfterMicro, pdStateAfterMicro]

/-- Everything a micro-operation does, but to the position. -/
theorem micro_performs {m : Micro} {s t : State} (h : micro m s = .on t ∨ micro m s = .out t) : ∃ e, Performs m e s t := by
  cases m with
  | setPin r l =>
    obtain rfl : s.drive r l = t := by simpa using h
    exact ⟨.pinWrite r l, by constructor <;> simp [readCount, quiet, pinsAfterMicro, pdStateAfterMicro]⟩
  | readPin =>
    obtain rfl : s.sample = t := by simpa using h
    exact ⟨.pinRead (s.busyAt 0), by constructor <;> simp [readCount, quiet, pinsAfterMicro, pdStateAfterMicro]⟩
  | sleep ms =>
    obtain rfl : s.delay ms = t := by simpa using h
    exact ⟨.sleep ms, by constructor <;> simp [readCount, quiet, pinsAfterMicro, pdStateAfterMicro]⟩
  | sleepInto ms q =>
    obtain rfl : State.delay { s with pdState := q } ms = t := by simpa using h
    exact ⟨.sleep ms, by constructor <;> simp [readCount, quiet, pinsAfterMicro, pdStateAfterMicro]⟩
  | close =>
    obtain rfl : s.closePins = t := by simpa using h
    exact ⟨.closed, by constructor <;> simp [readCount, quiet, pinsAfterMicro, pdStateAfterMicro]⟩
  | spiWrite b => exact performs_shiftOut rfl h
  | spiBuf k =>
    cases hb : Memory.read s.buf k with
    | none => rw [spiBuf_none hb] at h; simp at h
    | some b => rw [spiBuf_some hb] at h; exact performs_shiftOut rfl h
  | poll l =>
    refine ⟨.pinRead (s.busyAt 0), ?_⟩
    rcases poll_cases l s with ⟨h', _⟩ | ⟨_, _, h'⟩ <;> rw [micro_poll, h'] at h
    · obtain rfl : afterRead s = t := by simpa using h
      constructor <;> simp [afterRead, readCount, quiet, pinsAfterMicro, pdStateAfterMicro]
    · obtain rfl := (by simpa using h : _ = t)
      constructor <;> simp [afterRead, readCount, quiet, pinsAfterMicro, pdStateAfterMicro]

/-- The position after a micro-operation that went through, a read of WAITIDLE counted in it (10_state.md R23; log 12). -/
theorem pc_of_micro_on {m : Micro} {s t : State} {i : Instr} {k n : Nat} (h : micro m s = .on t)
    (hp : s.pc = .running i k n) (hm : m ≠ .readPin) :
    t.pc = .running i (k + 1) (n + if quiet m then 0 else 1) := by
  cases hq : quiet m with
  | true => rw [(micro_on_quiet hq h).2, hp]; rfl
  | false =>
    cases m with
    | readPin => exact absurd rfl hm
    | poll l =>
      rcases poll_cases l s with ⟨h', _⟩ | ⟨_, _, h'⟩ <;> rw [micro_poll, h'] at h <;> cases h
      simp [afterRead, hp]
    | _ => cases hq

/-! ## A step of an operation with a list -/

/-- Everything a step of an operation with the list `p` can do: there is nothing left to do and it ends; or it performs its next
micro-operation, after which it goes on, or has come to the end of its list, or an error has ended it. -/
theorem performNext_performs {p : Plan} {s t : State} (h : performNext p s = .next t) :
    (s.items p)[s.pc.done]? = none ∧ t = s.finish p ∨
    ∃ m e u, (s.items p)[s.pc.done]? = some m ∧ Performs m e s u ∧
      (micro m s = .on u ∧ (u.items p)[u.pc.done]? = none ∧ t = u.finish p ∨
       micro m s = .on u ∧ (u.items p)[u.pc.done]? ≠ none ∧ t = u ∨
       micro m s = .out u ∧ t = u) := by
  rcases performNext_next h with h | ⟨m, hm, ⟨u, hu, rfl⟩ | hu⟩
  · exact .inl h
  · obtain ⟨e, he⟩ := micro_performs (.inl hu)
    refine .inr ⟨m, e, u, hm, he, ?_⟩
    rcases settle_cases u p with ⟨h1, h2⟩ | ⟨⟨m', h1⟩, h2⟩ <;> rw [h2]
    · exact .inl ⟨hu, h1, rfl⟩
    · exact .inr (.inl ⟨hu, by simp [h1], rfl⟩)
  · obtain ⟨e, he⟩ := micro_performs (.inr hu)
    exact .inr ⟨m, e, t, hm, he, .inr (.inr ⟨hu, rfl⟩)⟩

/-- Where an operation with the list `p` stands when its step performs a micro-operation: at its start, or where it was. -/
def StandsAt (i : Instr) (p : Plan) (s x : State) : Prop :=
  s.pc = .idle ∧ Accepts i s ∧ x = s.start i p ∨ x = s ∧ ∃ k n, s.pc = .running i k n

/-- Where an operation stands it is in flight, and nothing but PD_STATE and PD_MODE was written to get there. -/
theorem StandsAt.running {i : Instr} {p : Plan} {s x : State} (h : StandsAt i p s x) :
    (∃ k n, x.pc = .running i k n) ∧ x.trace = s.trace := by
  rcases h with ⟨_, _, rfl⟩ | ⟨rfl, h⟩
  · exact ⟨⟨0, 0, rfl⟩, rfl⟩
  · exact ⟨h, rfl⟩

/-- Everything exec can answer by a next state, the two ways into a list taken together. -/
theorem execWith_stands {c : Setup} {i : Instr} {s t : State} (h : execWith c i s = .next t) :
    (s.pc = .idle ∧ ∃ e, t = s.raise e) ∨
    (s.pc = .idle ∧ i = .acquire ∧ s.trState = .unacquired ∧ t = s.tryAcquire) ∨
    (s.pc = .idle ∧ t = s.complete) ∨
    (s.pc = .idle ∧ i = .encode ∧ ∃ o buf, packImage o s.img s.buf = .ok buf ∧
      t = { s with buf := buf, bufLen := BitVec.ofNat 16 frameLen }.complete) ∨
    ∃ p x, planOf c s i = some p ∧ StandsAt i p s x ∧ performNext p x = .next t := by
  rcases execWith_next h with ⟨hp, e, _, rfl⟩ | h | ⟨hp, _, _, rfl⟩ | ⟨hp, hi, o, buf, _, hb, rfl⟩ | ⟨p, hpl, h⟩
  · exact .inl ⟨hp, e, rfl⟩
  · exact .inr (.inl h)
  · exact .inr (.inr (.inl ⟨hp, rfl⟩))
  · exact .inr (.inr (.inr (.inl ⟨hp, hi, o, buf, hb, rfl⟩)))
  · refine .inr (.inr (.inr (.inr ⟨p, ?_⟩)))
    rcases h with ⟨hp, ha, h⟩ | ⟨hp, h⟩
    · exact ⟨_, hpl, .inl ⟨hp, ha, rfl⟩, h⟩
    · exact ⟨s, hpl, .inr ⟨rfl, hp⟩, h⟩

/-- An ACQUIRE is granted, or it is not (40_transport.md R125). -/
theorem tryAcquire_cases (s : State) :
    s.tryAcquire = { s with
      grants := s.grants.skip 1, trState := .acquired, pins := Pins.closed, trace := s.trace ++ [.opened], err := .ok,
      pc := .idle } ∨
    s.tryAcquire = { s with grants := s.grants.skip 1, err := .hardwareUnavailable, pc := .idle } := by
  unfold State.tryAcquire
  cases s.grantAt 0
  · exact .inr rfl
  · exact .inl rfl

/-! ## What holds of a state however far its operation is -/

/-- Whatever does not look at ERR, at the position, at PD_STATE or at PD_MODE, and is kept by ACQUIRE, by ENCODE and by each
micro-operation on the operation's list, is kept by the operation's step. -/
theorem execWith_keeps {c : Setup} {i : Instr} {s t : State} {P : State → Prop} (h : execWith c i s = .next t) (hs : P s)
    (inert : ∀ x e pc q m, P x → P { x with err := e, pc := pc, pdState := q, pdMode := m })
    (acquire : i = .acquire → s.trState = .unacquired → P s.tryAcquire)
    (encode : i = .encode → ∀ buf len, P { s with buf := buf, bufLen := len })
    (item : ∀ p m e x y (k n : Nat) l, planOf c s i = some p → (p.items n l)[k]? = some m → Performs m e x y → P x →
      P y) : P t := by
  have raise : ∀ x e, P x → P (x.raise e) := fun x e hx => inert x e .idle x.pdState x.pdMode hx
  have complete : ∀ x, P x → P x.complete := fun x hx => inert x .ok .idle x.pdState x.pdMode hx
  have finish : ∀ x p, P x → P (x.finish p) := fun x p hx => inert x .ok .idle _ _ hx
  rcases execWith_stands h with ⟨_, e, rfl⟩ | ⟨_, hi, hu, rfl⟩ | ⟨_, rfl⟩ | ⟨_, hi, o, buf, _, rfl⟩ | ⟨p, x, hp, hx, h⟩
  · exact raise s e hs
  · exact acquire hi hu
  · exact complete s hs
  · exact complete _ (encode hi buf _)
  · have hx : P x := by
      rcases hx with ⟨_, _, rfl⟩ | ⟨rfl, _⟩
      · exact inert s s.err (.running i 0 0) _ _ hs
      · exact hs
    rcases performNext_performs h with ⟨_, rfl⟩ | ⟨m, e, u, hm, hu, h⟩
    · exact finish x p hx
    · have hPu : P u := item p m e x u _ _ _ hp hm hu hx
      rcases h with ⟨_, _, rfl⟩ | ⟨_, _, rfl⟩ | ⟨_, rfl⟩
      · exact finish u p hPu
      · exact hPu
      · exact hPu

/-! ## Which micro-operations stand on which list -/

/-- A read of BUSY stands on the list of READPIN BUSY and of the operations that wait. -/
theorem reads_busy {c : Setup} {s : State} {i : Instr} {p : Plan} (hp : planOf c s i = some p) {n k : Nat} {l : Level}
    {m : Micro} (hm : (p.items n l)[k]? = some m) (hq : quiet m = false) :
    i = .readPin .busy ∧ m = .readPin ∧ p = .plain [.readPin] ∨ (∃ b, waitStart c i = some b) ∧ ∃ lim, m = .poll lim := by
  have sh := shape hp
  rcases item_in hm with hb | ⟨w, hw, _, hm⟩
  · have hb := List.mem_of_getElem? hb
    rcases sh.before with hall | ⟨h1, _, hi⟩
    · rw [hall m hb] at hq
      cases hq
    · subst hi
      cases hp
      exact .inl ⟨rfl, by simpa [Plan.plain] using hb, rfl⟩
  · have hs : ∃ b, waitStart c i = some b := by
      cases hws : waitStart c i with
      | none => rw [sh.noStart hws] at hw; cases hw
      | some b => exact ⟨b, rfl⟩
    rcases hm with rfl | rfl | hm
    · exact .inr ⟨hs, _, rfl⟩
    · cases hq
    · rw [((sh.wait w hw).2 m hm).1] at hq
      cases hq

/-- The plain read stands on the list of READPIN BUSY, alone (40_transport.md R128). -/
theorem readPin_at {c : Setup} {s : State} {i : Instr} {p : Plan} (hp : planOf c s i = some p) {n k : Nat} {l : Level}
    (hm : (p.items n l)[k]? = some .readPin) : i = .readPin .busy ∧ p = .plain [.readPin] := by
  rcases reads_busy hp hm rfl with ⟨hi, _, h⟩ | ⟨_, lim, h⟩
  · exact ⟨hi, h⟩
  · cases h

/-- The closing step stands at the end of the list of RELEASE (40_transport.md R126). -/
theorem close_at {c : Setup} {s : State} {i : Instr} {p : Plan} (hp : planOf c s i = some p) {n k : Nat} {l : Level}
    (hm : (p.items n l)[k]? = some .close) : i = .release ∧ k = 3 ∧ p = releasePlan := by
  rcases item_in hm with hb | ⟨w, hw, _, hm⟩
  · exact (shape hp).close k hb
  · rcases hm with hm | hm | hm
    · cases hm
    · cases hm
    · exact absurd rfl (((shape hp).wait w hw).2 _ hm).2.2

/-- The sleep into Configuring is the sixth micro-operation of INIT and INIT4GRAY (42_panel_sequences.md R162, R163). -/
theorem sleepInto_at {c : Setup} {s : State} {i : Instr} {p : Plan} (hp : planOf c s i = some p) {n k ms : Nat} {l : Level}
    {q : PdState} (hm : (p.items n l)[k]? = some (.sleepInto ms q)) :
    k = 5 ∧ q = .configuring ∧ (i = .init ∨ i = .init4Gray) := by
  rcases item_in hm with hb | ⟨w, hw, _, hm⟩
  · exact (shape hp).into k ms q hb
  · rcases hm with hm | hm | hm
    · cases hm
    · cases hm
    · exact absurd rfl ((((shape hp).wait w hw).2 _ hm).2.1 ms q)

/-- READPIN's one micro-operation is the end of its list (40_transport.md R128). -/
theorem readPin_ends {c : Setup} {i : Instr} {p : Plan} {s x u : State} {k n : Nat} (hp : planOf c s i = some p)
    (hx : x.pc = .running i k n) (hm : (x.items p)[x.pc.done]? = some .readPin) (hon : micro .readPin x = .on u) :
    (u.items p)[u.pc.done]? = none := by
  obtain ⟨_, rfl⟩ := readPin_at hp hm
  cases hon
  simp [State.items, Plan.items, Plan.plain, hx]

/-- The closing step is the end of the list of RELEASE (40_transport.md R126). -/
theorem close_ends {c : Setup} {i : Instr} {p : Plan} {s x u : State} {k n : Nat} (hp : planOf c s i = some p)
    (hx : x.pc = .running i k n) (hm : (x.items p)[x.pc.done]? = some .close) (hon : micro .close x = .on u) :
    (u.items p)[u.pc.done]? = none := by
  obtain ⟨_, hk, rfl⟩ := close_at hp hm
  rw [hx, done_running] at hk
  cases hon
  simp [State.items, Plan.items, releasePlan, Plan.plain, hx, hk]

/-- Apart from the closing step and the sleep into Configuring a micro-operation leaves PD_STATE and PD_MODE alone (10_state.md
R26). -/
theorem Performs.panel_kept {m : Micro} {e : Event} {s t : State} (h : Performs m e s t) (hc : m ≠ .close)
    (hs : ∀ ms q, m ≠ .sleepInto ms q) : t.pdState = s.pdState ∧ t.pdMode = s.pdMode := by
  refine ⟨?_, by rw [h.pdMode, if_neg hc]⟩
  rw [h.pdState]
  cases m with
  | close => exact absurd rfl hc
  | sleepInto ms q => exact absurd rfl (hs ms q)
  | _ => rfl

end Sys2Proof.Proofs
end

section
/-! PROOFS. The invariant of 10_state.md R43 and 20_memory.md R66: an operation in flight stands midway on its list, a step takes it
from one position to the next, and the host's own moves leave it alone (spec/10_state.md R23, R26, R43). -/

namespace Sys2Proof.Proofs

open Sys2Proof Sys2Proof.Machine Sys2Proof.Laws

/-! ## The part of the invariant that does not look at the position -/

/-- The invariant but for what it says of an operation in flight. -/
structure Sound (s : State) : Prop where
  closed : s.ClosedUnlessAcquired
  configured : s.ConfiguredIsIdleOrRefreshing
  memories : s.MemoriesCanonical
  faults : s.FaultsMarked

theorem sound_of_inv {c : Setup} {s : State} (h : s.InvUnder c) : Sound s := ⟨h.closed, h.configured, h.memories, h.faults⟩

/-- With nothing in flight that part is all of it. -/
theorem Sound.inv_of_idle {c : Setup} {s : State} (h : Sound s) (hp : s.pc = .idle) : s.InvUnder c :=
  ⟨h.closed, h.configured, by simp [State.InFlightProperly, hp], h.memories, h.faults⟩

/-- An ACQUIRE keeps it, granted or not: it writes neither PD_STATE nor PD_MODE (40_transport.md R125). -/
theorem Sound.tryAcquire {s : State} (h : Sound s) : Sound s.tryAcquire := by
  obtain ⟨closed, configured, memories, faults⟩ := h
  rcases tryAcquire_cases s with h | h <;> rw [h]
  · exact ⟨fun h => absurd rfl h, configured, memories, fun b hb => faults b (by simpa using hb)⟩
  · exact ⟨closed, configured, memories, faults⟩

/-- The end of an operation keeps it: Idle is written where a mode is (10_state.md R26, R27). -/
theorem Sound.finish {c : Setup} {i : Instr} {p : Plan} {s : State} (h : Sound s) (hp : Shape c i p)
    (ha : pulses i ∨ refreshes i → s.trState = .acquired) : Sound (s.finish p) := by
  rcases hp.leave with ⟨hi, hl⟩ | ⟨hi, hl⟩ | ⟨hi, hl⟩ | ⟨hi, hl⟩ | ⟨_, _, hl⟩
  case inr.inr.inr.inr =>
    exact ⟨fun ht => by simpa [hl, Mark.keep] using h.closed ht,
      fun ht => by simpa [hl, Mark.keep] using h.configured (by simpa [hl, Mark.keep] using ht), h.memories, h.faults⟩
  all_goals
    have ha : s.trState = .acquired := ha (by simp [pulses, hi])
    exact ⟨fun h' => absurd ha h', fun _ => .inl (by simp [hl]), h.memories, h.faults⟩

/-- A micro-operation keeps it: PD_STATE changes with the closing step, which leaves everything closed, or on the way into
Configuring, where no mode is set and the Transport is acquired (10_state.md R26; 40_transport.md R126; 60_exceptions.md R252). -/
theorem Sound.performs {m : Micro} {e : Event} {s t : State} (h : Sound s) (hm : Performs m e s t)
    (ha : s.trState = .acquired ∨ ∃ ms, m = .sleep ms) (hi : (∃ ms q, m = .sleepInto ms q) → s.pdMode = .none) : Sound t where
  closed := by
    intro ht
    rcases ha with ha | ⟨ms, rfl⟩
    · have hc : m = .close := by
        by_contra hc
        exact ht (by rw [hm.trState, if_neg hc, ha])
      subst hc
      exact ⟨hm.pins, hm.pdState, hm.pdMode⟩
    · rw [hm.trState, if_neg (by simp)] at ht
      rw [hm.pins, hm.pdState, hm.pdMode]
      exact h.closed ht
  configured := by
    intro ht
    rw [hm.pdMode] at ht
    rw [hm.pdState]
    cases m with
    | close => exact absurd rfl ht
    | sleepInto ms q => exact absurd (hi ⟨ms, q, rfl⟩) ht
    | _ => exact h.configured ht
  memories := by
    show Memory.wf t.buf ∧ Memory.within bufCap t.buf ∧ Memory.wf t.img ∧ Memory.within imgCap t.img
    rw [hm.buf, hm.img]
    exact h.memories
  faults := by
    intro b hb
    rw [hm.trace, List.mem_append, List.mem_singleton] at hb
    rcases hb with hb | hb
    · exact hm.marked (h.faults b hb)
    · exact hm.fault b hb.symm

/-! ## An operation midway -/

/-- The operation `i` with the list `p` stands at position `k`, `n` reads of BUSY made: everything the invariant says of it there, and
what it says of the state. Unlike the invariant's own clause it speaks of the position before the first micro-operation too. -/
structure Midway (c : Setup) (i : Instr) (p : Plan) (s : State) (k n : Nat) : Prop where
  pc : s.pc = .running i k n
  plan : planOf c s i = some p
  sound : Sound s
  acquired : (∀ ms, i ≠ .sleep ms) → s.trState = .acquired
  panel : panelFits i k s.pdState s.pdMode
  bound : ∀ M, c.pollLimit = some M → 1 ≤ M → n ≤ M ∧ (s.rdval = .high → n < M)
  reads : n = 0 ∨ p.before.length + 2 * n ≤ k + 1
  frame : s.FrameOpen i p

theorem planOf_congr {c : Setup} {s t : State} (h : t.bufLen = s.bufLen) (i : Instr) : planOf c t i = planOf c s i := by
  cases i <;> simp only [planOf, encode, opPlan, h]

theorem Midway.items {c : Setup} {i : Instr} {p : Plan} {s : State} {k n : Nat} (h : Midway c i p s k n) :
    s.items p = p.items n s.rdval ∧ s.pc.done = k := by
  simp [State.items, h.pc]

/-- An operation in flight is midway. -/
theorem midway_of_inv {c : Setup} {i : Instr} {p : Plan} {s : State} {k n : Nat} (h : s.InvUnder c)
    (hp : s.pc = .running i k n) (hpl : planOf c s i = some p) :
    Midway c i p s k n ∧ 1 ≤ k ∧ k < (p.items n s.rdval).length := by
  have hf := h.inFlight
  rw [State.InFlightProperly, hp] at hf
  obtain ⟨acquired, panel, bound, p', hpl', ⟨h1, h2, reads⟩, frame⟩ := hf
  obtain rfl : p = p' := by rw [hpl] at hpl'; exact Option.some.inj hpl'
  exact ⟨⟨hp, hpl, sound_of_inv h, fun _ => acquired, panel, bound, reads, frame⟩, h1, h2⟩

/-- An operation that is let through starts midway. -/
theorem midway_start {c : Setup} {i : Instr} {p : Plan} {s : State} (h : s.InvUnder c) (ha : Accepts i s)
    (hpl : planOf c s i = some p) : Midway c i p (s.start i p) 0 0 := by
  have acquired : pulses i ∨ refreshes i → s.trState = .acquired := fun hi => ha.acquired (by
    rintro ms rfl
    simp [pulses, refreshes] at hi)
  refine ⟨rfl, hpl, ?_, ha.acquired, ?_, ?_, .inl rfl, ?_⟩
  · rcases (shape hpl).enter with ⟨hi, he⟩ | ⟨hi, he⟩ | ⟨_, _, he⟩
    · exact ⟨fun h' => absurd (acquired (.inl hi)) h', fun h' => absurd (by simp [he, pulseMark]) h', h.memories, h.faults⟩
    · exact ⟨fun h' => absurd (acquired (.inr hi)) h', fun _ => .inr (by simp [he]), h.memories, h.faults⟩
    · exact ⟨fun ht => by simpa [he, Mark.keep] using h.closed ht,
        fun ht => by simpa [he, Mark.keep] using h.configured (by simpa [he, Mark.keep] using ht), h.memories, h.faults⟩
  · rcases (shape hpl).enter with ⟨hi, he⟩ | ⟨hi, he⟩ | ⟨hi, hr, _⟩
    · refine ⟨fun _ => by simp [he, pulseMark], fun _ => by simp [he, pulseMark], fun hr => ?_⟩
      rcases hi with rfl | rfl | rfl <;> simp at hr
    · refine ⟨?_, ?_, fun _ => ⟨by simp [he], by simpa [he] using (ha.ready hi).2⟩⟩ <;>
        rcases hi with ⟨f, rfl⟩ | rfl <;> simp
    · exact ⟨fun h' => absurd (.inl h') hi, fun h' => absurd (.inr h') hi, fun h' => absurd h' hr⟩
  · exact fun M _ hM => ⟨Nat.zero_le M, fun _ => hM⟩
  · intro h1 h2 m hm hs
    obtain ⟨k', hk, _⟩ := framed_plan hpl h1 h2 0 s.rdval 0 m (by simpa [State.items] using hm) hs
    cases hk

/-- Where an operation stands, in a state that meets the invariant, it is midway. -/
theorem midway_of_standsAt {c : Setup} {i : Instr} {p : Plan} {s x : State} (h : s.InvUnder c) (hpl : planOf c s i = some p)
    (hx : StandsAt i p s x) : ∃ k n, Midway c i p x k n := by
  rcases hx with ⟨_, ha, rfl⟩ | ⟨rfl, k, n, hp⟩
  · exact ⟨0, 0, midway_start h ha hpl⟩
  · exact ⟨k, n, (midway_of_inv h hp hpl).1⟩

/-! ## From one position to the next -/

section Next

variable {c : Setup} {i : Instr} {p : Plan} {s t : State} {k n : Nat} {m : Micro} {e : Event}

/-- The operation under way needs the Transport acquired, or it is a SLEEP, at its one sleep (40_transport.md R129). -/
theorem Midway.acquired_or_sleep (h : Midway c i p s k n) (hm : (p.items n s.rdval)[k]? = some m) :
    s.trState = .acquired ∨ ∃ ms, m = .sleep ms := by
  by_cases hi : ∃ ms, i = .sleep ms
  · obtain ⟨ms, rfl⟩ := hi
    rw [(shape h.plan).sleep ms rfl] at hm
    have hm := List.mem_of_getElem? hm
    exact .inr ⟨ms.toNat, by simpa [Plan.items, Plan.plain] using hm⟩
  · exact .inl (h.acquired fun ms hms => hi ⟨ms, hms⟩)

/-- Its next micro-operation keeps what does not look at the position. -/
theorem Midway.sound_after (h : Midway c i p s k n) (hm : (p.items n s.rdval)[k]? = some m) (hu : Performs m e s t) :
    Sound t := by
  refine h.sound.performs hu (h.acquired_or_sleep hm) ?_
  rintro ⟨ms, q, rfl⟩
  exact (h.panel.2.1 (sleepInto_at h.plan hm).2.2).2

/-- PD_STATE and PD_MODE after it are those the operation has at the next position, where it goes on. -/
theorem Midway.panel_after (h : Midway c i p s k n) (hm : (p.items n s.rdval)[k]? = some m) (hu : Performs m e s t)
    (hc : m ≠ .close) : panelFits i (k + 1) t.pdState t.pdMode := by
  have mode : t.pdMode = s.pdMode := by rw [hu.pdMode, if_neg hc]
  have state : (∀ ms q, m ≠ .sleepInto ms q) → t.pdState = s.pdState := fun hs => (hu.panel_kept hc hs).1
  obtain ⟨reset, init, refresh⟩ := h.panel
  rw [mode]
  refine ⟨fun hi => ?_, fun hi => ?_, fun hi => ?_⟩
  · rw [state fun ms q hs => ?_]
    · exact reset hi
    · subst hs hi
      simpa using (sleepInto_at h.plan hm).2.2
  · obtain ⟨hs, hmode⟩ := init hi
    refine ⟨?_, hmode⟩
    by_cases hinto : ∃ ms q, m = .sleepInto ms q
    · obtain ⟨ms, q, rfl⟩ := hinto
      obtain ⟨rfl, rfl, _⟩ := sleepInto_at h.plan hm
      simpa [pdStateAfterMicro] using hu.pdState
    · have h5 : k ≠ 5 := by
        rintro rfl
        obtain ⟨ms, h5⟩ := (shape h.plan).five hi
        rw [Plan.items, List.getElem?_append_left (List.getElem?_eq_some_iff.1 h5).1, h5] at hm
        exact hinto ⟨ms, _, (Option.some.inj hm).symm⟩
      rw [state fun ms q hq => hinto ⟨ms, q, hq⟩, hs]
      have : k < 6 ↔ k + 1 < 6 := by omega
      simp only [this]
  · rw [state fun ms q hs => ?_]
    · exact refresh hi
    · subst hs
      rcases hi with ⟨f, rfl⟩ | rfl <;> simpa using (sleepInto_at h.plan hm).2.2

/-- A read of WAITIDLE that goes through stands past the reads made, and the one before it answered 1. -/
theorem Midway.poll_position (h : Midway c i p s k n) (hm : (p.items n s.rdval)[k]? = some m) (hq : quiet m = false)
    (hr : m ≠ .readPin) : ∃ w, p.wait = some w ∧ m = .poll w.limit ∧ w.limit = c.pollLimit ∧ k = p.before.length + 2 * n ∧
      (n = 0 ∨ s.rdval = .high) := by
  obtain ⟨_, hr', _⟩ | ⟨⟨b, hb⟩, _⟩ := reads_busy h.plan hm hq
  · exact absurd hr' hr
  have sh := shape h.plan
  obtain ⟨w, hw⟩ := Option.ne_none_iff_exists'.1 (sh.start b hb).2
  have hbefore : ∀ x ∈ p.before, quiet x = true := by
    rcases sh.before with h' | ⟨_, hn, _⟩
    · exact h'
    · rw [hw] at hn; cases hn
  obtain ⟨hn, hk, rfl⟩ := poll_at hw hbefore (fun x hx => ((sh.wait w hw).2 x hx).1) hm hq h.reads
  exact ⟨w, hw, rfl, (sh.wait w hw).1, hk, hn⟩

/-- Once the read of number `n + 1` is made, it stands on the list where it was performed. -/
theorem items_read_made {w : Wait} (hw : p.wait = some w) (n : Nat) (l : Level) :
    (p.items (n + 1) l)[p.before.length + 2 * n]? = some (.poll w.limit) := by
  have len : (List.replicate n [Micro.poll w.limit, .sleep pollInterval]).flatten.length = 2 * n := by simp; omega
  have hi : p.items (n + 1) l = p.before ++ w.items (n + 1) l := by simp [Plan.items, hw]
  rw [hi, List.getElem?_append_right (by omega), Nat.add_sub_cancel_left]
  cases l
  · rw [Wait.items, List.getElem?_append_right (by omega), len, Nat.sub_self]
    rfl
  · rw [Wait.items, List.replicate_succ', List.flatten_append, List.append_assoc, List.getElem?_append_right (by omega), len,
      Nat.sub_self]
    rfl

/-- A micro-operation that went through stands on the list, as the levels read then determine it, where it was performed. -/
theorem Midway.performed_at (h : Midway c i p s k n) (hm : (p.items n s.rdval)[k]? = some m) (hr : m ≠ .readPin)
    (hu : Performs m e s t) : (p.items (n + if quiet m then 0 else 1) t.rdval)[k]? = some m := by
  cases hq : quiet m with
  | true => rw [hu.rdval hq]; exact hm
  | false =>
    obtain ⟨w, hw, rfl, _, rfl, _⟩ := h.poll_position hm hq hr
    exact items_read_made hw n t.rdval

/-- The bound on the reads of BUSY is not passed by a read that goes through (41_panel_primitives.md R145). -/
theorem Midway.bound_after (h : Midway c i p s k n) (hm : (p.items n s.rdval)[k]? = some m) (hr : m ≠ .readPin)
    (hu : Performs m e s t) (hon : micro m s = .on t) {M : Nat} (hM : c.pollLimit = some M) (h1 : 1 ≤ M) :
    (n + if quiet m then 0 else 1) ≤ M ∧ (t.rdval = .high → (n + if quiet m then 0 else 1) < M) := by
  cases hq : quiet m with
  | true => rw [hu.rdval hq]; exact h.bound M hM h1
  | false =>
    obtain ⟨w, _, rfl, hl, _, hn⟩ := h.poll_position hm hq hr
    have hlt : n < M := by
      rcases hn with rfl | hn
      · exact h1
      · exact (h.bound M hM h1).2 hn
    refine ⟨hlt, fun ht => ?_⟩
    rcases poll_cases w.limit s with ⟨h', hb⟩ | ⟨_, _, h'⟩ <;> rw [micro_poll, h'] at hon <;> cases hon
    have hne : n + 1 ≠ M := fun he => hb ht (by simp [hl, hM, afterRead, h.pc, he])
    simp only [Bool.false_eq_true, if_false]
    omega

/-- Where a byte is next, CS is low (30_encoding.md R91). -/
theorem Midway.frame_after (h : Midway c i p s k n) (hm : (p.items n s.rdval)[k]? = some m) (hr : m ≠ .readPin)
    (hu : Performs m e s t) (hon : micro m s = .on t) : t.FrameOpen i p := by
  intro h1 h2 m' hm' hs
  rw [State.items, pc_of_micro_on hon h.pc hr, done_running, reads_running] at hm'
  obtain ⟨k', hk, hcs⟩ := framed_plan h.plan h1 h2 _ _ _ _ hm' hs
  obtain rfl : k = k' := by omega
  rw [h.performed_at hm hr hu] at hcs
  obtain rfl : m = .setPin .cs .low := Option.some.inj hcs
  rw [hu.pins]
  rfl

/-- THE STEP OF THE INVARIANT: a micro-operation that goes through takes an operation from one position of its list to the next. -/
theorem Midway.next (h : Midway c i p s k n) (hm : (p.items n s.rdval)[k]? = some m) (hu : Performs m e s t)
    (hon : micro m s = .on t) (hr : m ≠ .readPin) (hc : m ≠ .close) :
    Midway c i p t (k + 1) (n + if quiet m then 0 else 1) where
  pc := pc_of_micro_on hon h.pc hr
  plan := by rw [planOf_congr hu.bufLen]; exact h.plan
  sound := h.sound_after hm hu
  acquired hi := by rw [hu.trState, if_neg hc]; exact h.acquired hi
  panel := h.panel_after hm hu hc
  bound _ hM h1 := h.bound_after hm hr hu hon hM h1
  reads := by
    cases hq : quiet m with
    | true =>
      rcases h.reads with hn | hn
      · exact .inl hn
      · exact .inr (by simp only [if_true]; omega)
    | false =>
      obtain ⟨_, _, _, _, hk, _⟩ := h.poll_position hm hq hr
      exact .inr (by simp only [Bool.false_eq_true, if_false]; omega)
  frame := h.frame_after hm hr hu hon

/-- A micro-operation after which the operation goes on is none of those that end one, nor a SLEEP's. -/
theorem Midway.goes_on (h : Midway c i p s k n) (hm : (p.items n s.rdval)[k]? = some m) (hon : micro m s = .on t)
    (hmore : (t.items p)[t.pc.done]? ≠ none) : m ≠ .readPin ∧ m ≠ .close ∧ ∀ ms, i ≠ .sleep ms := by
  have hat : (s.items p)[s.pc.done]? = some m := by rw [h.items.1, h.items.2]; exact hm
  refine ⟨?_, ?_, ?_⟩
  · rintro rfl
    exact hmore (readPin_ends h.plan h.pc hat hon)
  · rintro rfl
    exact hmore (close_ends h.plan h.pc hat hon)
  · rintro ms rfl
    obtain rfl := (shape h.plan).sleep ms rfl
    have hm := List.mem_of_getElem? hm
    obtain rfl : m = .sleep ms.toNat := by simpa [Plan.items, Plan.plain] using hm
    cases hon
    exact hmore (by simp [State.items, Plan.items, Plan.plain, h.pc])

end Next

/-- Midway past its first micro-operation and with some left, an operation meets the invariant's clause on what is in flight. -/
theorem Midway.inv {c : Setup} {i : Instr} {p : Plan} {s : State} {k n : Nat} (h : Midway c i p s k n) (h1 : 1 ≤ k)
    (hmore : (s.items p)[s.pc.done]? ≠ none) (hi : ∀ ms, i ≠ .sleep ms) : s.InvUnder c := by
  refine ⟨h.sound.closed, h.sound.configured, ?_, h.sound.memories, h.sound.faults⟩
  obtain ⟨hitems, hdone⟩ := h.items
  rw [hitems, hdone] at hmore
  have hk : k < (p.items n s.rdval).length := by
    by_contra hk
    exact hmore (List.getElem?_eq_none (Nat.not_lt.1 hk))
  rw [State.InFlightProperly, h.pc]
  exact ⟨h.acquired hi, h.panel, h.bound, p, h.plan, ⟨h1, hk, h.reads⟩, h.frame⟩

/-- A step of an operation midway keeps the invariant. -/
theorem Midway.performNext_inv {c : Setup} {i : Instr} {p : Plan} {s t : State} {k n : Nat} (h : Midway c i p s k n)
    (ht : performNext p s = .next t) : t.InvUnder c := by
  have needs : pulses i ∨ refreshes i → ∀ ms, i ≠ .sleep ms := by
    rintro hi ms rfl
    simp [pulses, refreshes] at hi
  obtain ⟨hitems, hdone⟩ := h.items
  rcases performNext_performs ht with ⟨_, rfl⟩ | ⟨m, e, u, hm, hu, hcase⟩
  · exact (h.sound.finish (shape h.plan) fun hi => h.acquired (needs hi)).inv_of_idle rfl
  rw [hitems, hdone] at hm
  have hs : Sound u := h.sound_after hm hu
  rcases hcase with ⟨hon, _, rfl⟩ | ⟨hon, hmore, rfl⟩ | ⟨hout, rfl⟩
  · refine (hs.finish (shape h.plan) fun hi => ?_).inv_of_idle rfl
    have hc : m ≠ .close := by
      rintro rfl
      obtain ⟨rfl, _⟩ := close_at h.plan hm
      simp [pulses, refreshes] at hi
    rw [hu.trState, if_neg hc]
    exact h.acquired (needs hi)
  · obtain ⟨hr, hc, hi⟩ := h.goes_on hm hon hmore
    exact (h.next hm hu hon hr hc).inv (by omega) hmore hi
  · exact hs.inv_of_idle (micro_out_pc hout)

/-- Every step of an operation keeps the invariant, whatever the ROM and the poll bound. -/
theorem execWith_inv {c : Setup} {i : Instr} {s t : State} (h : s.InvUnder c) (ht : execWith c i s = .next t) :
    t.InvUnder c := by
  have hs := sound_of_inv h
  rcases execWith_stands ht with ⟨_, e, rfl⟩ | ⟨_, _, _, rfl⟩ | ⟨_, rfl⟩ | ⟨_, _, o, buf, hb, rfl⟩ | ⟨p, x, hpl, hx, hn⟩
  · exact Sound.inv_of_idle ⟨hs.closed, hs.configured, hs.memories, hs.faults⟩ rfl
  · refine hs.tryAcquire.inv_of_idle ?_
    rcases tryAcquire_cases s with h | h <;> rw [h]
  · exact Sound.inv_of_idle ⟨hs.closed, hs.configured, hs.memories, hs.faults⟩ rfl
  · obtain ⟨hw, hc, himg⟩ := hs.memories
    obtain ⟨hw', hc'⟩ := packImage_keeps hb hw hc
    exact Sound.inv_of_idle ⟨hs.closed, hs.configured, ⟨hw', hc', himg⟩, hs.faults⟩ rfl
  · obtain ⟨k, n, hmid⟩ := midway_of_standsAt h hpl hx
    exact hmid.performNext_inv hn

/-! ## The host's moves -/

/-- A step that runs no operation: the host has written a register or an entry, read something, or issued an illegal word. -/
structure HostOnly (s t : State) : Prop where
  rest : t = { s with
    host := t.host, hostData := t.hostData, err := t.err, bufLen := t.bufLen, imgW := t.imgW, imgH := t.imgH, buf := t.buf,
    img := t.img }
  memories : s.MemoriesCanonical → t.MemoriesCanonical

theorem hostRead_hostOnly {space : Space} {index : Nat} {s t : State} (h : hostRead space index s = .next t) : HostOnly s t := by
  have data : ∀ v, HostOnly s { s with hostData := v } := fun v => ⟨rfl, id⟩
  unfold hostRead at h
  cases space with
  | reg => cases hr : s.register index <;> simp only [hr] at h <;> cases h; exact data _
  | buf =>
    dsimp only at h
    split at h
    · cases h
    · split at h <;> cases h; exact data _
  | img =>
    dsimp only at h
    split at h
    · cases h
    · split at h <;> cases h; exact data _

theorem hostWriteReg_hostOnly {index : Nat} {v : Word} {s t : State} (h : hostWriteReg index v s = .next t) : HostOnly s t := by
  unfold hostWriteReg at h
  split at h <;> cases h <;> exact ⟨rfl, id⟩

theorem hostWriteBuf_hostOnly {index : Nat} {v : Byte} {s t : State} (h : hostWriteBuf index v s = .next t) : HostOnly s t := by
  unfold hostWriteBuf at h
  split at h <;> cases h
  rename_i hi
  exact ⟨rfl, fun ⟨hw, hc, himg⟩ => ⟨wf_write _ _ hw, within_write _ (Nat.not_le.1 hi) hc, himg⟩⟩

theorem hostWriteImg_hostOnly {index : Nat} {v : Pixel} {s t : State} (h : hostWriteImg index v s = .next t) : HostOnly s t := by
  unfold hostWriteImg at h
  split at h <;> cases h
  rename_i hi
  exact ⟨rfl, fun ⟨hbw, hbc, hw, hc⟩ => ⟨hbw, hbc, wf_write _ _ hw, within_write _ (Nat.not_le.1 hi) hc⟩⟩

/-- Everything a move of the host's at IDLE leads to. -/
theorem hostMove_cases {m : HostMove} {s : State} (hp : s.pc = .idle) :
    (∃ i, hostMove m s = .run i s) ∨ ∃ o, hostMove m s = .done o ∧ ∀ t, o = .next t → HostOnly s t := by
  cases m with
  | read space index => exact .inr ⟨hostRead space index s, by simp only [hostMove, hp], fun _ => hostRead_hostOnly⟩
  | writeBuf index v => exact .inr ⟨hostWriteBuf index v s, by simp only [hostMove, hp], fun _ => hostWriteBuf_hostOnly⟩
  | writeImg index v => exact .inr ⟨hostWriteImg index v s, by simp only [hostMove, hp], fun _ => hostWriteImg_hostOnly⟩
  | entry fs =>
    simp only [hostMove, hp, issueEntry]
    cases decodeFrames fs with
    | ok i => exact .inl ⟨i, rfl⟩
    | error e => exact .inr ⟨_, rfl, fun t h => nomatch h⟩
  | writeReg index v =>
    cases index with
    | succ n => exact .inr ⟨hostWriteReg (n + 1) v s, by simp only [hostMove, hp], fun _ => hostWriteReg_hostOnly⟩
    | zero =>
      simp only [hostMove, hp, issueWord]
      cases decodeWord v with
      | ok i => exact .inl ⟨i, rfl⟩
      | error e =>
        refine .inr ⟨_, rfl, fun t h => ?_⟩
        cases h
        exact ⟨by simp [State.raise, hp], id⟩

theorem pc_cases (s : State) : s.pc = .idle ∨ ∃ i k n, s.pc = .running i k n := by
  cases s.pc <;> simp

/-- The three steps from IDLE: the host makes no move, its move issues an operation, or its move is all that happens. -/
theorem step_idle_nil {s : State} (hp : s.pc = .idle) (hh : s.host = []) : step s = .next s := by
  simp only [step, fetch, hp, hh]

theorem step_idle_run {s x : State} {m : HostMove} {rest : List HostMove} {i : Instr} (hp : s.pc = .idle)
    (hh : s.host = m :: rest) (hm : hostMove m { s with host := rest } = .run i x) : step s = exec i x := by
  have hf : fetch s = .run i x := by rw [← hm]; unfold fetch; rw [hp, hh]
  simp only [step, hf]

theorem step_idle_done {s : State} {m : HostMove} {rest : List HostMove} {o : Outcome} (hp : s.pc = .idle)
    (hh : s.host = m :: rest) (hm : hostMove m { s with host := rest } = .done o) : step s = o := by
  have hf : fetch s = .done o := by rw [← hm]; unfold fetch; rw [hp, hh]
  simp only [step, hf]

/-- Everything a step can do: an operation's step, from where it is in flight or with the host's move taken that issues it; or a move
of the host's that runs none; or nothing, where the host makes none. -/
theorem step_cases {s t : State} (h : step s = .next t) :
    (∃ i k n, s.pc = .running i k n ∧ exec i s = .next t) ∨
    s.pc = .idle ∧ ((∃ i rest, exec i { s with host := rest } = .next t) ∨ (∃ rest, HostOnly { s with host := rest } t)) := by
  rcases pc_cases s with hp | ⟨i, k, n, hp⟩
  · refine .inr ⟨hp, ?_⟩
    cases hh : s.host with
    | nil =>
      rw [step_idle_nil hp hh] at h
      cases h
      exact .inr ⟨s.host, rfl, id⟩
    | cons m rest =>
      rcases hostMove_cases (m := m) (s := { s with host := rest }) hp with ⟨i, hi⟩ | ⟨o, ho, hon⟩
      · rw [step_idle_run hp hh hi] at h
        exact .inl ⟨i, rest, h⟩
      · rw [step_idle_done hp hh ho] at h
        exact .inr ⟨rest, hon t h⟩
  · exact .inl ⟨i, k, n, hp, by rw [← step_running hp]; exact h⟩

/-- Taking a move from the host's list keeps the invariant. -/
theorem inv_host {c : Setup} {s : State} (h : s.InvUnder c) (hp : s.pc = .idle) (rest : List HostMove) :
    State.InvUnder c { s with host := rest } :=
  Sound.inv_of_idle ⟨h.closed, h.configured, h.memories, h.faults⟩ hp

/-- A step that runs no operation keeps the invariant. -/
theorem HostOnly.inv {c : Setup} {s t : State} (ht : HostOnly s t) (h : s.InvUnder c) (hp : s.pc = .idle) : t.InvUnder c := by
  have hm := ht.memories h.memories
  rw [ht.rest]
  exact Sound.inv_of_idle ⟨h.closed, h.configured, hm, h.faults⟩ hp

/-- Settles O54: nothing is written, driven, in flight or recorded at reset (10_state.md R42). -/
theorem resetMeetsTheInvariant : Obligations.ResetMeetsTheInvariant :=
  Sound.inv_of_idle
    { closed := fun _ => ⟨rfl, rfl, rfl⟩
      configured := fun h => absurd rfl h
      memories := by simp [State.MemoriesCanonical, State.reset]
      faults := by simp [State.FaultsMarked, State.reset] } rfl

/-- Settles O55: an operation's step by `execWith_inv`, the host's own moves by `HostOnly.inv`. -/
theorem stepKeepsTheInvariant : Obligations.StepKeepsTheInvariant := by
  intro s t h ht
  rcases step_cases ht with ⟨i, _, _, _, he⟩ | ⟨hp, ⟨i, rest, he⟩ | ⟨rest, hh⟩⟩
  · exact execWith_inv h ((execWith_setup i s).trans he)
  · exact execWith_inv (inv_host h hp rest) ((execWith_setup i _).trans he)
  · exact hh.inv (inv_host h hp rest) hp

end Sys2Proof.Proofs
end

section
/-! PROOFS. Frames of the operations: who writes TR_STATE, RDVAL and each output pin, and what no step undoes (spec/10_state.md R22,
R24, R28; spec/60_exceptions.md R252). -/

namespace Sys2Proof.Proofs

open Sys2Proof Sys2Proof.Machine Sys2Proof.Laws

variable {c : Setup} {i : Instr} {s t : State}

/-- TR_STATE is written by ACQUIRE and by RELEASE (10_state.md R22). -/
theorem trState_kept (h : execWith c i s = .next t) (ha : i ≠ .acquire) (hr : i ≠ .release) : t.trState = s.trState := by
  refine execWith_keeps (P := fun x => x.trState = s.trState) h rfl (fun _ _ _ _ _ hx => hx) (fun hi => absurd hi ha)
    (fun _ _ _ => rfl) ?_
  intro p m e x y k n l hp hm hu hx
  have hc : m ≠ .close := by
    rintro rfl
    exact hr (close_at hp hm).1
  rw [hu.trState, if_neg hc, hx]

/-- RDVAL is written by READPIN of BUSY and by the operations that wait (10_state.md R28). -/
theorem rdval_kept (h : execWith c i s = .next t) (hr : i ≠ .readPin .busy) (hw : waitStart c i = none) :
    t.rdval = s.rdval := by
  refine execWith_keeps (P := fun x => x.rdval = s.rdval) h rfl (fun _ _ _ _ _ hx => hx) (fun _ _ => ?_) (fun _ _ _ => rfl) ?_
  · rcases tryAcquire_cases s with h | h <;> rw [h]
  · intro p m e x y k n l hp hm hu hx
    have hq : quiet m = true := by
      by_contra hq
      rcases reads_busy hp hm (by simpa using hq) with ⟨hi, _⟩ | ⟨⟨b, hb⟩, _⟩
      · exact hr hi
      · rw [hw] at hb; cases hb
    rw [hu.rdval hq, hx]

/-- ENCODE records no event, drives no pin and marks nothing (43_frame_encoder.md R190). -/
theorem encode_frame (h : execWith c .encode s = .next t) :
    t.trace = s.trace ∧ t.pins = s.pins ∧ t.faultMark = s.faultMark := by
  rcases execWith_stands h with ⟨_, e, rfl⟩ | ⟨_, hi, _⟩ | ⟨_, rfl⟩ | ⟨_, _, o, buf, _, rfl⟩ | ⟨p, x, hp, _⟩
  · exact ⟨rfl, rfl, rfl⟩
  · cases hi
  · exact ⟨rfl, rfl, rfl⟩
  · exact ⟨rfl, rfl, rfl⟩
  · cases hp

/-- Settles O51, by `trState_kept`, `rdval_kept` and `encode_frame`. -/
theorem registersHaveTheirWriters : Obligations.RegistersHaveTheirWriters := by
  intro i s t h
  rw [← execWith_setup] at h
  refine ⟨trState_kept h, fun h1 h2 h3 h4 h5 h6 => rdval_kept h h1 ?_, ?_⟩
  · unfold waitStart
    split
    · exact absurd rfl h2
    · exact absurd rfl h3
    · exact absurd rfl h4
    · exact absurd rfl (h5 _)
    · exact absurd rfl h6
    · rfl
  · rintro rfl
    exact encode_frame h

/-! ## Who drives which pin -/

/-- The operations on whose list a write of the pin stands (40_transport.md R126, R127; 41_panel_primitives.md R141;
30_encoding.md R91). -/
def drives (i : Instr) : OutPin → Prop
  | .power => (∃ l, i = .setPin .power l) ∨ i = .release
  | .reset => (∃ l, i = .setPin .reset l) ∨ i = .release ∨ pulses i
  | .dc => (∃ l, i = .setPin .dc l) ∨ i = .release ∨ sendsFrames i
  | .cs => (∃ l, i = .setPin .cs l) ∨ sendsFrames i

/-- A list that drives DC and CS alone, of an operation that sends frames. -/
theorem drives_of_frames {fs : List Frame} {r : OutPin} {l : Level} (hi : sendsFrames i)
    (h : Micro.setPin r l ∈ framesItems fs) : drives i r := by
  rcases mem_framesItems h with ⟨r', l', he, rfl | rfl⟩ | ⟨b, he⟩ <;> cases he
  · exact .inr (.inr hi)
  · exact .inr hi

/-- The reset pulse drives RESET alone. -/
theorem drives_of_pulse {last : Micro} {r : OutPin} {l : Level} (hi : pulses i) (hl : ∀ r l, last ≠ .setPin r l)
    (h : Micro.setPin r l ∈ resetPulse last) : drives i r := by
  have hr : r = .reset := by
    simp only [resetPulse, List.mem_cons, Micro.setPin.injEq, reduceCtorEq, List.not_mem_nil, or_false, false_or] at h
    rcases h with ⟨h, _⟩ | ⟨h, _⟩ | ⟨h, _⟩ | h
    · exact h
    · exact h
    · exact h
    · exact absurd h.symm (hl r l)
  subst hr
  exact .inr (.inr hi)

/-- Before its wait an operation drives the pins that are its own. -/
theorem drives_of_before {p : Plan} {r : OutPin} {l : Level} (hp : planOf c s i = some p) (h : Micro.setPin r l ∈ p.before) :
    drives i r := by
  have init : (i = .init ∨ i = .init4Gray) → Micro.setPin r l ∈ initBefore c → drives i r := by
    intro hi h
    rcases List.mem_append.1 h with h | h
    · exact drives_of_pulse (.inr hi) (by simp) h
    · exact drives_of_frames (hi.elim (fun h => .inr (.inr (.inl h))) (fun h => .inr (.inr (.inr (.inl h))))) h
  cases i with
  | acquire => cases hp
  | encode => cases hp
  | release =>
    cases hp
    simp only [releasePlan, Plan.plain, List.mem_cons, Micro.setPin.injEq, reduceCtorEq, List.not_mem_nil, or_false] at h
    rcases h with ⟨rfl, _⟩ | ⟨rfl, _⟩ | ⟨rfl, _⟩
    · exact .inr (.inl rfl)
    · exact .inr (.inl rfl)
    · exact .inr rfl
  | setPin role l' =>
    cases role <;> cases hp <;> obtain ⟨rfl, rfl⟩ : r = _ ∧ l = l' := by simpa [Plan.plain] using h
    all_goals exact .inl ⟨l, rfl⟩
  | readPin role => cases role <;> cases hp; simp [Plan.plain] at h
  | sleep ms => cases hp; simp [Plan.plain] at h
  | writeByte b => cases hp; simp [Plan.plain] at h
  | writeBytes => cases hp; simp [bufferPlan, Plan.plain] at h
  | readBusy => cases hp; simp [readBusyPlan] at h
  | reset => cases hp; exact drives_of_pulse (.inl rfl) (by simp) h
  | init => cases hp; exact init (.inl rfl) h
  | init4Gray => cases hp; exact init (.inr rfl) h
  | sendCmd b => cases hp; exact drives_of_frames (fs := [⟨.low, b⟩]) (.inl ⟨b, rfl⟩) h
  | sendData b => cases hp; exact drives_of_frames (fs := [⟨.high, b⟩]) (.inr (.inl ⟨b, rfl⟩)) h
  | clear f => cases hp; exact drives_of_frames (.inr (.inr (.inr (.inr (.inl ⟨f, rfl⟩))))) h
  | displayFrame =>
    cases hp
    have hi : sendsFrames .displayFrame := .inr (.inr (.inr (.inr (.inr (.inl rfl)))))
    rcases mem_displayBefore h with ⟨r', l', he, rfl | rfl⟩ | ⟨b, he⟩ | ⟨k, he⟩ | he <;> cases he
    · exact .inr (.inr hi)
    · exact .inr hi
  | _ => cases hp; exact drives_of_frames (.inr (.inr (.inr (.inr (.inr (.inr ⟨_, rfl⟩)))))) h

/-- After its wait it drives DC and CS with its frames, if it does anything. -/
theorem drives_of_after {p : Plan} {w : Wait} {r : OutPin} {l : Level} (hp : planOf c s i = some p) (hw : p.wait = some w)
    (h : Micro.setPin r l ∈ w.after) : drives i r := by
  cases i with
  | init => cases hp; cases hw; exact drives_of_frames (.inr (.inr (.inl rfl))) h
  | init4Gray => cases hp; cases hw; exact drives_of_frames (.inr (.inr (.inr (.inl rfl)))) h
  | clear f => cases hp; cases hw; cases h
  | displayFrame => cases hp; cases hw; cases h
  | readBusy => cases hp; cases hw; cases h
  | _ => rw [(shape hp).noStart rfl] at hw; cases hw

/-- A write of a pin stands only on the lists of the operations that drive it. -/
theorem drives_of_item {p : Plan} {n k : Nat} {x : Level} {r : OutPin} {l : Level} (hp : planOf c s i = some p)
    (h : (p.items n x)[k]? = some (.setPin r l)) : drives i r := by
  rcases item_in h with hb | ⟨w, hw, _, h | h | h⟩
  · exact drives_of_before hp (List.mem_of_getElem? hb)
  · cases h
  · cases h
  · exact drives_of_after hp hw h

theorem get_set_other (p : Pins) {r r' : OutPin} (l : PinLevel) (h : r ≠ r') : (p.set r l).get r' = p.get r' := by
  cases r <;> cases r' <;> simp [Pins.set, Pins.get] at h ⊢

/-- An operation that neither drives a pin nor opens or closes the pins leaves its level alone (10_state.md R24). -/
theorem pin_kept (h : execWith c i s = .next t) (ha : i ≠ .acquire) (hr : i ≠ .release) {r : OutPin} (hd : ¬drives i r) :
    t.pins.get r = s.pins.get r := by
  refine execWith_keeps (P := fun x => x.pins.get r = s.pins.get r) h rfl (fun _ _ _ _ _ hx => hx) (fun hi => absurd hi ha)
    (fun _ _ _ => rfl) ?_
  intro p m e x y k n l hp hm hu hx
  show y.pins.get r = _
  rw [hu.pins, ← hx]
  cases m with
  | setPin r' l' =>
    refine get_set_other _ _ ?_
    rintro rfl
    exact hd (drives_of_item hp hm)
  | close => exact absurd (close_at hp hm).1 hr
  | _ => rfl

/-- Settles O52, by `pin_kept` for each pin. -/
theorem pinsHaveTheirWriters : Obligations.PinsHaveTheirWriters := by
  intro i s t h ha hr
  rw [← execWith_setup] at h
  refine ⟨fun h1 => ?_, fun h1 h2 h3 h4 => ?_, fun h1 h2 => ?_, fun h1 h2 => ?_⟩
  · refine pin_kept h ha hr (r := .power) ?_
    rintro (⟨l, hl⟩ | hi)
    exacts [h1 l hl, hr hi]
  · refine pin_kept h ha hr (r := .reset) ?_
    rintro (⟨l, hl⟩ | hi | hi | hi | hi)
    exacts [h1 l hl, hr hi, h2 hi, h3 hi, h4 hi]
  · refine pin_kept h ha hr (r := .dc) ?_
    rintro (⟨l, hl⟩ | hi | hi)
    exacts [h1 l hl, hr hi, h2 hi]
  · refine pin_kept h ha hr (r := .cs) ?_
    rintro (⟨l, hl⟩ | hi)
    exacts [h1 l hl, h2 hi]

/-! ## What no step undoes -/

/-- RELEASED stays (10_state.md R22). -/
theorem released_kept (h : execWith c i s = .next t) (hs : s.trState = .released) : t.trState = .released := by
  refine execWith_keeps (P := fun x => x.trState = .released) h hs (fun _ _ _ _ _ hx => hx) (fun _ hu => ?_)
    (fun _ _ _ => hs) ?_
  · rw [hs] at hu; cases hu
  · intro p m e x y k n l _ _ hu hx
    rw [hu.trState, hx, ite_self]

/-- Nothing goes back to UNACQUIRED (10_state.md R22). -/
theorem not_unacquired_kept (h : execWith c i s = .next t) (hs : s.trState ≠ .unacquired) : t.trState ≠ .unacquired := by
  refine execWith_keeps (P := fun x => x.trState ≠ .unacquired) h hs (fun _ _ _ _ _ hx => hx) (fun _ hu => absurd hu hs)
    (fun _ _ _ => hs) ?_
  intro p m e x y k n l _ _ hu hx
  rw [hu.trState]
  split
  · simp
  · exact hx

/-- The fault mark stays (60_exceptions.md R252). -/
theorem faultMark_kept (h : execWith c i s = .next t) (hs : s.faultMark = true) : t.faultMark = true := by
  refine execWith_keeps (P := fun x => x.faultMark = true) h hs (fun _ _ _ _ _ hx => hx) (fun _ _ => ?_) (fun _ _ _ => hs)
    (fun p m e x y k n l _ _ hu hx => hu.marked hx)
  rcases tryAcquire_cases s with h | h <;> rw [h] <;> exact hs

/-- What every step of an operation keeps, taking a move from the host's list keeps, and the host's own moves keep, every step
keeps. -/
theorem step_keeps {P : State → Prop} (h : step s = .next t) (hs : P s) (host : ∀ rest, P { s with host := rest })
    (exec : ∀ i x, P x → exec i x = .next t → P t) (only : ∀ x, P x → HostOnly x t → P t) : P t := by
  rcases step_cases h with ⟨i, _, _, _, he⟩ | ⟨_, ⟨i, rest, he⟩ | ⟨rest, hh⟩⟩
  · exact exec i s hs he
  · exact exec i _ (host rest) he
  · exact only _ (host rest) hh

/-- Settles O57: each of the three is kept by every step, by `step_keeps`. -/
theorem releasedAndFaultedAreForGood : Obligations.ReleasedAndFaultedAreForGood := by
  intro s t h
  refine ⟨fun hs => ?_, fun ht => ?_, fun hs => ?_⟩
  · refine step_keeps (P := fun x => x.trState = .released) h hs (fun _ => hs) (fun i x hx he => ?_) (fun x hx hh => ?_)
    · exact released_kept ((execWith_setup i x).trans he) hx
    · rw [hh.rest]; exact hx
  · by_contra hs
    refine step_keeps (P := fun x => x.trState ≠ .unacquired) h hs (fun _ => hs) (fun i x hx he => ?_) (fun x hx hh => ?_) ht
    · exact not_unacquired_kept ((execWith_setup i x).trans he) hx
    · rw [hh.rest]; exact hx
  · refine step_keeps (P := fun x => x.faultMark = true) h hs (fun _ => hs) (fun i x hx he => ?_) (fun x hx hh => ?_)
    · exact faultMark_kept ((execWith_setup i x).trans he) hx
    · rw [hh.rest]; exact hx

end Sys2Proof.Proofs
end

section
/-! PROOFS. A step counts one micro-operation and records one event; and the transition table of PD_STATE and PD_MODE, operation by
operation (spec/10_state.md R23, R26, R27, R40). -/

namespace Sys2Proof.Proofs

open Sys2Proof Sys2Proof.Machine Sys2Proof.Laws

variable {c : Setup} {i : Instr} {p : Plan} {s t : State} {k n : Nat}

/-! ## The position and the trace -/

/-- What a step of an operation records and where it leaves the position: at IDLE with one event at most, or one micro-operation and
one event further, the reads of BUSY counted beside them (10_state.md R23; log 1, log 12). -/
theorem execWith_position (h : execWith c i s = .next t) :
    t.pc = .idle ∧ (t.trace = s.trace ∨ ∃ e, t.trace = s.trace ++ [e]) ∨
    ∃ e k n, t.pc = .running i (k + 1) (n + readCount [e]) ∧ t.trace = s.trace ++ [e] ∧
      (s.pc = .idle ∧ k = 0 ∧ n = 0 ∨ s.pc = .running i k n) := by
  rcases execWith_stands h with ⟨_, e, rfl⟩ | ⟨_, _, _, rfl⟩ | ⟨_, rfl⟩ | ⟨_, _, o, buf, _, rfl⟩ | ⟨p, x, hp, hx, h⟩
  · exact .inl ⟨rfl, .inl rfl⟩
  · rcases tryAcquire_cases s with h | h <;> rw [h]
    · exact .inl ⟨rfl, .inr ⟨.opened, rfl⟩⟩
    · exact .inl ⟨rfl, .inl rfl⟩
  · exact .inl ⟨rfl, .inl rfl⟩
  · exact .inl ⟨rfl, .inl rfl⟩
  · have htrace : x.trace = s.trace := hx.running.2
    obtain ⟨k, n, hpc, hfrom⟩ : ∃ k n, x.pc = .running i k n ∧ (s.pc = .idle ∧ k = 0 ∧ n = 0 ∨ s.pc = .running i k n) := by
      rcases hx with ⟨hs, _, rfl⟩ | ⟨rfl, k, n, hs⟩
      · exact ⟨0, 0, rfl, .inl ⟨hs, rfl, rfl⟩⟩
      · exact ⟨k, n, hs, .inr hs⟩
    rcases performNext_performs h with ⟨_, rfl⟩ | ⟨m, e, u, hm, hu, hcase⟩
    · exact .inl ⟨rfl, .inl htrace⟩
    · have hevent : u.trace = s.trace ++ [e] := by rw [hu.trace, htrace]
      rcases hcase with ⟨_, _, rfl⟩ | ⟨hon, hmore, rfl⟩ | ⟨hout, rfl⟩
      · exact .inl ⟨rfl, .inr ⟨e, hevent⟩⟩
      · have hr : m ≠ .readPin := by
          rintro rfl
          exact hmore (readPin_ends hp hpc hm hon)
        exact .inr ⟨e, k, n, by rw [pc_of_micro_on hon hpc hr, hu.reads], hevent, hfrom⟩
      · exact .inl ⟨micro_out_pc hout, .inr ⟨e, hevent⟩⟩

/-- Settles O60, by `execWith_position`. -/
theorem positionCountsMicroOperations : Obligations.PositionCountsMicroOperations := by
  refine ⟨execWith_setup, fun c i s t h => ⟨fun op k n hp => ?_, fun hp => ?_⟩⟩
  · rcases execWith_position h with ⟨hidle, _⟩ | ⟨e, k', n', hpc, he, hfrom⟩
    · rw [hidle] at hp; cases hp
    · rw [hpc] at hp
      cases hp
      refine ⟨rfl, e, he, fun hs => ?_, fun op k n hs => ?_⟩ <;>
        rcases hfrom with ⟨hs', hk, hn⟩ | hs' <;> rw [hs'] at hs <;> cases hs
      · exact ⟨by rw [hk], by rw [hn, Nat.zero_add]⟩
      · exact ⟨rfl, rfl, rfl⟩
  · rcases execWith_position h with ⟨_, he⟩ | ⟨e, k, n, hpc, _⟩
    · exact he
    · rw [hpc] at hp; cases hp

/-- A step of an operation records one event at most (10_state.md R40). -/
theorem execWith_trace (h : execWith c i s = .next t) : t.trace = s.trace ∨ ∃ e, t.trace = s.trace ++ [e] := by
  rcases execWith_position h with ⟨_, he⟩ | ⟨e, _, _, _, he, _⟩
  · exact he
  · exact .inr ⟨e, he⟩

/-- Settles O56: an operation's step by `execWith_trace`; the host's own moves record nothing. -/
theorem traceOnlyGrows : Obligations.TraceOnlyGrows := by
  intro s t h
  rcases step_cases h with ⟨i, _, _, _, he⟩ | ⟨_, ⟨i, rest, he⟩ | ⟨rest, hh⟩⟩
  · exact execWith_trace ((execWith_setup i s).trans he)
  · exact execWith_trace (s := { s with host := rest }) ((execWith_setup i _).trans he)
  · exact .inl (by rw [hh.rest])

/-! ## PD_STATE and PD_MODE: where an operation moves them -/

theorem framesItems_head {fs : List Frame} (h : fs ≠ []) : ∃ r l ms, framesItems fs = .setPin r l :: ms := by
  obtain ⟨f, fs, rfl⟩ := List.exists_cons_of_ne_nil h
  exact ⟨_, _, _, framesItems_cons f fs⟩

/-- The operations that move them have a long list, which starts with a write of a pin (42_panel_sequences.md R162 to R165). -/
theorem before_of_moving (hp : planOf c s i = some p) (hi : pulses i ∨ refreshes i) :
    6 ≤ p.before.length ∧ ∃ r l ms, p.before = .setPin r l :: ms := by
  have len : ∀ b, waitStart c i = some b → 6 ≤ b → 6 ≤ p.before.length := fun b hb h6 => ((shape hp).start b hb).1 ▸ h6
  rcases hi with (rfl | rfl | rfl) | ⟨f, rfl⟩ | rfl
  · cases hp; exact ⟨Nat.le_refl 6, _, _, _, rfl⟩
  · exact ⟨len _ rfl (by omega), by cases hp; exact ⟨_, _, _, rfl⟩⟩
  · exact ⟨len _ rfl (by omega), by cases hp; exact ⟨_, _, _, rfl⟩⟩
  · refine ⟨len _ rfl (by omega), ?_⟩
    cases hp
    exact framesItems_head fun h => by simpa [h] using clearFrames_length f
  · refine ⟨len _ rfl (by omega), ?_⟩
    cases hp
    obtain ⟨r, l, ms, h⟩ := framesItems_head (fs := oldPlaneFrames) fun h => by simpa [h] using oldPlaneFrames_length
    exact ⟨r, l, _, by rw [displayPlan, refreshPlan, displayBefore, h, List.cons_append]⟩

/-- So their first step drives a pin and leaves them in flight. -/
theorem first_step_of_moving (hp : planOf c s i = some p) (hi : pulses i ∨ refreshes i)
    (ht : performNext p (s.start i p) = .next t) :
    t.pc = .running i 1 0 ∧ t.pdState = p.enter.state.getD s.pdState ∧ t.pdMode = p.enter.mode.getD s.pdMode := by
  obtain ⟨h6, r, l, ms, hb⟩ := before_of_moving hp hi
  have hne : ms ≠ [] := by
    rintro rfl
    simp [hb] at h6
  obtain ⟨rest, hrest, hd⟩ : ∃ rest, rest ≠ [] ∧ ((s.start i p).items p).drop 0 = .setPin r l :: rest :=
    ⟨ms ++ _, by simp [hne], by rw [State.items, Plan.items, hb, List.drop_zero, List.cons_append]⟩
  rw [performNext_cons (start_pc s i p) rfl hd, micro_setPin, resume_on, if_neg hrest] at ht
  cases ht
  exact ⟨rfl, rfl, rfl⟩

/-- Any other operation leaves both alone, but for the closing step of RELEASE (40_transport.md R126). -/
theorem panel_of_other {x : State} (hp : planOf c s i = some p) (hi : ¬pulses i) (hr : ¬refreshes i) (hx : StandsAt i p s x)
    (ht : performNext p x = .next t) :
    t.pdState = s.pdState ∧ t.pdMode = s.pdMode ∨
    i = .release ∧ t.trState = .released ∧ t.pc = .idle ∧ t.pdState = .poweredOff ∧ t.pdMode = .none := by
  have leave : p.leave = Mark.keep := by
    rcases (shape hp).leave with ⟨rfl, _⟩ | ⟨rfl, _⟩ | ⟨rfl, _⟩ | ⟨h, _⟩ | ⟨_, _, h⟩
    · exact absurd (.inl rfl) hi
    · exact absurd (.inr (.inl rfl)) hi
    · exact absurd (.inr (.inr rfl)) hi
    · exact absurd h hr
    · exact h
  have finish : ∀ u : State, (u.finish p).pdState = u.pdState ∧ (u.finish p).pdMode = u.pdMode :=
    fun u => by simp [leave, Mark.keep]
  have stand : x.pdState = s.pdState ∧ x.pdMode = s.pdMode := by
    rcases hx with ⟨_, _, rfl⟩ | ⟨rfl, _⟩
    · rcases (shape hp).enter with ⟨h, _⟩ | ⟨h, _⟩ | ⟨_, _, he⟩
      · exact absurd h hi
      · exact absurd h hr
      · simp [he, Mark.keep]
    · exact ⟨rfl, rfl⟩
  obtain ⟨⟨k, n, hpc⟩, _⟩ := hx.running
  rcases performNext_performs ht with ⟨_, rfl⟩ | ⟨m, e, u, hm, hu, hcase⟩
  · exact .inl (by rw [(finish x).1, (finish x).2]; exact stand)
  by_cases hc : m = .close
  · subst hc
    have hrel := (close_at hp hm).1
    rcases hcase with ⟨_, _, rfl⟩ | ⟨hon, hmore, rfl⟩ | ⟨hout, _⟩
    · exact .inr ⟨hrel, hu.trState, rfl, (finish u).1.trans hu.pdState, (finish u).2.trans hu.pdMode⟩
    · exact absurd (close_ends hp hpc hm hon) hmore
    · cases hout
  · have kept := hu.panel_kept hc (by
      rintro ms q rfl
      exact hi (.inr (sleepInto_at hp hm).2.2))
    have : u.pdState = s.pdState ∧ u.pdMode = s.pdMode := ⟨kept.1.trans stand.1, kept.2.trans stand.2⟩
    rcases hcase with ⟨_, _, rfl⟩ | ⟨_, _, rfl⟩ | ⟨_, rfl⟩
    · exact .inl (by rw [(finish u).1, (finish u).2]; exact this)
    · exact .inl this
    · exact .inl this

/-- A list that comes to its end after position `k` has come to its wait by then. -/
theorem before_done {n' : Nat} {l : Level} (hw : p.wait ≠ none) (h : (p.items n' l)[k + 1]? = none) : p.before.length ≤ k := by
  obtain ⟨w, hw⟩ := Option.ne_none_iff_exists'.1 hw
  have hlen := List.getElem?_eq_none_iff.1 h
  have hne : 1 ≤ (w.items n' l).length := List.length_pos_iff.2 (by
    rcases n' with _ | n' <;> cases l <;> simp [Wait.items])
  have hi : (p.items n' l).length = p.before.length + (w.items n' l).length := by simp [Plan.items, hw]
  omega

/-- A wait that nothing follows ends with a read (41_panel_primitives.md R144). -/
theorem wait_items_last {w : Wait} (ha : w.after = []) (n : Nat) (l : Level) : ∃ a, w.items n l = a ++ [.poll w.limit] := by
  rcases n with _ | n
  · exact ⟨[], rfl⟩
  · cases l
    · exact ⟨_, by rw [Wait.items, ha]⟩
    · exact ⟨_, rfl⟩

/-- So does a list that ends with it. -/
theorem last_is_poll {w : Wait} {l : Level} {m : Micro} (hw : p.wait = some w) (ha : w.after = [])
    (hm : (p.items n l)[k]? = some m) (hend : (p.items n l)[k + 1]? = none) : m = .poll w.limit := by
  obtain ⟨a, hwait⟩ := wait_items_last ha n l
  have hitems : p.items n l = (p.before ++ a) ++ [.poll w.limit] := by simp [Plan.items, hw, hwait]
  rw [hitems] at hm hend
  have hlt := (List.getElem?_eq_some_iff.1 hm).1
  have hge := List.getElem?_eq_none_iff.1 hend
  rw [List.length_append, List.length_singleton] at hlt hge
  obtain rfl : k = (p.before ++ a).length := by omega
  simpa using hm.symm

/-- A refresh that has come to the end of its list has read BUSY at 0 (42_panel_sequences.md R164, R165). -/
theorem Midway.rdval_of_refreshed {m : Micro} {e : Event} {u : State} (h : Midway c i p s k n) (hi : refreshes i)
    (hm : (p.items n s.rdval)[k]? = some m) (hu : Performs m e s u) (hon : micro m s = .on u)
    (hend : (u.items p)[u.pc.done]? = none) : u.rdval = .low := by
  obtain ⟨w, hw, ha⟩ : ∃ w, p.wait = some w ∧ w.after = [] := by
    have hp := h.plan
    rcases hi with ⟨f, rfl⟩ | rfl <;> cases hp <;> exact ⟨_, rfl, rfl⟩
  have hq : quiet m = false := by
    by_contra hq
    have hq : quiet m = true := by simpa using hq
    obtain ⟨hr, hpc⟩ := micro_on_quiet hq hon
    rw [State.items, hr, hpc, h.pc, advance_running, done_running, reads_running] at hend
    rw [last_is_poll hw ha hm hend] at hq
    cases hq
  have hr : m ≠ .readPin := by
    rintro rfl
    obtain ⟨rfl, _⟩ := readPin_at h.plan hm
    simp [refreshes] at hi
  obtain ⟨_, _, _, _, rfl, _⟩ := h.poll_position hm hq hr
  rw [State.items, pc_of_micro_on hon h.pc hr, hq, done_running, reads_running] at hend
  cases hl : u.rdval with
  | low => rfl
  | high =>
    rw [hl] at hend
    exact absurd ((items_pause hw n).symm.trans hend) (by simp)

/-- The moves of an operation that pulses RESET or refreshes, past its first micro-operation (10_state.md R26, R27). -/
theorem Midway.moves (h : Midway c i p s k n) (hi : pulses i ∨ refreshes i) (hk : k < (p.items n s.rdval).length)
    (ht : performNext p s = .next t) :
    t.pdState = s.pdState ∧ t.pdMode = s.pdMode ∨
    i = .reset ∧ s.pdState = .resetting ∧ t.pc = .idle ∧ t.pdState = .idle ∧ t.pdMode = .none ∨
    (i = .init ∨ i = .init4Gray) ∧ s.pdState = .resetting ∧ t.pc = .running i 6 0 ∧ t.pdState = .configuring ∧
      t.pdMode = .none ∨
    (i = .init ∨ i = .init4Gray) ∧ s.pdState = .configuring ∧ t.pc = .idle ∧ t.pdState = .idle ∧
      t.pdMode = (if i = .init then .standard else .gray4) ∨
    refreshes i ∧ s.pdState = .refreshing ∧ t.pc = .idle ∧ t.rdval = .low ∧ t.pdState = .idle ∧ t.pdMode = s.pdMode := by
  obtain ⟨hitems, hdone⟩ := h.items
  obtain ⟨reset, init, refresh⟩ := h.panel
  rcases performNext_performs ht with ⟨hnone, _⟩ | ⟨m, e, u, hm, hu, hcase⟩
  · rw [hitems, hdone, List.getElem?_eq_none_iff] at hnone
    omega
  rw [hitems, hdone] at hm
  have hc : m ≠ .close := by
    rintro rfl
    obtain ⟨rfl, _⟩ := close_at h.plan hm
    simp [pulses, refreshes] at hi
  have hwait : i = .init ∨ i = .init4Gray → p.wait ≠ none := by
    rintro (rfl | rfl) <;> exact ((shape h.plan).start _ rfl).2
  by_cases hs : ∃ ms q, m = .sleepInto ms q
  · obtain ⟨ms, q, rfl⟩ := hs
    obtain ⟨rfl, rfl, hinit⟩ := sleepInto_at h.plan hm
    obtain ⟨hstate, hmode⟩ := init hinit
    have h6 := (before_of_moving h.plan hi).1
    have hn : n = 0 := by rcases h.reads with hn | hn <;> omega
    subst hn
    have hpu : micro (.sleepInto ms .configuring) s = .on u → u.pc = .running i 6 0 :=
      fun hon => pc_of_micro_on hon h.pc (by simp)
    rcases hcase with ⟨hon, hend, _⟩ | ⟨hon, _, rfl⟩ | ⟨hout, _⟩
    · rw [State.items, hpu hon] at hend
      have := before_done (hwait hinit) hend
      omega
    · exact .inr (.inr (.inl ⟨hinit, by simpa using hstate, hpu hon, hu.pdState, by rw [hu.pdMode, if_neg hc, hmode]⟩))
    · cases hout
  · obtain ⟨hstate, hmode⟩ := hu.panel_kept hc fun ms q hq => hs ⟨ms, q, hq⟩
    rcases hcase with ⟨hon, hend, rfl⟩ | ⟨_, _, rfl⟩ | ⟨_, rfl⟩
    · have configuring : i = .init ∨ i = .init4Gray → s.pdState = .configuring := by
        intro hinit
        have hr : m ≠ .readPin := by
          rintro rfl
          obtain ⟨rfl, _⟩ := readPin_at h.plan hm
          simp at hinit
        rw [State.items, pc_of_micro_on hon h.pc hr, done_running] at hend
        have h6 := (before_of_moving h.plan hi).1
        have hk := before_done (hwait hinit) hend
        rw [(init hinit).1, if_neg (by omega)]
      rcases (shape h.plan).leave with ⟨hr, hl⟩ | ⟨hr, hl⟩ | ⟨hr, hl⟩ | ⟨hr, hl⟩ | ⟨h1, h2, _⟩
      · exact .inr (.inl ⟨hr, (reset hr).1, rfl, by simp [hl], by simp [hl, hmode, (reset hr).2]⟩)
      · exact .inr (.inr (.inr (.inl ⟨.inl hr, configuring (.inl hr), rfl, by simp [hl], by simp [hl, hr]⟩)))
      · exact .inr (.inr (.inr (.inl ⟨.inr hr, configuring (.inr hr), rfl, by simp [hl], by simp [hl, hr]⟩)))
      · have hlow : u.rdval = .low := h.rdval_of_refreshed hr hm hu hon hend
        exact .inr (.inr (.inr (.inr ⟨hr, (refresh hr).1, rfl, (finish_rdval u p).trans hlow, by simp [hl],
          by simp [hl, hmode]⟩)))
      · exact absurd hi (not_or.2 ⟨h1, h2⟩)
    · exact .inl ⟨hstate, hmode⟩
    · exact .inl ⟨hstate, hmode⟩

/-- Settles O53: `first_step_of_moving` from IDLE, `Midway.moves` in flight, `panel_of_other` for every other operation. -/
theorem panelStateMovesOnlyAsTabled : Obligations.PanelStateMovesOnlyAsTabled := by
  intro i s t h ht
  rw [← execWith_setup] at ht
  rcases execWith_stands ht with ⟨_, e, rfl⟩ | ⟨_, _, _, rfl⟩ | ⟨_, rfl⟩ | ⟨_, _, o, buf, _, rfl⟩ | ⟨p, x, hp, hx, hn⟩
  · exact .inl ⟨rfl, rfl⟩
  · rcases tryAcquire_cases s with h | h <;> rw [h] <;> exact .inl ⟨rfl, rfl⟩
  · exact .inl ⟨rfl, rfl⟩
  · exact .inl ⟨rfl, rfl⟩
  by_cases hi : pulses i ∨ refreshes i
  · rcases hx with ⟨hs, ha, rfl⟩ | ⟨rfl, k, n, hs⟩
    · obtain ⟨hpc, hstate, hmode⟩ := first_step_of_moving hp hi hn
      rcases (shape hp).enter with ⟨hpulse, he⟩ | ⟨hrefresh, he⟩ | ⟨h1, h2, _⟩
      · exact .inr (.inl ⟨hpulse, hs, hpc, by rw [hstate, he]; rfl, by rw [hmode, he]; rfl⟩)
      · exact .inr (.inr (.inr (.inr (.inr (.inl
          ⟨hrefresh, (ha.ready hrefresh).1, hs, hpc, by rw [hstate, he]; rfl, by rw [hmode, he]; rfl⟩)))))
      · exact absurd hi (not_or.2 ⟨h1, h2⟩)
    · obtain ⟨hmid, _, hk⟩ := midway_of_inv h hs hp
      rcases hmid.moves hi hk hn with hkept | hreset | hpulse | hinit | hrefresh
      · exact .inl hkept
      · exact .inr (.inr (.inl hreset))
      · exact .inr (.inr (.inr (.inl hpulse)))
      · exact .inr (.inr (.inr (.inr (.inl hinit))))
      · exact .inr (.inr (.inr (.inr (.inr (.inr (.inl hrefresh))))))
  · rcases panel_of_other hp (fun hp => hi (.inl hp)) (fun hr => hi (.inr hr)) hx hn with hkept | hrelease
    · exact .inl hkept
    · exact .inr (.inr (.inr (.inr (.inr (.inr (.inr hrelease))))))

end Sys2Proof.Proofs
end

section
/-! PROOFS. The first read of BUSY of a wait, when it answers 1; and the wire view of a trace (spec/41_panel_primitives.md R144, R145;
spec/42_panel_sequences.md R162 to R165; spec/10_state.md R41). -/

namespace Sys2Proof.Proofs

open Sys2Proof Sys2Proof.Machine Sys2Proof.Laws

/-! ## A first read of 1 -/

/-- The state after a first read of 1 and its sleep, or under a bound of one read the timeout (41_panel_primitives.md R144, R145). -/
def afterFirstRead (limit : Option Nat) (i : Instr) (k : Nat) (s : State) : State :=
  let read : State := { s with rdval := .high, busy := s.busy.skip 1, trace := s.trace ++ [.pinRead .high] }
  if limit = some 1 then { read with err := .panelTimeout, faultMark := true, pc := .idle }
  else { read with trace := read.trace ++ [.sleep 200], pc := .running i (k + 2) 1 }

/-- An operation whose list goes through up to its wait, and whose first read answers 1. -/
theorem run_first_read {c : Setup} {i : Instr} {p : Plan} {w : Wait} {s u : State} (h : planOf c s i = some p)
    (hw : p.wait = some w) (hp : s.pc = .idle) (ha : Accepts i s) (hq : ∀ m ∈ p.before, quiet m = true)
    (hu : perform p.before (s.start i p) = .on u) (hpu : u.pc = .running i p.before.length 0) (hLu : u.bufLen = s.bufLen)
    (hb : u.busyAt 0 = .high) :
    runWith c (p.before.length + 2) i s = .next (afterFirstRead w.limit i p.before.length u) := by
  have hd : p.items 0 s.rdval = p.before ++ [.poll w.limit] := by simp [Plan.items, hw, Wait.items]
  have hpu' : u.pc = .running i (p.before.length + 2 * 0) 0 := hpu
  rw [run_stretch h hp ha hq hd (by simp) 2 (by omega), hu, resume_on]
  by_cases hl : w.limit = some 1
  · rw [untilEnd_end (turn_poll_timeout (stepOf_execWith h) hw hpu' hLu (.inl rfl) hb hl) rfl]
    simp [afterFirstRead, hl, afterRead, hb]
  · rw [untilEnd_poll_high (stepOf_execWith h) hw hpu' hLu (.inl rfl) hb hl 0, untilEnd_zero]
    simp [afterFirstRead, hl, afterPolls]

/-- CLEAR and DISPLAYFRAME, ready, with BUSY at 1 after the refresh command (42_panel_sequences.md R164, R165). -/
theorem run_refresh_busy {i : Instr} {before : List Micro} {s : State} {es : List Event}
    (hpl : planOf Config.setup s i = some (refreshPlan Config.setup.pollLimit before)) (hp : s.pc = .idle) (ha : Accepts i s)
    (hb : s.busyAt 0 = .high)
    (hon : ∀ x : State, x.buf = s.buf → x.spiOk = s.spiOk → perform before x = .on { x with
      pins := { x.pins with dc := .driven .low, cs := .driven .high }, trace := x.trace ++ es, spiOk := x.spiOk.skip 11619,
      pc := advanceBy before.length x.pc }) :
    runOp (before.length + 2) i s = .next (afterFirstRead Config.setup.pollLimit i before.length { s with
      pins := { s.pins with dc := .driven .low, cs := .driven .high }, pdState := .refreshing, spiOk := s.spiOk.skip 11619,
      trace := s.trace ++ es, pc := .running i before.length 0 }) := by
  have hq : ∀ m ∈ before, quiet m = true := by
    rcases (shape hpl).before with h | ⟨_, hn, _⟩
    · exact h
    · cases hn
  rw [runOp_eq]
  refine (run_first_read hpl rfl hp ha hq (hon (s.start i _) rfl rfl) ?_ rfl hb).trans ?_
  · simp [refreshPlan]
  · simp [refreshPlan, State.start, State.begin, State.mark]

/-- INIT and INIT4GRAY with BUSY at 1 after POWER_ON (42_panel_sequences.md R162, R163). -/
theorem run_init_busy {i : Instr} {after : List Micro} {leave : Mark} {s : State}
    (hpl : planOf Config.setup s i =
      some ⟨pulseMark, initBefore Config.setup, some ⟨Config.setup.pollLimit, after⟩, leave⟩)
    (hp : s.pc = .idle) (ha : Accepts i s) (hb : s.busyAt 0 = .high)
    (hspi : ∀ n < (initFrames Config.setup).length, s.spiAt n = true) :
    runOp (6 + 4 * (initFrames Config.setup).length + 2) i s =
      .next (afterFirstRead Config.setup.pollLimit i (6 + 4 * (initFrames Config.setup).length) { s with
        pins := { s.pins with reset := .driven .high, dc := .driven .low, cs := .driven .high },
        pdState := .configuring, pdMode := .none, trace := s.trace ++ pulseEvents ++ framesEvents (initFrames Config.setup),
        spiOk := s.spiOk.skip (initFrames Config.setup).length,
        pc := .running i (6 + 4 * (initFrames Config.setup).length) 0 }) := by
  rw [runOp_eq, ← initBefore_length]
  refine (run_first_read hpl rfl hp ha (quiet_initBefore _) (initBefore_on (s := s.start i _) hspi) ?_ rfl hb).trans ?_
  · simp [initBefore_length]
  · simp [State.start, State.begin, State.mark, pulseMark, initBefore_length]

/-- Settles O35, by `run_refresh_busy` and `run_init_busy`. -/
theorem sequencesWaitWhileBusy : Obligations.SequencesWaitWhileBusy := by
  intro s hp hacq hb
  refine ⟨fun hidle hmode hspi => ⟨fun f => ?_, fun bytes hlen hbytes hbuf => ?_⟩, fun hspi i hi => ?_⟩
  · have ha : Accepts (.clear f) s := ⟨fun _ => hacq, fun _ => ⟨hidle, hmode⟩, by simp, by simp⟩
    have hlen : (framesItems (clearFrames f)).length = 46476 := by rw [framesItems_length, clearFrames_length]
    have h := run_refresh_busy (i := .clear f) rfl hp ha hb (before := framesItems (clearFrames f))
      (es := framesEvents (clearFrames f)) (fun x _ hx => by
        rw [hlen]; exact clearBefore_on fun n hn => by rw [State.spiAt, hx]; exact hspi n hn)
    rw [hlen] at h
    rw [h, afterFirstRead]
    split
    · rw [← hp]; rfl
    · rfl
  · have ha : Accepts .displayFrame s := ⟨fun _ => hacq, fun _ => ⟨hidle, hmode⟩, fun _ => hlen, by simp⟩
    have h := run_refresh_busy (i := .displayFrame) rfl hp ha hb (before := displayBefore)
      (es := framesEvents oldPlaneFrames ++ [.sleep settleTime] ++ framesEvents (seqFrames [⟨0x13, bytes⟩, ⟨0x12, []⟩]))
      (fun x hx hx' => by
        rw [displayBefore_length, ← List.append_assoc, ← List.append_assoc]
        exact displayBefore_on hbytes (fun k hk => by rw [hx]; exact hbuf k hk)
          fun n hn => by rw [State.spiAt, hx']; exact hspi n hn)
    rw [displayBefore_length] at h
    rw [h, afterFirstRead]
    simp only [← List.append_assoc]
    split
    · rw [← hp]; rfl
    · rfl
  · have ha : Accepts i s := by
      rcases hi with rfl | rfl <;> exact ⟨fun _ => hacq, by simp, by simp, by simp⟩
    obtain ⟨after, leave, hpl⟩ : ∃ after leave, planOf Config.setup s i =
        some ⟨pulseMark, initBefore Config.setup, some ⟨Config.setup.pollLimit, after⟩, leave⟩ := by
      rcases hi with rfl | rfl <;> exact ⟨_, _, rfl⟩
    rw [run_init_busy hpl hp ha hb hspi, afterFirstRead]
    split
    · rw [← hp]
    · rfl

/-! ## The wire view -/

/-- The level of a pin after one more event, `p` before it (10_state.md R41). -/
def track (r : OutPin) (p : PinLevel) : Event → PinLevel
  | .pinWrite r' l => if r' = r then .driven l else p
  | _ => p

/-- The last level of a pin is tracked from unknown on. -/
theorem lastLevel_eq (r : OutPin) (es : List Event) : lastLevel r es = es.foldl (track r) .unknown := by
  unfold lastLevel
  refine congrArg (fun f => List.foldl f PinLevel.unknown es) ?_
  funext p e
  cases e <;> rfl

/-- The wire view of one trace after another: the second from the levels the first leaves. -/
theorem wireFrom_append (dc cs : PinLevel) (es es' : List Event) :
    wireFrom dc cs (es ++ es') = wireFrom dc cs es ++ wireFrom (es.foldl (track .dc) dc) (es.foldl (track .cs) cs) es' := by
  induction es generalizing dc cs with
  | nil => rfl
  | cons e es ih =>
    cases e with
    | pinWrite r l => cases r <;> exact ih _ _
    | spiWrite b =>
      rcases dc with _ | d
      · exact ih _ _
      · rcases cs with _ | (_ | _)
        · exact ih _ _
        · exact congrArg (List.cons (⟨d, b⟩ : Frame)) (ih _ _)
        · exact ih _ _
    | _ => exact ih _ _

/-- The wire view of one more byte after a trace, from the last levels of DC and CS in it. -/
theorem wireView_spiWrite (es : List Event) (b : Byte) :
    wireView (es ++ [.spiWrite b]) = wireView es ++ wireFrom (lastLevel .dc es) (lastLevel .cs es) [.spiWrite b] := by
  rw [wireView, wireFrom_append, lastLevel_eq, lastLevel_eq, wireView]

/-- The wire view of frames sent whole is the frames, whatever the levels before them (30_encoding.md R91). -/
theorem wireFrom_framesEvents (fs : List Frame) (dc cs : PinLevel) : wireFrom dc cs (framesEvents fs) = fs := by
  induction fs generalizing dc cs with
  | nil => rfl
  | cons f fs ih => exact congrArg (List.cons f) (ih (.driven f.dc) (.driven .high))

/-- Settles O49, by `wireFrom_framesEvents` and `wireView_spiWrite`. -/
theorem wireViewOfFramesIsTheFrames : Obligations.WireViewOfFramesIsTheFrames := by
  refine ⟨wireFrom_framesEvents, fun es b => ⟨fun d hdc hcs => ?_, fun h => ?_⟩⟩
  · rw [wireView_spiWrite, hdc, hcs]
    rfl
  · rw [wireView_spiWrite]
    rcases h with hcs | hcs | hdc
    · rw [hcs]
      cases lastLevel .dc es <;> exact List.append_nil _
    · rw [hcs]
      cases lastLevel .dc es <;> exact List.append_nil _
    · rw [hdc]
      exact List.append_nil _

end Sys2Proof.Proofs
end

section
/-! PROOFS. The state after reset, the STATUS word, and the host's port (spec/10_state.md R23, R29 to R34, R42; spec/20_memory.md R65,
R66; spec/60_exceptions.md R240). -/

namespace Sys2Proof.Proofs

open Sys2Proof Sys2Proof.Machine Sys2Proof.Laws

/-! ## Reset and STATUS -/

/-- Settles O8: each field as `State.reset` writes it; the host makes no move. -/
theorem resetLeavesTheStatedValues : Obligations.ResetLeavesTheStatedValues :=
  ⟨rfl, rfl, rfl, rfl, rfl, fun r => by cases r <;> rfl, rfl, rfl, rfl, fun _ => rfl, fun _ => rfl, rfl, rfl,
    step_idle_nil rfl rfl⟩

/-- A word packed as STATUS, as a number (10_state.md R32). -/
theorem toNat_packed (rdval : BitVec 1) (mode : BitVec 2) (pd : BitVec 3) (rel acq : BitVec 1) (err : BitVec 8) :
    (0#16 ++ rdval ++ mode ++ pd ++ rel ++ acq ++ err : Word).toNat =
      rdval.toNat * 32768 + mode.toNat * 8192 + pd.toNat * 1024 + rel.toNat * 512 + acq.toNat * 256 + err.toNat := by
  have cat : ∀ {m n : Nat} (a : BitVec m) (b : BitVec n), (a ++ b).toNat = a.toNat * 2 ^ n + b.toNat := fun a b => by
    rw [BitVec.toNat_append, ← Nat.shiftLeft_add_eq_or_of_lt b.isLt, Nat.shiftLeft_eq]
  rw [cat, cat, cat, cat, cat, cat, BitVec.toNat_ofNat]
  omega

/-- Where its fields stand. -/
theorem packed_fields (rdval : BitVec 1) (mode : BitVec 2) (pd : BitVec 3) (rel acq : BitVec 1) (err : BitVec 8) :
    let w : Word := 0#16 ++ rdval ++ mode ++ pd ++ rel ++ acq ++ err
    w.extractLsb' 0 8 = err ∧ w.extractLsb' 8 1 = acq ∧ w.extractLsb' 9 1 = rel ∧ w.extractLsb' 10 3 = pd ∧
      w.extractLsb' 13 2 = mode ∧ w.extractLsb' 15 1 = rdval ∧ w.extractLsb' 16 16 = 0 := by
  intro w
  have hw : w.toNat = _ := toNat_packed rdval mode pd rel acq err
  have h1 := rdval.isLt
  have h2 := mode.isLt
  have h3 := pd.isLt
  have h4 := rel.isLt
  have h5 := acq.isLt
  have h6 := err.isLt
  have field : ∀ {n : Nat} (k : Nat) (v : BitVec n), w.toNat / 2 ^ k % 2 ^ n = v.toNat → w.extractLsb' k n = v := by
    intro n k v h
    apply BitVec.eq_of_toNat_eq
    rw [BitVec.extractLsb'_toNat, Nat.shiftRight_eq_div_pow, h]
  exact ⟨field 0 err (by omega), field 8 acq (by omega), field 9 rel (by omega), field 10 pd (by omega),
    field 13 mode (by omega), field 15 rdval (by omega), field 16 0#16 (by rw [BitVec.toNat_zero]; omega)⟩

/-- A field of one bit, as the bit. -/
theorem getLsbD_of_field {w : Word} {k : Nat} {b : BitVec 1} (h : w.extractLsb' k 1 = b) : w.getLsbD k = b.getLsbD 0 := by
  simp [← h]

/-- Settles O9: the place of each field by `packed_fields`, its code by cases. -/
theorem statusWordHoldsItsFields : Obligations.StatusWordHoldsItsFields := by
  intro s
  obtain ⟨herr, hacq, hrel, hpd, hmode, hrdval, hzero⟩ :=
    packed_fields s.rdval.bit s.pdMode.code s.pdState.code s.trState.relBit s.trState.acqBit s.err.code
  refine ⟨herr, (getLsbD_of_field hacq).trans ?_, (getLsbD_of_field hrel).trans ?_, hpd.trans ?_, hmode.trans ?_,
    (getLsbD_of_field hrdval).trans ?_, hzero, ?_⟩
  · cases s.trState <;> rfl
  · cases s.trState <;> rfl
  · cases s.pdState <;> rfl
  · cases s.pdMode <;> rfl
  · cases s.rdval <;> rfl
  · cases s.err <;> rfl

/-! ## A step from IDLE, move by move -/

variable {s : State} {rest : List HostMove}

theorem step_read {space : Space} {index : Nat} (hp : s.pc = .idle) (hh : s.host = .read space index :: rest) :
    step s = hostRead space index { s with host := rest } :=
  step_idle_done hp hh (by simp only [hostMove, hp])

theorem step_writeReg {index : Nat} {v : Word} (hp : s.pc = .idle) (hh : s.host = .writeReg (index + 1) v :: rest) :
    step s = hostWriteReg (index + 1) v { s with host := rest } :=
  step_idle_done hp hh (by simp only [hostMove, hp])

theorem step_writeBuf {index : Nat} {v : Byte} (hp : s.pc = .idle) (hh : s.host = .writeBuf index v :: rest) :
    step s = hostWriteBuf index v { s with host := rest } :=
  step_idle_done hp hh (by simp only [hostMove, hp])

theorem step_writeImg {index : Nat} {v : Pixel} (hp : s.pc = .idle) (hh : s.host = .writeImg index v :: rest) :
    step s = hostWriteImg index v { s with host := rest } :=
  step_idle_done hp hh (by simp only [hostMove, hp])

/-- Settles O7: what the host's move issues is run, and an operation in flight goes on. -/
theorem stepRunsTheDecodedInstruction : Obligations.StepRunsTheDecodedInstruction := by
  intro s i
  refine ⟨fun w rest hp hh hw => ?_, fun fs rest hp hh hf => ?_, fun k n hp => step_running hp⟩
  · exact step_idle_run hp hh (by simp only [hostMove, hp, issueWord, hw])
  · exact step_idle_run hp hh (by simp only [hostMove, hp, issueEntry, hf])

/-! ## Registers -/

theorem hostRead_reg {index : Nat} {v : Word} (h : s.register index = some v) :
    hostRead .reg index s = .next { s with hostData := v } := by
  simp only [hostRead, h]

/-- A register index from 5 up names nothing (20_memory.md R66). -/
theorem register_reserved (s : State) {index : Nat} (h : 5 ≤ index) : s.register index = none := by
  obtain ⟨n, rfl⟩ := Nat.exists_eq_add_of_le' h
  rfl

/-- Settles O10, index by index. -/
theorem hostSeesTheRegisterMap : Obligations.HostSeesTheRegisterMap := by
  intro s index rest hp
  refine ⟨fun hh => ?_, fun v hh => ⟨?_, fun h5 => ?_⟩⟩
  · rw [step_read hp hh]
    refine ⟨?_, ?_, ?_, ?_, ?_, fun h5 => ?_⟩
    · rintro rfl; exact hostRead_reg rfl
    · rintro rfl; exact hostRead_reg rfl
    · rintro rfl; exact hostRead_reg rfl
    · rintro rfl; exact hostRead_reg rfl
    · rintro rfl; exact hostRead_reg rfl
    · simp only [hostRead, register_reserved _ h5]
  · rintro rfl
    exact step_writeReg hp hh
  · obtain ⟨n, rfl⟩ := Nat.exists_eq_add_of_le' h5
    exact step_writeReg hp hh

/-- A 16-bit value stands in the low bits of a wider one (log 8). -/
theorem low16_zeroExtend (v : BitVec 16) : (v.zeroExtend 32).extractLsb' 0 16 = v := by
  apply BitVec.eq_of_toNat_eq
  have h := v.isLt
  simp
  omega

/-- A write of a register and then a read of it, where the write leads to `u` and the register reads as `x` there. -/
theorem steps_write_read {s u : State} {index : Nat} {v x : Word} {rest : List HostMove} (hp : s.pc = .idle)
    (hh : s.host = .writeReg (index + 1) v :: .read .reg (index + 1) :: rest)
    (hu : hostWriteReg (index + 1) v { s with host := .read .reg (index + 1) :: rest } = .next u) (hpu : u.pc = .idle)
    (hhu : u.host = .read .reg (index + 1) :: rest) (hx : State.register { u with host := rest } (index + 1) = some x) :
    steps 2 s = .next { u with host := rest, hostData := x } := by
  rw [steps_succ ((step_writeReg hp hh).trans hu), steps_succ ((step_read hpu hhu).trans (hostRead_reg hx)), steps_zero]

/-- Settles O11: a write of the register, then a read. -/
theorem sixteenBitRegistersReadBack : Obligations.SixteenBitRegistersReadBack := by
  intro s index v rest h2 h4 hp hh
  have hindex : index = 2 ∨ index = 3 ∨ index = 4 := by omega
  rcases hindex with rfl | rfl | rfl
  · refine ⟨_, steps_write_read (u := { s with host := .read .reg 2 :: rest, bufLen := v }) hp hh ?_ hp rfl rfl, ?_⟩
    · rw [hostWriteReg, low16_zeroExtend]
    · exact ⟨rfl, rfl, rfl, rfl, rfl, rfl, rfl, rfl, rfl⟩
  · refine ⟨_, steps_write_read (u := { s with host := .read .reg 3 :: rest, imgW := v }) hp hh ?_ hp rfl rfl, ?_⟩
    · rw [hostWriteReg, low16_zeroExtend]
    · exact ⟨rfl, rfl, rfl, rfl, rfl, rfl, rfl, rfl, rfl⟩
  · refine ⟨_, steps_write_read (u := { s with host := .read .reg 4 :: rest, imgH := v }) hp hh ?_ hp rfl rfl, ?_⟩
    · rw [hostWriteReg, low16_zeroExtend]
    · exact ⟨rfl, rfl, rfl, rfl, rfl, rfl, rfl, rfl, rfl⟩

/-! ## Entries -/

/-- Settles O12, by the laws of reading after writing; an index out of range takes the other branch of the access. -/
theorem hostWritesAndReadsEntries : Obligations.HostWritesAndReadsEntries := by
  intro s index rest hp
  refine ⟨fun b hh hi => ?_, fun p hh hi => ?_, fun b hh hi hr => ?_, fun p hh hi hr => ?_, fun b hh hi => ?_,
    fun p hh hi => ?_, fun hh hi => ?_, fun hh hi => ?_⟩
  · refine ⟨_, (step_writeBuf hp hh).trans (if_neg (Nat.not_le.2 hi)), read_write_same _ _ _,
      fun a ha => read_write_other _ _ ha, rfl⟩
  · refine ⟨_, (step_writeImg hp hh).trans (if_neg (Nat.not_le.2 hi)), read_write_same _ _ _,
      fun a ha => read_write_other _ _ ha, rfl⟩
  · rw [step_read hp hh]
    simp only [hostRead, bufCap, Nat.not_le.2 hi, if_false, hr]
  · rw [step_read hp hh]
    simp only [hostRead, imgCap, Nat.not_le.2 hi, if_false, hr]
  · exact (step_writeBuf hp hh).trans (if_pos hi)
  · exact (step_writeImg hp hh).trans (if_pos hi)
  · exact (step_read hp hh).trans (if_pos hi)
  · exact (step_read hp hh).trans (if_pos hi)

end Sys2Proof.Proofs
end

section
/-! PROOFS. Who writes BUF, BUF_LEN, IMG and the host's registers, what is accepted while an operation is in flight, and the
refusal at an entry that nothing has written (spec/20_memory.md R60, R64, R66, R67, R71; spec/10_state.md R31, R34). -/

namespace Sys2Proof.Proofs

open Sys2Proof Sys2Proof.Machine Sys2Proof.Laws

/-! ## While an operation is in flight -/

/-- An operation without a list, ACQUIRE, ENCODE or one of a role it rejects, is never in flight, and not accepted while another
is (20_memory.md R66, R68 b). -/
theorem execWith_no_list {c : Setup} {i op : Instr} {s : State} {k n : Nat} (h : planOf c s i = none)
    (hp : s.pc = .running op k n) : execWith c i s = .refused .untimely := by
  cases i with
  | acquire => exact needIdle_running hp _
  | encode => exact needIdle_running hp _
  | setPin r l => cases r <;> cases h; exact needIdle_running hp _
  | readPin r => cases r <;> cases h <;> exact needIdle_running hp _
  | _ => cases h

/-- Settles O13: an operation with a list is not the one in flight, by `operate_other`; the rest by `execWith_no_list`. -/
theorem nothingIsAcceptedWhileAnOperationIsInFlight : Obligations.NothingIsAcceptedWhileAnOperationIsInFlight := by
  intro i s op k n hp hi
  rw [← execWith_setup]
  cases hpl : planOf Config.setup s i with
  | none => exact execWith_no_list hpl hp
  | some p =>
    have hop : op ≠ i := by
      rcases hi with h | rfl | rfl | ⟨l, rfl⟩ | ⟨r, rfl, hr⟩
      · exact h.symm
      · cases hpl
      · cases hpl
      · cases hpl
      · cases r <;> cases hpl
        exact absurd rfl hr
    obtain ⟨check, he, _⟩ := exec_eq_operate hpl
    rw [he, operate_other hp hop]

/-! ## What the host alone writes -/

/-- The part of the state that only the host's own moves write: IMG, IMG_W, IMG_H (10_state.md R31, R34), and the model's own
fields of the host (log 2, log 3). -/
def hostSide (s : State) : List (Nat × Pixel) × BitVec 16 × BitVec 16 × List HostMove × Word :=
  (s.img, s.imgW, s.imgH, s.host, s.hostData)

theorem shiftOut_hostSide (b : Byte) (s : State) : FlowAll (fun t => hostSide t = hostSide s) (s.shiftOut b) := by
  rcases shiftOut_cases b s with ⟨_, h⟩ | ⟨_, h⟩ <;> rw [h] <;> rfl

/-- No micro-operation writes it. -/
theorem micro_hostSide (m : Micro) (s : State) : FlowAll (fun t => hostSide t = hostSide s) (micro m s) := by
  cases m with
  | spiWrite b => exact shiftOut_hostSide b s
  | spiBuf k =>
    cases hb : Memory.read s.buf k with
    | none => rw [spiBuf_none hb]; trivial
    | some b => rw [spiBuf_some hb]; exact shiftOut_hostSide b s
  | poll l => rcases poll_cases l s with ⟨h, _⟩ | ⟨_, _, h⟩ <;> rw [micro_poll, h] <;> rfl
  | _ => rfl

theorem performNext_hostSide {p : Plan} {s t : State} (h : performNext p s = .next t) : hostSide t = hostSide s := by
  rcases performNext_next h with ⟨_, rfl⟩ | ⟨m, _, hm⟩
  · rfl
  · have hk := micro_hostSide m s
    rcases hm with ⟨u, hu, rfl⟩ | hu
    · rw [hu] at hk
      rcases settle_cases u p with ⟨_, hs⟩ | ⟨_, hs⟩ <;> rw [hs] <;> exact hk
    · rw [hu] at hk
      exact hk

section
variable {c : Setup} {i : Instr} {s t : State}

/-- No operation writes it (20_memory.md R64). -/
theorem execWith_hostSide (h : execWith c i s = .next t) : hostSide t = hostSide s := by
  rcases execWith_stands h with ⟨_, e, rfl⟩ | ⟨_, _, _, rfl⟩ | ⟨_, rfl⟩ | ⟨_, _, o, buf, _, rfl⟩ | ⟨p, x, _, hx, hn⟩
  · rfl
  · rcases tryAcquire_cases s with h | h <;> rw [h] <;> rfl
  · rfl
  · rfl
  · rw [performNext_hostSide hn]
    rcases hx with ⟨_, _, rfl⟩ | ⟨rfl, _⟩ <;> rfl

/-! ## BUF and BUF_LEN -/

/-- No operation but ENCODE writes BUF or BUF_LEN (20_memory.md R64). -/
theorem buffer_kept (h : execWith c i s = .next t) (hi : i ≠ .encode) : t.bufLen = s.bufLen ∧ t.buf = s.buf := by
  refine execWith_keeps (P := fun x => x.bufLen = s.bufLen ∧ x.buf = s.buf) h ⟨rfl, rfl⟩ (fun _ _ _ _ _ hx => hx)
    (fun _ _ => ?_) (fun he => absurd he hi) (fun p m e x y k n l _ _ hu hx => ?_)
  · rcases tryAcquire_cases s with h | h <;> rw [h] <;> exact ⟨rfl, rfl⟩
  · rw [hu.bufLen, hu.buf]
    exact hx

/-- The loops of ENCODE leave every byte alone that holds no bit of a pixel they visit. -/
theorem encodePixels_read_other {o : Orientation} {img : List (Nat × Pixel)} {a : Nat} {ps : List (Nat × Nat)}
    {buf buf' : List Host.Cell} (h : encodePixels o img ps buf = .ok buf') (ha : ∀ p ∈ ps, a ≠ targetIndex o p.1 p.2) :
    Memory.read buf' a = Memory.read buf a := by
  induction ps generalizing buf with
  | nil => cases h; rfl
  | cons p ps ih =>
    obtain ⟨hp, hps⟩ := List.forall_mem_cons.1 ha
    rw [encodePixels] at h
    split at h
    · cases h
    · split at h
      · exact ih h hps
      · split at h
        · cases h
        · rw [ih h hps, read_write_other _ _ hp]

/-- The frame buffer an image packs into ends at BUF[5807] (43_frame_encoder.md R191). -/
theorem packImage_read_beyond {o : Orientation} {img : List (Nat × Pixel)} {buf buf' : List Host.Cell}
    (h : packImage o img buf = .ok buf') {a : Nat} (ha : frameLen ≤ a) : Memory.read buf' a = Memory.read buf a := by
  rw [encodePixels_read_other h, read_fill, if_neg (Nat.not_lt.2 ha)]
  intro p hp
  obtain ⟨hx, hy⟩ := mem_pixelOrder.1 hp
  exact (Nat.lt_of_lt_of_le (targetIndex_lt hx hy) ha).ne'

/-- ENCODE leaves BUF alone from BUF[5808] on (20_memory.md R64). -/
theorem encode_read_beyond (h : execWith c .encode s = .next t) {a : Nat} (ha : frameLen ≤ a) :
    Memory.read t.buf a = Memory.read s.buf a := by
  rcases execWith_stands h with ⟨_, e, rfl⟩ | ⟨_, hi, _⟩ | ⟨_, rfl⟩ | ⟨_, _, o, buf, hb, rfl⟩ | ⟨p, x, hp, _⟩
  · rfl
  · cases hi
  · rfl
  · exact packImage_read_beyond hb ha
  · cases hp

end

/-- Settles O50, by `buffer_kept`, `encode_read_beyond` and `execWith_hostSide`. -/
theorem onlyEncodeWritesMemory : Obligations.OnlyEncodeWritesMemory := by
  intro i s t h
  rw [← execWith_setup] at h
  obtain ⟨himg, hw, hh, hhost, hdata⟩ : t.img = s.img ∧ t.imgW = s.imgW ∧ t.imgH = s.imgH ∧ t.host = s.host ∧
      t.hostData = s.hostData := by
    simpa only [hostSide, Prod.mk.injEq] using execWith_hostSide h
  refine ⟨fun hi => ?_, ?_, fun a => by rw [himg], hw, hh, hhost, hdata⟩
  · obtain ⟨hlen, hbuf⟩ := buffer_kept h hi
    exact ⟨hlen, fun a => by rw [hbuf]⟩
  · rintro rfl a ha
    exact encode_read_beyond h ha

/-! ## Entries that nothing has written -/

/-- Micro-operations, for each entry of BUF, that send that entry and no other byte: refused where it is unwritten, gone through
where it is written and the byte goes out (40_transport.md R131; 42_panel_sequences.md R165). -/
structure SendsEntry (items : Nat → List Micro) : Prop where
  unwritten : ∀ {k s}, Memory.read s.buf k = none → perform (items k) s = .refused (.unwritten .buf k)
  written : ∀ {k s b}, Memory.read s.buf k = some b → s.spiAt 0 = true →
    ∃ t, perform (items k) s = .on t ∧ t.buf = s.buf ∧ ∀ n, t.spiAt n = s.spiAt (n + 1)

theorem sendsEntry_spiBuf : SendsEntry (fun k => [.spiBuf k]) where
  unwritten h := by rw [perform_cons, spiBuf_none h, andThen_refused]
  written {k s b} h hs := by
    refine ⟨afterByte b s, ?_, rfl, fun n => ?_⟩
    · rw [perform_cons, spiBuf_some h, shiftOut_ok hs, andThen_on, perform_nil]
    · simp [State.spiAt, afterByte, Nat.add_comm]

theorem sendsEntry_bufFrame : SendsEntry bufFrameItems where
  unwritten {k s} h := by
    have h' : Memory.read ((s.drive .dc .high).drive .cs .low).buf k = none := h
    simp only [bufFrameItems, perform_cons, micro_setPin, andThen_on, spiBuf_none h', andThen_refused]
  written {k s b} h hs := by
    have hb : perform (bufFrameItems k) s = perform (frameItems ⟨.high, b⟩) s := by
      simpa [framesItems] using perform_bufFrames (bytes := [b]) (s := s) (j := k) (by simpa using h)
    refine ⟨afterFrames [⟨.high, b⟩] s, hb.trans (perform_frame hs), rfl, fun n => ?_⟩
    simp [State.spiAt, afterFrames, Nat.add_comm]

/-- Entries sent in order up to one that nothing has written: the first such entry is refused. -/
theorem perform_unwritten {items : Nat → List Micro} (hf : SendsEntry items) {s : State} {a d len : Nat} (hd : d < len)
    (hr : Memory.read s.buf (a + d) = none) (hs : ∀ k < d, s.spiAt k = true) :
    ∃ b ≤ a + d, perform ((List.range' a len).flatMap items) s = .refused (.unwritten .buf b) ∧
      Memory.read s.buf b = none := by
  induction len generalizing s a d with
  | zero => omega
  | succ len ih =>
    rw [List.range'_succ, List.flatMap_cons, perform_append]
    cases ha : Memory.read s.buf a with
    | none => exact ⟨a, by omega, by rw [hf.unwritten ha, andThen_refused], ha⟩
    | some v =>
      cases d with
      | zero => rw [Nat.add_zero, ha] at hr; cases hr
      | succ d =>
        obtain ⟨t, ht, hbuf, hspi⟩ := hf.written ha (hs 0 (by omega))
        obtain ⟨b, hb, href, hnone⟩ := ih (s := t) (a := a + 1) (d := d) (by omega)
          (by rw [hbuf, Nat.add_right_comm]; exact hr) (fun k hk => by rw [hspi]; exact hs (k + 1) (by omega))
        exact ⟨b, by omega, by rw [ht, andThen_on, href], by rw [← hbuf]; exact hnone⟩

/-- An operation that is refused in a stretch of its list is refused. -/
theorem run_refused {c : Setup} {i : Instr} {p : Plan} {s : State} {ms rest : List Micro} {r : Refusal}
    (h : planOf c s i = some p) (hp : s.pc = .idle) (ha : Accepts i s) (hq : ∀ m ∈ ms, quiet m = true)
    (hd : p.items 0 s.rdval = ms ++ rest) (hf : perform ms (s.start i p) = .refused r) {j : Nat} (hj : ms.length ≤ j) :
    runWith c j i s = .refused r := by
  have hms : ms ≠ [] := by rintro rfl; cases hf
  have hpos := List.length_pos_iff.2 hms
  obtain ⟨m, rfl⟩ := Nat.exists_eq_add_of_le hj
  by_cases hr : rest = []
  · obtain ⟨x, hx⟩ : ∃ x, ms.length + m = x + 1 := ⟨_, (Nat.succ_pred_eq_of_pos (by omega)).symm⟩
    have hend := untilEnd_finish (s := s.start i p) (stepOf_execWith h) hq hms (k := 0) (n := 0) rfl rfl
      (by simpa [State.items, hr] using hd) m
    rw [hx, runWith_start h hp ha, ← hx, runWith, hend, hf, resume_refused]
  · rw [run_stretch h hp ha hq hd hr m (by omega), hf, resume_refused]

/-- WRITEBYTES comes to an entry of BUF that nothing has written (40_transport.md R131). -/
theorem writeBytes_unwritten {s : State} {j : Nat} (hp : s.pc = .idle) (hacq : s.trState = .acquired)
    (hj : j < s.bufLen.toNat) (hcap : s.bufLen.toNat ≤ bufCap) (hr : Memory.read s.buf j = none)
    (hs : ∀ k < j, s.spiAt k = true) :
    ∃ a ≤ j, runOp (j + 1) .writeBytes s = .refused (.unwritten .buf a) ∧ Memory.read s.buf a = none := by
  obtain ⟨rest, hlen⟩ := Nat.exists_eq_add_of_le (Nat.succ_le_of_lt hj)
  obtain ⟨a, ha, href, hnone⟩ := perform_unwritten (s := s.start .writeBytes (bufferPlan s.bufLen.toNat)) (a := 0)
    sendsEntry_spiBuf j.lt_succ_self (by simpa using hr) hs
  refine ⟨a, by omega, ?_, hnone⟩
  rw [runOp_eq]
  refine run_refused (rest := (List.range' (j + 1) rest).map .spiBuf) rfl hp
    ⟨fun _ => hacq, by simp, by simp, fun _ => hcap⟩ ?_ ?_ href (by simp)
  · intro m hm
    obtain ⟨k, _, hk⟩ := List.mem_flatMap.1 hm
    rw [List.mem_singleton.1 hk]
    rfl
  · rw [← List.map_eq_flatMap, ← List.map_append, bufferPlan, List.range_eq_range', hlen, ← List.range'_append]
    simp [Plan.items, Plan.plain]

/-- DISPLAYFRAME comes to an entry of BUF that nothing has written (42_panel_sequences.md R165). -/
theorem displayBefore_unwritten {s : State} {j : Nat} (hj : j < frameLen) (hr : Memory.read s.buf j = none)
    (hs : ∀ k < 5810 + j, s.spiAt k = true) :
    ∃ a ≤ j, perform displayBefore s = .refused (.unwritten .buf a) ∧ Memory.read s.buf a = none := by
  have hd : displayBefore = framesItems oldPlaneFrames ++ .sleep settleTime ::
      (frameItems ⟨.low, 0x13⟩ ++ (newPlaneItems ++ frameItems ⟨.low, 0x12⟩)) := by simp [displayBefore]
  have hspi : ∀ n, ((afterFrames oldPlaneFrames s).delay settleTime).spiAt n = s.spiAt (5809 + n) := fun n => by
    simp [State.spiAt, afterFrames, oldPlaneFrames_length]
  have hspi' : ∀ n, (afterFrames [⟨.low, 0x13⟩] ((afterFrames oldPlaneFrames s).delay settleTime)).spiAt n =
      s.spiAt (5810 + n) := fun n => by
    simp [State.spiAt, afterFrames, oldPlaneFrames_length]
  obtain ⟨a, ha, href, hnone⟩ := perform_unwritten sendsEntry_bufFrame (a := 0) (d := j)
    (s := afterFrames [⟨.low, 0x13⟩] ((afterFrames oldPlaneFrames s).delay settleTime)) hj (by rw [Nat.zero_add]; exact hr)
    (fun k hk => by rw [hspi']; exact hs _ (by omega))
  refine ⟨a, by omega, ?_, hnone⟩
  rw [hd, perform_append, perform_frames (fun n hn => hs n (by rw [oldPlaneFrames_length] at hn; omega)), andThen_on,
    perform_cons, micro_sleep, andThen_on, perform_append, perform_frame (by rw [hspi]; exact hs _ (by omega)), andThen_on,
    perform_append, newPlaneItems, List.range_eq_range', href, andThen_refused]

/-- A write leaves every written entry written. -/
theorem isSome_read_write {α : Type} {m : List (Nat × α)} {k : Nat} (a : Nat) (v : α) (h : (Memory.read m k).isSome = true) :
    (Memory.read (Memory.write m a v) k).isSome = true := by
  by_cases hk : k = a
  · rw [hk, read_write_same]
    rfl
  · rwa [read_write_other _ _ hk]

/-- The loops of ENCODE over pixels of which one is unwritten (43_frame_encoder.md R191 f). -/
theorem encodePixels_unwritten {o : Orientation} {img : List (Nat × Pixel)} {ps : List (Nat × Nat)} {buf : List Host.Cell}
    (hi : ∃ p ∈ ps, Memory.read img (p.1 + p.2 * o.width) = none)
    (hb : ∀ p ∈ ps, (Memory.read buf (targetIndex o p.1 p.2)).isSome = true) :
    ∃ a, encodePixels o img ps buf = .error (.unwritten .img a) ∧ Memory.read img a = none := by
  induction ps generalizing buf with
  | nil => simp at hi
  | cons p ps ih =>
    obtain ⟨x, y⟩ := p
    cases hc : Memory.read img (x + y * o.width) with
    | none => exact ⟨_, by simp only [encodePixels, hc], hc⟩
    | some c =>
      obtain ⟨b, hb0⟩ := Option.isSome_iff_exists.1 (hb _ List.mem_cons_self)
      have hb' := fun q hq => hb q (List.mem_cons_of_mem _ hq)
      have hi' : ∃ q ∈ ps, Memory.read img (q.1 + q.2 * o.width) = none := by
        obtain ⟨q, hq, hn⟩ := hi
        rcases List.mem_cons.1 hq with rfl | hq
        · rw [hc] at hn; cases hn
        · exact ⟨q, hq, hn⟩
      simp only at hb0
      simp only [encodePixels, hc]
      cases isBlack c with
      | false => exact ih hi' hb'
      | true =>
        simp only [hb0]
        exact ih hi' fun q hq => isSome_read_write _ _ (hb' q hq)

/-- An image with an unwritten pixel is not packed. -/
theorem packImage_unwritten {o : Orientation} {img : List (Nat × Pixel)} (buf : List Host.Cell) {j : Nat} (hj : j < imgCap)
    (hr : Memory.read img j = none) : ∃ a, packImage o img buf = .error (.unwritten .img a) ∧ Memory.read img a = none := by
  have hw : 0 < o.width := by cases o <;> decide
  have hh : j / o.width < o.height := by
    rw [Nat.div_lt_iff_lt_mul hw]
    cases o <;> exact hj
  refine encodePixels_unwritten ⟨(j % o.width, j / o.width), mem_pixelOrder.2 ⟨Nat.mod_lt _ hw, hh⟩, ?_⟩ fun p hp => ?_
  · rw [Nat.mod_add_div']; exact hr
  · obtain ⟨hx, hy⟩ := mem_pixelOrder.1 hp
    rw [read_fill, if_pos (targetIndex_lt hx hy)]
    rfl

/-- Settles O25: the first unwritten entry the operation comes to is refused, and the operation with it. -/
theorem unwrittenEntryIsRefused : Obligations.UnwrittenEntryIsRefused := by
  intro s hp
  refine ⟨fun j hacq hj hcap hr hs => writeBytes_unwritten hp hacq hj hcap hr hs,
    fun j hacq hlen hidle hmode hj hr hs => ?_, fun j ho hj hr => ?_⟩
  · obtain ⟨a, ha, href, hnone⟩ :=
      displayBefore_unwritten (s := s.start .displayFrame (displayPlan Config.setup.pollLimit)) hj hr hs
    refine ⟨a, ha, ?_, hnone⟩
    rw [runOp_eq]
    exact run_refused rfl hp ⟨fun _ => hacq, fun _ => ⟨hidle, hmode⟩, fun _ => hlen, by simp⟩ quiet_displayBefore rfl href
      displayBefore_length.le
  · obtain ⟨o, ho⟩ := Option.ne_none_iff_exists'.1 ho
    obtain ⟨a, href, hnone⟩ := packImage_unwritten (o := o) s.buf hj hr
    refine ⟨a, ?_, hnone⟩
    simp only [exec, execEncode, needIdle_idle hp, ho, href]

end Sys2Proof.Proofs
end

section
/-! PROOFS. Encoding and decoding: the one row of a table that a word or a command byte meets, each row read back, and both
directions of the round trip (spec/30_encoding.md R91 to R102; spec/44_wire_commands.md R229). -/

namespace Sys2Proof.Proofs

open Sys2Proof Sys2Proof.Machine Sys2Proof.Laws

/-! ## The row a table search finds -/

/-- In a table without two rows of one key, the search for a row's key finds that row. -/
theorem find?_key {α β : Type} [BEq β] [LawfulBEq β] {key : α → β} {l : List α}
    (hl : l.Pairwise (fun a b => key a ≠ key b)) {a : α} (ha : a ∈ l) : l.find? (fun b => key b == key a) = some a := by
  induction l with
  | nil => cases ha
  | cons b l ih =>
    obtain ⟨hb, hl⟩ := List.pairwise_cons.1 hl
    rcases List.mem_cons.1 ha with rfl | ha
    · simp
    · rw [List.find?_cons_of_neg (by simpa using hb a ha), ih hl ha]

/-- No two rows of the opcode map share an opcode (30_encoding.md R100). -/
theorem opRows_distinct : opRows.Pairwise (fun r r' => opcField r.code ≠ opcField r'.code) := by
  decide

/-- Every row of the opcode map fixes the whole opcode (30_encoding.md R95). -/
theorem opRows_fix_opcode : ∀ r ∈ opRows, opcField r.mask = 0xFF := by
  decide

/-- A word that matches a row has the row's opcode. -/
theorem opcField_of_match {r : OpRow} {w : Word} (hr : r ∈ opRows) (hw : w &&& r.mask = r.code) :
    opcField r.code = opcField w := by
  have h : opcField (w &&& r.mask) = opcField w &&& opcField r.mask := BitVec.extractLsb'_and
  rw [← hw, h, opRows_fix_opcode r hr]
  exact BitVec.and_allOnes

/-- The search of the opcode map finds the row a word matches. -/
theorem find?_opRows {r : OpRow} {w : Word} (hr : r ∈ opRows) (hw : w &&& r.mask = r.code) :
    opRows.find? (fun r' => opcField r'.code == opcField w) = some r := by
  rw [← opcField_of_match hr hw]
  exact find?_key opRows_distinct hr

/-- A word is read by the row it matches (30_encoding.md R100). -/
theorem decodeWord_of_match {r : OpRow} {w : Word} (hr : r ∈ opRows) (hw : w &&& r.mask = r.code) :
    decodeWord w = r.build w := by
  simp only [decodeWord, find?_opRows hr hw, hw, if_true]

/-- What a word spells, a row it matches says (30_encoding.md R100, R102). -/
theorem match_of_decodeWord {w : Word} {i : Instr} (h : decodeWord w = .ok i) :
    ∃ r ∈ opRows, w &&& r.mask = r.code ∧ r.build w = .ok i := by
  unfold decodeWord at h
  split at h
  · cases h
  · next r hr =>
    split at h
    · next hw => exact ⟨r, List.mem_of_find?_eq_some hr, hw, h⟩
    · cases h

/-- Settles O4, by `decodeWord_of_match`, `find?_opRows` and `match_of_decodeWord`. -/
theorem wordSpellsTheOneRowItMatches : Obligations.WordSpellsTheOneRowItMatches := by
  refine ⟨fun w r hr hw => decodeWord_of_match hr hw, fun w r hr r' hr' hw hw' => ?_, fun w hno i hi => ?_⟩
  · have hone : some r = some r' := (find?_opRows hr hw).symm.trans (find?_opRows hr' hw')
    rw [Option.some.inj hone]
  · obtain ⟨r, hr, hw, -⟩ := match_of_decodeWord hi
    exact hno r hr hw

/-! ## Frames of entries -/

/-- An entry is read by the row of its command byte (44_wire_commands.md R229). -/
theorem decodeEntry_of_row {r : WireRow} (hr : r ∈ wireRows) (ds : List Byte) : decodeEntry ⟨r.cmd, ds⟩ = r.build ds := by
  simp only [decodeEntry, find?_key wireRows_disjoint hr]

/-- What an entry spells, the row of its command byte says. -/
theorem row_of_decodeEntry {e : Entry} {i : Instr} (h : decodeEntry e = .ok i) :
    ∃ r ∈ wireRows, e.cmd = r.cmd ∧ r.build e.data = .ok i := by
  unfold decodeEntry at h
  split at h
  · cases h
  · next r hr => exact ⟨r, List.mem_of_find?_eq_some hr, (by simpa using List.find?_some hr : r.cmd = e.cmd).symm, h⟩

/-- The frames of an entry are read as that entry (30_encoding.md R92). -/
theorem decodeFrames_frames (e : Entry) : decodeFrames e.frames = decodeEntry e := by
  simp [Entry.frames, decodeFrames, Function.comp_def]

/-- Frames that spell an operation are the frames of one entry (30_encoding.md R92). -/
theorem entry_of_decodeFrames {fs : List Frame} {i : Instr} (h : decodeFrames fs = .ok i) :
    ∃ e : Entry, fs = e.frames ∧ decodeEntry e = .ok i := by
  unfold decodeFrames at h
  split at h
  · cases h
  · cases h
  · next c ds =>
    split at h
    · next hds =>
      have data : ∀ f ∈ ds, (Frame.mk .high ∘ Frame.byte) f = f := fun f hf => by
        have hdc : f.dc = .high := by simpa using List.all_eq_true.1 hds f hf
        rw [Function.comp, ← hdc]
      exact ⟨_, by rw [Entry.frames, List.map_map, List.map_congr_left data, List.map_id'], h⟩
    · cases h

/-- Data frames before a stream of frames belong to what stands open before it. -/
theorem cutEntries_data (ds : List Byte) (fs : List Frame) :
    cutEntries (ds.map (Frame.mk .high) ++ fs) = (ds ++ (cutEntries fs).1, (cutEntries fs).2) := by
  induction ds with
  | nil => rfl
  | cons d ds ih => simp [cutEntries, ih]

/-- Settles O3: each entry's frames are cut off before the next command frame. -/
theorem framesAreCutIntoTheirEntries : Obligations.FramesAreCutIntoTheirEntries := by
  intro es
  induction es with
  | nil => rfl
  | cons e es ih =>
    have hf : seqFrames (e :: es) = ⟨.low, e.cmd⟩ :: (e.data.map (Frame.mk .high) ++ seqFrames es) := rfl
    rw [hf, cutEntries, cutEntries_data, ih, List.append_nil]

/-! ## Operand fields -/

/-- The bits of a packed word (30_encoding.md R95). -/
theorem getLsbD_packWord (opc sub : Byte) (imm : BitVec 16) (k : Nat) :
    (packWord opc sub imm).getLsbD k =
      if k < 16 then imm.getLsbD k else if k - 16 < 8 then sub.getLsbD (k - 16) else opc.getLsbD (k - 16 - 8) := by
  have h : packWord opc sub imm = ((opc ++ sub : BitVec 16) ++ imm : BitVec 32) := rfl
  rw [h, BitVec.getLsbD_append, BitVec.getLsbD_append]

/-- A word whose opcode is fixed, and whose other bits are 0 but for the low `a` of `sub` and the low `b` of `imm16`, is packed of
its opcode and these. -/
theorem packWord_of_match {w : Word} {opc : Byte} (a b : Nat)
    (h : w &&& packWord 0xFF (BitVec.allOnes 8 <<< a) (BitVec.allOnes 16 <<< b) = formatN opc) :
    packWord opc ((w.extractLsb' 16 a).zeroExtend 8) ((w.extractLsb' 0 b).zeroExtend 16) = w := by
  have h8 : (0xFF : Byte) = BitVec.allOnes 8 := rfl
  refine BitVec.eq_of_getLsbD_eq fun k hk => ?_
  have hbit := congrArg (BitVec.getLsbD · k) h
  simp only [BitVec.getLsbD_and, formatN, getLsbD_packWord, h8, BitVec.getLsbD_shiftLeft, BitVec.getLsbD_allOnes,
    BitVec.getLsbD_setWidth, BitVec.getLsbD_extractLsb'] at hbit ⊢
  -- within the mask a bit is as `hbit` says, outside of it the word's own
  grind

/-- A field of no bits. -/
theorem zeroExtend_noBits (v : BitVec 0) (n : Nat) : v.zeroExtend n = 0 := by
  rw [BitVec.eq_nil v]
  simp

/-- A word that matches a row of format N is that row's word (30_encoding.md R96). -/
theorem formatN_of_match {w code : Word} (h : w &&& 0xFFFFFFFF = code) : code = w :=
  h.symm.trans BitVec.and_allOnes

/-- A word that matches a row of format B (30_encoding.md R97). -/
theorem formatB_of_match {w : Word} {opc : Byte} (h : w &&& 0xFFFFFF00 = formatN opc) : formatB opc (byteField w) = w := by
  have hw := packWord_of_match 0 8 h
  rwa [zeroExtend_noBits] at hw

/-- A word that matches a row of format T (30_encoding.md R99). -/
theorem formatT_of_match {w : Word} {opc : Byte} (h : w &&& 0xFFFF0000 = formatN opc) : formatT opc (msField w) = w := by
  have hw := packWord_of_match 0 16 h
  rwa [zeroExtend_noBits, BitVec.zeroExtend, BitVec.setWidth_eq] at hw

/-- The role code a word holds is the code of the role it names (30_encoding.md R98). -/
theorem roleField_ok {w : Word} {r : PinRole} (h : roleField w = .ok r) : w.extractLsb' 16 3 = r.code := by
  unfold roleField at h
  generalize w.extractLsb' 16 3 = x at h ⊢
  revert h
  cases r <;> revert x <;> decide

/-- The level a word holds, as a bit (30_encoding.md R98, R101). -/
theorem levelField_bit (w : Word) : (levelField w).bit = w.extractLsb' 0 1 := by
  refine BitVec.eq_of_getLsbD_eq fun k hk => ?_
  obtain rfl : k = 0 := by omega
  rw [BitVec.getLsbD_extractLsb', levelField]
  cases w.getLsbD 0 <;> rfl

/-- A word that matches the row of SETPIN, with a role code in use (30_encoding.md R98). -/
theorem setPin_of_match {w : Word} {opc : Byte} {r : PinRole} (h : w &&& 0xFFF8FFFE = formatN opc) (hr : roleField w = .ok r) :
    formatP opc r ((levelField w).bit.zeroExtend 16) = w := by
  rw [formatP, ← roleField_ok hr, levelField_bit]
  exact packWord_of_match 3 1 h

/-- A word that matches the row of READPIN, with a role code in use (30_encoding.md R98). -/
theorem readPin_of_match {w : Word} {opc : Byte} {r : PinRole} (h : w &&& 0xFFF8FFFF = formatN opc) (hr : roleField w = .ok r) :
    formatP opc r 0 = w := by
  rw [formatP, ← roleField_ok hr, ← zeroExtend_noBits (w.extractLsb' 0 0)]
  exact packWord_of_match 3 0 h

/-! ## What is decoded encodes back -/

/-- The operation that a word spells by the row is well formed and has that word for its encoding. -/
def SpelledBy (r : OpRow) : Prop :=
  ∀ w i, w &&& r.mask = r.code → r.build w = .ok i → encode i = .word w ∧ i.wellFormed = true

/-- A row of format N. -/
theorem spelledBy_formatN {code : Word} {i : Instr} (hi : encode i = .word code) (hw : i.wellFormed = true) :
    SpelledBy ⟨code, 0xFFFFFFFF, fun _ => .ok i⟩ := by
  rintro w _ h ⟨⟩
  exact ⟨hi.trans (congrArg Encoding.word (formatN_of_match h)), hw⟩

/-- A row of format B. -/
theorem spelledBy_formatB {code : Word} {opc : Byte} {f : Byte → Instr} (hi : ∀ b, encode (f b) = .word (formatB opc b))
    (hc : code = formatN opc) (hw : ∀ b, (f b).wellFormed = true) :
    SpelledBy ⟨code, 0xFFFFFF00, fun w => .ok (f (byteField w))⟩ := by
  rintro w _ h ⟨⟩
  exact ⟨by rw [hi, formatB_of_match (h.trans hc)], hw _⟩

/-- The row of SLEEP. -/
theorem spelledBy_sleep : SpelledBy ⟨0xC4000000, 0xFFFF0000, fun w => .ok (.sleep (msField w))⟩ := by
  rintro w _ h ⟨⟩
  exact ⟨congrArg Encoding.word (formatT_of_match h), rfl⟩

/-- What a mapped result holds comes from what the result holds. -/
theorem of_map_ok {ε α β : Type} {x : Except ε α} {f : α → β} {b : β} (h : x.map f = .ok b) :
    ∃ a, x = .ok a ∧ f a = b := by
  cases x with
  | error e => cases h
  | ok a => exact ⟨a, rfl, Except.ok.inj h⟩

/-- The row of SETPIN. -/
theorem spelledBy_setPin :
    SpelledBy ⟨0xC2000000, 0xFFF8FFFE, fun w => (roleField w).map (fun r => .setPin r (levelField w))⟩ := by
  intro w i h hb
  obtain ⟨r, hr, rfl⟩ := of_map_ok hb
  exact ⟨congrArg Encoding.word (setPin_of_match h hr), rfl⟩

/-- The row of READPIN. -/
theorem spelledBy_readPin : SpelledBy ⟨0xC3000000, 0xFFF8FFFF, fun w => (roleField w).map .readPin⟩ := by
  intro w i h hb
  obtain ⟨r, hr, rfl⟩ := of_map_ok hb
  exact ⟨congrArg Encoding.word (readPin_of_match h hr), rfl⟩

/-- Every row of the opcode map (30_encoding.md R100). -/
theorem opRows_spell : ∀ r ∈ opRows, SpelledBy r := by
  simp only [opRows, List.cons_append, List.nil_append, List.forall_mem_cons]
  exact ⟨spelledBy_formatN rfl rfl, spelledBy_formatN rfl rfl, spelledBy_setPin, spelledBy_readPin, spelledBy_sleep,
    spelledBy_formatB (fun _ => rfl) rfl (fun _ => rfl), spelledBy_formatN rfl rfl, spelledBy_formatN rfl rfl,
    spelledBy_formatB (fun _ => rfl) rfl (fun _ => rfl), spelledBy_formatB (fun _ => rfl) rfl (fun _ => rfl),
    spelledBy_formatN rfl rfl, spelledBy_formatN rfl rfl, spelledBy_formatN rfl rfl,
    spelledBy_formatB (fun _ => rfl) rfl (fun _ => rfl), spelledBy_formatN rfl rfl, spelledBy_formatN rfl rfl, by simp⟩

/-- The operation that data bytes spell by the row is well formed and has the row's command byte and those data bytes for its
encoding. -/
def SentBy (r : WireRow) : Prop := ∀ ds i, r.build ds = .ok i → encode i = wireForm r.cmd ds ∧ i.wellFormed = true

/-- A row without data bytes. -/
theorem sentBy_noData {cmd : Byte} {i : Instr} (hi : encode i = wireForm cmd []) (hw : i.wellFormed = true) :
    SentBy ⟨cmd, noData i⟩ := by
  intro ds j h
  cases ds with
  | nil => cases h; exact ⟨hi, hw⟩
  | cons d ds => cases h

/-- A row with one data byte. -/
theorem sentBy_oneData {cmd : Byte} {f : Byte → Instr} (hi : ∀ d, encode (f d) = wireForm cmd [d])
    (hw : ∀ d, (f d).wellFormed = true) : SentBy ⟨cmd, oneData f⟩ := by
  intro ds j h
  match ds, h with
  | [d], h => cases h; exact ⟨hi d, hw d⟩

/-- A row with data bytes as PREFIX_SEQ gives them. -/
theorem sentBy_anyData {cmd : Byte} {f : List Byte → Instr} (hi : ∀ ds, encode (f ds) = wireForm cmd ds)
    (hw : ∀ ds, (f ds).wellFormed = true) : SentBy ⟨cmd, anyData f⟩ := by
  rintro ds _ ⟨⟩
  exact ⟨hi ds, hw ds⟩

/-- `hasLength` is the length (30_encoding.md R92). -/
theorem hasLength_iff {α : Type} {l : List α} {n : Nat} : hasLength l n = true ↔ l.length = n := by
  induction l generalizing n with
  | nil => cases n <;> simp [hasLength]
  | cons a l ih => cases n <;> simp [hasLength, ih]

/-- A row with `n` data bytes: an operation that meets it is well formed. -/
theorem sentBy_countedData {cmd : Byte} {n : Nat} {f : List Byte → Instr} (hi : ∀ ds, encode (f ds) = wireForm cmd ds)
    (hc : ∀ ds, (f ds).fixedCount = some n) (hd : ∀ ds, (f ds).carries = ds) : SentBy ⟨cmd, countedData n f⟩ := by
  intro ds j h
  by_cases hl : hasLength ds n = true
  · simp only [countedData, if_pos hl] at h
    cases h
    exact ⟨hi ds, by simp [Instr.wellFormed, hc, hd, hasLength_iff.1 hl]⟩
  · simp only [countedData, if_neg hl] at h
    cases h

/-- The two bytes of a 16-bit value made of two (20_memory.md R62 c). -/
theorem bytesOf16_append (hi lo : Byte) : bytesOf16 (hi ++ lo) = [hi, lo] := by
  have h1 : (hi ++ lo).extractLsb' 8 8 = hi := by
    rw [BitVec.extractLsb'_append_eq_of_le (by decide), Nat.sub_self, BitVec.extractLsb'_eq_self]
  have h2 : (hi ++ lo).extractLsb' 0 8 = lo := by
    rw [BitVec.extractLsb'_append_eq_of_add_le (by decide), BitVec.extractLsb'_eq_self]
  rw [bytesOf16, h1, h2]

/-- The row of RESOLUTION_SETTING. -/
theorem sentBy_resolution : SentBy ⟨0x61, resolutionData⟩ := by
  intro ds j h
  match ds, h with
  | [wh, wl, hh, hl], h =>
    cases h
    exact ⟨by rw [encode, bytesOf16_append, bytesOf16_append]; rfl, rfl⟩

/-- Every row of the command set (44_wire_commands.md R229). -/
theorem wireRows_send : ∀ r ∈ wireRows, SentBy r := by
  simp only [wireRows, List.cons_append, List.nil_append, List.forall_mem_cons]
  refine ⟨sentBy_oneData ?_ ?_, sentBy_anyData ?_ ?_, sentBy_noData rfl rfl, sentBy_anyData ?_ ?_, sentBy_countedData ?_ ?_ ?_,
    sentBy_noData rfl rfl, sentBy_countedData ?_ ?_ ?_, sentBy_anyData ?_ ?_, sentBy_countedData ?_ ?_ ?_,
    sentBy_countedData ?_ ?_ ?_, sentBy_countedData ?_ ?_ ?_, sentBy_countedData ?_ ?_ ?_, sentBy_countedData ?_ ?_ ?_,
    sentBy_oneData ?_ ?_, sentBy_oneData ?_ ?_, sentBy_resolution, sentBy_oneData ?_ ?_, sentBy_anyData ?_ ?_, by simp⟩ <;>
    exact fun _ => rfl

/-- Settles O2: a word by the row it matches (`opRows_spell`), frames by the row of their command byte (`wireRows_send`). -/
theorem legalEncodingIsItsOwnEncoding : Obligations.LegalEncodingIsItsOwnEncoding := by
  intro c i h
  cases c with
  | word w =>
    obtain ⟨r, hr, hw, hb⟩ := match_of_decodeWord h
    exact opRows_spell r hr w i hw hb
  | frames fs =>
    obtain ⟨e, rfl, he⟩ := entry_of_decodeFrames h
    obtain ⟨r, hr, hcmd, hb⟩ := row_of_decodeEntry he
    obtain ⟨henc, hwf⟩ := wireRows_send r hr e.data i hb
    exact ⟨by rw [henc, wireForm, ← hcmd], hwf⟩

/-! ## What is encoded decodes back -/

/-- A word that matches row `k` of the opcode map is read by that row. -/
theorem decode_word {k : Nat} {w : Word} (hk : k < opRows.length) (hw : w &&& opRows[k].mask = opRows[k].code) :
    decode (.word w) = opRows[k].build w :=
  decodeWord_of_match (List.getElem_mem hk) hw

/-- The command byte of row `k` of the command set is read by that row, its data bytes with it. -/
theorem decode_wireForm {k : Nat} (hk : k < wireRows.length) (ds : List Byte) :
    decode (wireForm wireRows[k].cmd ds) = wireRows[k].build ds :=
  (decodeFrames_frames _).trans (decodeEntry_of_row (List.getElem_mem hk) ds)

/-- A word of format B is read by its row `k` with its byte (30_encoding.md R97). -/
theorem decode_formatB {k : Nat} {opc b : Byte} {f : Byte → Instr} (hk : k < opRows.length)
    (hb : ∀ w, opRows[k].build w = .ok (f (byteField w))) (hw : formatB opc b &&& opRows[k].mask = opRows[k].code) :
    decode (.word (formatB opc b)) = .ok (f b) := by
  rw [decode_word hk hw, hb, formatB, byteField_packWord]

/-- An entry whose row `k` asks for `n` data bytes, with as many (30_encoding.md R92). -/
theorem decode_counted {k n : Nat} {f : List Byte → Instr} {ds : List Byte} (hk : k < wireRows.length)
    (hb : wireRows[k].build = countedData n f) (hn : ds.length = n) : decode (wireForm wireRows[k].cmd ds) = .ok (f ds) := by
  rw [decode_wireForm hk, hb, countedData, if_pos (hasLength_iff.2 hn)]

/-- A well-formed operation carries the number of data bytes the spec fixes for it (44_wire_commands.md R229). -/
theorem length_of_wellFormed {i : Instr} {n : Nat} (h : i.wellFormed = true) (hn : i.fixedCount = some n) :
    i.carries.length = n := by
  simpa only [Instr.wellFormed, hn, beq_iff_eq] using h

/-- Settles O1: each operation is read back by its own row. -/
theorem decodeOfEncodeIsTheInstruction : Obligations.DecodeOfEncodeIsTheInstruction := by
  intro i hwf
  cases i with
  | acquire => exact decode_word (k := 0) (by decide) RowWord.acquire
  | release => exact decode_word (k := 1) (by decide) RowWord.release
  | setPin role level =>
    refine (decode_word (k := 2) (by decide) (RowWord.setPin role level)).trans ?_
    cases role <;> cases level <;> rfl
  | readPin role =>
    refine (decode_word (k := 3) (by decide) (RowWord.readPin role)).trans ?_
    cases role <;> rfl
  | sleep ms =>
    refine (decode_word (k := 4) (by decide) (RowWord.sleep ms)).trans ?_
    exact congrArg (Except.ok ∘ Instr.sleep) (msField_packWord _ _ ms)
  | writeByte b => exact decode_formatB (k := 5) (by decide) (fun _ => rfl) (RowWord.writeByte b)
  | writeBytes => exact decode_word (k := 6) (by decide) RowWord.writeBytes
  | reset => exact decode_word (k := 7) (by decide) RowWord.reset
  | sendCmd b => exact decode_formatB (k := 8) (by decide) (fun _ => rfl) (RowWord.sendCmd b)
  | sendData b => exact decode_formatB (k := 9) (by decide) (fun _ => rfl) (RowWord.sendData b)
  | readBusy => exact decode_word (k := 10) (by decide) RowWord.readBusy
  | init => exact decode_word (k := 11) (by decide) RowWord.init
  | init4Gray => exact decode_word (k := 12) (by decide) RowWord.init4Gray
  | clear f => exact decode_formatB (k := 13) (by decide) (fun _ => rfl) (RowWord.clear f)
  | displayFrame => exact decode_word (k := 14) (by decide) RowWord.displayFrame
  | encode => exact decode_word (k := 15) (by decide) RowWord.encode
  | panelSetting d => exact decode_wireForm (k := 0) (by decide) [d]
  | powerSetting ds => exact decode_wireForm (k := 1) (by decide) ds
  | powerOn => exact decode_wireForm (k := 2) (by decide) []
  | boosterSoftStart ds => exact decode_wireForm (k := 3) (by decide) ds
  | writePlaneOld ds => exact decode_counted (k := 4) (by decide) rfl (length_of_wellFormed hwf rfl)
  | displayRefresh => exact decode_wireForm (k := 5) (by decide) []
  | writePlaneNew ds => exact decode_counted (k := 6) (by decide) rfl (length_of_wellFormed hwf rfl)
  | partialRefreshControl ds => exact decode_wireForm (k := 7) (by decide) ds
  | lutVcom ds => exact decode_counted (k := 8) (by decide) rfl (length_of_wellFormed hwf rfl)
  | lutW2w ds => exact decode_counted (k := 9) (by decide) rfl (length_of_wellFormed hwf rfl)
  | lutB2w ds => exact decode_counted (k := 10) (by decide) rfl (length_of_wellFormed hwf rfl)
  | lutB2b ds => exact decode_counted (k := 11) (by decide) rfl (length_of_wellFormed hwf rfl)
  | lutW2b ds => exact decode_counted (k := 12) (by decide) rfl (length_of_wellFormed hwf rfl)
  | pllControl d => exact decode_wireForm (k := 13) (by decide) [d]
  | vcomAndInterval d => exact decode_wireForm (k := 14) (by decide) [d]
  | resolutionSetting w h =>
    refine (decode_wireForm (k := 15) (by decide) _).trans ?_
    exact congrArg₂ (fun w h => Except.ok (Instr.resolutionSetting w h)) BitVec.extractLsb'_append_extractLsb'
      BitVec.extractLsb'_append_extractLsb'
  | vcomDc d => exact decode_wireForm (k := 16) (by decide) [d]
  | powerOptimization ds => exact decode_wireForm (k := 17) (by decide) ds

end Sys2Proof.Proofs
end

section
/-! PROOFS. Source pixels, panel pixels and the bits of the frame buffer (spec/30_encoding.md R106;
spec/43_frame_encoder.md R191 to R198). -/

namespace Sys2Proof.Proofs

open Sys2Proof Sys2Proof.Machine Sys2Proof.Laws

/-- The panel pixel that the source pixel (x, y) becomes (43_frame_encoder.md R191, R197). -/
def panelPixel (o : Orientation) (x y : Nat) : Nat × Nat :=
  match o with
  | .portrait => (x, y)
  | .landscape => (y, panelHeight - 1 - x)

/-- Panel pixel (px, py) lives in byte py × 22 + px div 8 (30_encoding.md R106). -/
theorem targetIndex_eq (o : Orientation) (x y : Nat) :
    targetIndex o x y = (panelPixel o x y).2 * 22 + (panelPixel o x y).1 / 8 := by
  cases o <;> simp only [targetIndex, panelPixel, panelWidth] <;> omega

/-- Panel pixel (px, py) lives under mask 0x80 >> (px mod 8) (30_encoding.md R106). -/
theorem targetMask_eq (o : Orientation) (x y : Nat) : targetMask o x y = 0x80#8 >>> ((panelPixel o x y).1 % 8) := by
  cases o <;> rfl

/-- The source pixels of an orientation are the 176 × 264 panel pixels. -/
theorem panelPixel_lt {o : Orientation} {x y : Nat} (hx : x < o.width) (hy : y < o.height) :
    (panelPixel o x y).1 < 176 ∧ (panelPixel o x y).2 < 264 := by
  cases o <;> simp only [Orientation.width, Orientation.height, panelPixel, panelWidth, panelHeight] at * <;> omega

/-- No two source pixels become the same panel pixel. -/
theorem panelPixel_injective {o : Orientation} {x y x' y' : Nat} (hx : x < o.width) (hx' : x' < o.width)
    (h : panelPixel o x y = panelPixel o x' y') : x = x' ∧ y = y' := by
  cases o <;> simp only [Orientation.width, panelPixel, panelHeight, Prod.mk.injEq] at * <;> omega

/-- The landscape source of panel pixel (px, py) (43_frame_encoder.md R197). -/
theorem panelPixel_landscape {px py : Nat} (hy : py < 264) : panelPixel .landscape (263 - py) px = (px, py) := by
  simp only [panelPixel, panelHeight, Prod.mk.injEq, true_and]
  omega

/-- Every panel pixel has a source pixel. -/
theorem panelPixel_surjective (o : Orientation) {px py : Nat} (hx : px < 176) (hy : py < 264) :
    ∃ x < o.width, ∃ y < o.height, panelPixel o x y = (px, py) := by
  cases o with
  | portrait => exact ⟨px, hx, py, hy, rfl⟩
  | landscape => exact ⟨263 - py, by simp only [Orientation.width, panelHeight]; omega, px, hx, panelPixel_landscape hy⟩

/-- The eight masks of a byte differ. -/
theorem mask_injective : ∀ j < 8, ∀ j' < 8, 0x80#8 >>> j = 0x80#8 >>> j' → j = j' := by decide

/-- Settles O46: a source pixel is its panel pixel, and panel pixels and bits correspond by division with remainder. -/
theorem eachPixelOwnsOneBit : Obligations.EachPixelOwnsOneBit := by
  intro o
  refine ⟨fun x hx y hy => targetIndex_lt hx hy, fun x hx y hy x' hx' y' hy' hi hm => ?_, fun k hk j hj => ?_,
    fun x hx y hy => ⟨targetIndex_eq .portrait x y, rfl, ?_, rfl⟩⟩
  · rw [targetIndex_eq, targetIndex_eq] at hi
    rw [targetMask_eq, targetMask_eq] at hm
    have hj := mask_injective _ (Nat.mod_lt _ (by decide)) _ (Nat.mod_lt _ (by decide)) hm
    obtain ⟨h1, -⟩ := panelPixel_lt hx hy
    obtain ⟨h1', -⟩ := panelPixel_lt hx' hy'
    exact panelPixel_injective hx hx' (Prod.ext (by omega) (by omega))
  · obtain ⟨x, hx, y, hy, hp⟩ := panelPixel_surjective o (px := k % 22 * 8 + j) (py := k / 22) (by omega) (by omega)
    refine ⟨x, hx, y, hy, ?_, ?_⟩
    · simp only [targetIndex_eq, hp]
      omega
    · have hmod : (k % 22 * 8 + j) % 8 = j := by omega
      simp only [targetMask_eq, hp, hmod]
  · rw [targetIndex_eq, panelPixel_landscape hy]

end Sys2Proof.Proofs
end

section
/-! PROOFS. Operations that send frames and do nothing else: the wire commands, SENDCMD and SENDDATA (spec/30_encoding.md R91, R92;
spec/41_panel_primitives.md R142, R143; spec/44_wire_commands.md R210). -/

namespace Sys2Proof.Proofs

open Sys2Proof Sys2Proof.Machine Sys2Proof.Laws

/-! ## Operations that send frames and do nothing else -/

/-- The operation sends the frames `fs`, with no check but that of the Transport (41_panel_primitives.md R142, R143;
44_wire_commands.md R210). -/
def Sends (i : Instr) (fs : List Frame) : Prop :=
  ∀ s, exec i s = operate i (.plain (framesItems fs)) (needAcquired s) s

/-- A wire command sends its frames. -/
theorem sends_of_encode {i : Instr} {fs : List Frame} (h : encode i = .frames fs) : Sends i fs := by
  intro s
  cases i <;> cases h <;> rfl

/-- The primitive that sends one frame: SENDCMD a command frame, SENDDATA a data frame (41_panel_primitives.md R142, R143). -/
def sendFrame : Frame → Instr
  | ⟨.low, b⟩ => .sendCmd b
  | ⟨.high, b⟩ => .sendData b

/-- The primitive of a frame sends that frame. -/
theorem sends_sendFrame (f : Frame) : Sends (sendFrame f) [f] := by
  intro s
  rcases f with ⟨_ | _, b⟩ <;> rfl

section
variable {i : Instr} {fs : List Frame} {s : State}

/-- In flight the operation's step is its next micro-operation. -/
theorem Sends.stepOf (h : Sends i fs) (L : BitVec 16) : StepOf (exec i) i (.plain (framesItems fs)) L :=
  fun s _ _ hp _ => by rw [h s, operate_running hp]

/-- From IDLE with the Transport acquired the first micro-operation is performed. -/
theorem Sends.start (h : Sends i fs) (hp : s.pc = .idle) (hacq : s.trState = .acquired) :
    exec i s = performNext (.plain (framesItems fs)) (s.start i (.plain (framesItems fs))) := by
  rw [h s, operate_idle hp, needAcquired_acquired hacq]

/-- The first step drives DC (30_encoding.md R91). -/
theorem Sends.first {f : Frame} (h : Sends i (f :: fs)) (hp : s.pc = .idle) (hacq : s.trState = .acquired) :
    exec i s = .next { s with
      pins := { s.pins with dc := .driven f.dc }, trace := s.trace ++ [.pinWrite .dc f.dc], pc := .running i 1 0 } := by
  rw [h.start hp hacq, performNext_cons (k := 0) (n := 0) rfl rfl rfl]
  rfl

/-- From IDLE the operation runs as from the start of its list. -/
theorem Sends.run_start (h : Sends i fs) (hp : s.pc = .idle) (hacq : s.trState = .acquired) {n : Nat} (hn : n ≠ 0) :
    runOp n i s = runOp n i (s.start i (.plain (framesItems fs))) := by
  obtain ⟨m, rfl⟩ := Nat.exists_eq_succ_of_ne_zero hn
  exact untilEnd_congr ((h.start hp hacq).trans (h.stepOf s.bufLen (s.start i _) 0 0 rfl rfl).symm) m

/-- Frames whose every byte goes out are sent whole, and the operation ends OK. -/
theorem Sends.run (h : Sends i fs) (hfs : fs ≠ []) (hp : s.pc = .idle) (hacq : s.trState = .acquired)
    (hs : ∀ n < fs.length, s.spiAt n = true) : runOp (4 * fs.length) i s = .next (afterFrames fs s).complete := by
  have hpos : 0 < (framesItems fs).length := by
    rw [framesItems_length]
    exact Nat.mul_pos (by decide) (List.length_pos_iff.2 hfs)
  rw [← framesItems_length, h.run_start hp hacq hpos.ne']
  refine (untilEnd_finish (s := s.start i _) (h.stepOf s.bufLen) (quiet_framesItems fs) (List.length_pos_iff.1 hpos)
    (k := 0) (n := 0) rfl rfl (by simp [State.items, Plan.items, Plan.plain]) 0).trans ?_
  rw [perform_frames (s := s.start i _) hs]
  rfl

/-- The list of frames up to the byte of frame `j`, and what comes after that byte. -/
theorem framesItems_split {fs : List Frame} {j : Nat} {f : Frame} (hj : fs[j]? = some f) :
    framesItems fs = (framesItems (fs.take j) ++ [.setPin .dc f.dc, .setPin .cs .low, .spiWrite f.byte]) ++
      .setPin .cs .high :: framesItems (fs.drop (j + 1)) := by
  obtain ⟨hlt, hf⟩ := List.getElem?_eq_some_iff.1 hj
  have hfs : fs = fs.take j ++ f :: fs.drop (j + 1) := by
    rw [← hf, List.getElem_cons_drop, List.take_append_drop]
  conv_lhs => rw [hfs]
  simp [framesItems, frameItems]

/-- Frames whose byte `j` is the first to fail: the operation ends there, CS low (60_exceptions.md R250, R251). -/
theorem Sends.run_fault (h : Sends i fs) {j : Nat} {f : Frame} (hj : fs[j]? = some f) (hp : s.pc = .idle)
    (hacq : s.trState = .acquired) (hs : ∀ n < j, s.spiAt n = true) (hf : s.spiAt j = false) :
    runOp (4 * j + 3) i s = .next (afterFramesFault fs j f s) := by
  have hsplit := framesItems_split hj
  have hrun := untilEnd_perform (s := s.start i (.plain (framesItems fs))) (h.stepOf s.bufLen)
    (fun m hm => quiet_framesItems fs m (by rw [hsplit]; exact List.mem_append_left _ hm)) (List.cons_ne_nil _ _)
    (k := 0) (n := 0) rfl rfl (by simpa [State.items, Plan.items, Plan.plain] using hsplit) 0
  have hlen : (fs.take j).length = j := List.length_take_of_le (List.getElem?_eq_some_iff.1 hj).1.le
  rw [perform_frames_fault (s := s.start i _) hj hs hf, List.length_append, framesItems_length, hlen] at hrun
  exact (h.run_start hp hacq (Nat.succ_ne_zero _)).trans hrun

/-- Where the Transport is not acquired nothing is sent (40_transport.md R120). -/
theorem Sends.run_not_acquired (h : Sends i fs) (hp : s.pc = .idle) (hacq : s.trState ≠ .acquired) (n : Nat) :
    runOp (n + 1) i s = .next (s.raise .notAcquired) :=
  untilEnd_end (by rw [h s, operate_idle hp, needAcquired_not hacq]) rfl n

end

/-! ## SENDCMD and SENDDATA -/

/-- Settles O27: each sends the one frame of its byte. -/
theorem sendCmdAndSendDataFrameOneByte : Obligations.SendCmdAndSendDataFrameOneByte := by
  intro s b hp hacq
  have hcmd : Sends (.sendCmd b) [⟨.low, b⟩] := sends_sendFrame ⟨.low, b⟩
  have hdata : Sends (.sendData b) [⟨.high, b⟩] := sends_sendFrame ⟨.high, b⟩
  refine ⟨hcmd.first hp hacq, hdata.first hp hacq, fun hs => ?_, fun hf => ?_⟩
  · have hs : ∀ n < 1, s.spiAt n = true := fun n hn => by rwa [Nat.lt_one_iff.1 hn]
    refine ⟨(hcmd.run (List.cons_ne_nil _ _) hp hacq hs).trans ?_, (hdata.run (List.cons_ne_nil _ _) hp hacq hs).trans ?_⟩ <;>
      rw [hp] <;> rfl
  · refine ⟨(hcmd.run_fault (j := 0) rfl hp hacq (by simp) hf).trans ?_,
      (hdata.run_fault (j := 0) rfl hp hacq (by simp) hf).trans ?_⟩ <;>
      rw [hp] <;> simp [afterFramesFault, framesEvents]

/-! ## A wire command composed -/

/-- The first operation ends, and the others go on from there. -/
theorem runOps_cons {n : Nat} {i : Instr} {is : List Instr} {s t : State} (h : runOp n i s = .next t) :
    runOps n (i :: is) s = runOps n is t := by
  simp only [runOps, h]

/-- One frame after the other, each by its primitive: all of them sent. -/
theorem runOps_sendFrames {f : Frame} {fs : List Frame} {s : State} (hp : s.pc = .idle) (hacq : s.trState = .acquired)
    (hs : ∀ n < fs.length + 1, s.spiAt n = true) :
    runOps 4 ((f :: fs).map sendFrame) s = .next (afterFrames (f :: fs) s).complete := by
  have hone : runOp 4 (sendFrame f) s = .next (afterFrames [f] s).complete :=
    (sends_sendFrame f).run (List.cons_ne_nil _ _) hp hacq fun n hn => hs n (by simp at hn ⊢; omega)
  rw [List.map_cons, runOps_cons hone]
  cases fs with
  | nil => rfl
  | cons g fs =>
    have hrest := runOps_sendFrames (f := g) (fs := fs) (s := (afterFrames [f] s).complete) rfl hacq fun n hn => by
      simpa [State.spiAt, afterFrames, Nat.add_comm] using hs (n + 1) (by simpa using hn)
    rw [← afterFrames_cons f (g :: fs)]
    exact hrest

/-- Without the Transport no primitive sends its frame, and the last of them raises what the first did. -/
theorem runOps_sendFrames_not_acquired {f : Frame} {fs : List Frame} {s : State} (hp : s.pc = .idle)
    (hacq : s.trState ≠ .acquired) : runOps 4 ((f :: fs).map sendFrame) s = .next (s.raise .notAcquired) := by
  rw [List.map_cons, runOps_cons ((sends_sendFrame f).run_not_acquired hp hacq 3)]
  cases fs with
  | nil => rfl
  | cons g fs => exact runOps_sendFrames_not_acquired (s := s.raise .notAcquired) rfl hacq

/-- Settles O48: the frames of the entry, sent at once or one by one, leave the same state. -/
theorem wireCommandIsSendCmdThenSendData : Obligations.WireCommandIsSendCmdThenSendData := by
  intro i e s he hp hs
  have hsends : Sends i e.frames := sends_of_encode he
  have hlen : e.frames.length = e.data.length + 1 := by simp [Entry.frames]
  have hops : .sendCmd e.cmd :: e.data.map .sendData = e.frames.map sendFrame := by
    simp [Entry.frames, sendFrame]
  rw [hops]
  by_cases hacq : s.trState = .acquired
  · rw [← hlen, hsends.run (List.cons_ne_nil _ _) hp hacq (by rwa [hlen]), Entry.frames]
    exact (runOps_sendFrames hp hacq (by simpa using hs)).symm
  · rw [show 4 * (e.data.length + 1) = 4 * e.data.length + 3 + 1 by omega, hsends.run_not_acquired hp hacq]
    exact (runOps_sendFrames_not_acquired hp hacq).symm

end Sys2Proof.Proofs
end

section
/-! PROOFS. The Transport operations of one step and RELEASE, and the check of the acquisition in every operation with a pin or
SPI micro-operation (spec/40_transport.md R120 to R130; spec/60_exceptions.md R240 to R250). -/

namespace Sys2Proof.Proofs

open Sys2Proof Sys2Proof.Machine Sys2Proof.Laws

variable {i op : Instr} {p : Plan} {m : Micro} {check : Outcome → Outcome} {s t : State}

/-! ## From IDLE -/

/-- With nothing in flight an OK end writes ERR alone (10_state.md R28). -/
theorem complete_of_idle (hp : s.pc = .idle) : s.complete = { s with err := .ok } := by
  simp [State.complete, hp]

/-- With nothing in flight an error writes ERR alone (60_exceptions.md R250). -/
theorem raise_of_idle (hp : s.pc = .idle) (e : Err) : s.raise e = { s with err := e } := by
  simp [State.raise, hp]

/-- The entry checks of an operation decide alone: they answer `o` whatever would follow. -/
theorem operate_answers (hp : s.pc = .idle) {o : Outcome} (hc : ∀ go, check go = o) : operate op p check s = o := by
  rw [operate_idle hp, hc]

/-- The entry checks of an operation let it through to its first micro-operation. -/
theorem operate_passes (hp : s.pc = .idle) (hc : ∀ go, check go = go) :
    operate op p check s = performNext p (s.start op p) := by
  rw [operate_idle hp, hc]

/-- The start of an operation whose list leaves PD_STATE and PD_MODE alone. -/
theorem start_plain (s : State) (op : Instr) (ms : List Micro) : s.start op (.plain ms) = s.begin op := rfl

@[simp] theorem begin_spiAt (s : State) (op : Instr) (n : Nat) : (s.begin op).spiAt n = s.spiAt n := rfl

/-- A step whose next micro-operation is `m`. -/
theorem performNext_some (hm : (s.items p)[s.pc.done]? = some m) :
    performNext p s = resume (micro m s) (fun t => .next (t.settle p)) := by
  simp only [performNext, hm]
  cases micro m s <;> rfl

/-- An operation of one micro-operation that goes through ends OK in that step (10_state.md R23). -/
theorem operate_single_on (hp : s.pc = .idle) (hc : ∀ go, check go = go)
    (hm : micro m (s.start op (.plain [m])) = .on t) (ht : t.pc = .running op 1 0) :
    operate op (.plain [m]) check s = .next t.complete := by
  have hend : (t.items (.plain [m]))[t.pc.done]? = none := by simp [State.items, Plan.items, Plan.plain, ht]
  rw [operate_passes hp hc, performNext_some rfl, hm, resume_on, State.settle, hend]
  rfl

/-- An operation of one micro-operation that an error ends. -/
theorem operate_single_out (hp : s.pc = .idle) (hc : ∀ go, check go = go)
    (hm : micro m (s.start op (.plain [m])) = .out t) : operate op (.plain [m]) check s = .next t := by
  rw [operate_passes hp hc, performNext_some rfl, hm, resume_out]

/-! ## One micro-operation: SETPIN, READPIN, SLEEP, WRITEBYTE -/

theorem outputOf_eq_none {role : PinRole} : outputOf role = none ↔ role = .busy := by
  cases role <;> simp [outputOf]

/-- SETPIN of an output (40_transport.md R127). -/
theorem exec_setPin {role : PinRole} {r : OutPin} (h : outputOf role = some r) (level : Level) (s : State) :
    exec (.setPin role level) s = operate (.setPin role level) (.plain [.setPin r level]) (needAcquired s) s := by
  simp only [exec, execSetPin, h]

/-- SETPIN of BUSY (40_transport.md R127). -/
theorem exec_setPin_busy (hp : s.pc = .idle) (level : Level) :
    exec (.setPin .busy level) s = .next (s.raise .invalidPinRole) :=
  needIdle_idle hp _

/-- READPIN of an output (40_transport.md R128). -/
theorem exec_readPin_output {role : PinRole} (hp : s.pc = .idle) (h : role ≠ .busy) :
    exec (.readPin role) s = .next (s.raise .invalidPinRole) := by
  obtain ⟨r, hr⟩ := Option.ne_none_iff_exists'.1 (mt outputOf_eq_none.1 h)
  simp only [exec, execReadPin, hr, needIdle_idle hp]

/-! ## The Transport not acquired -/

/-- The length check of DISPLAYFRAME passes a whole frame (42_panel_sequences.md R165). -/
theorem needFrame_whole (h : s.bufLen.toNat = frameLen) (go : Outcome) : needFrame s go = go :=
  if_neg (not_not.2 h)

/-- Every operation with a pin or SPI micro-operation, whose role or length is not the error, checks the acquisition before
anything else (40_transport.md R120; 60_exceptions.md R248). -/
theorem exec_not_acquired (hp : s.pc = .idle) (hacq : s.trState ≠ .acquired) (hacquire : i ≠ .acquire)
    (hrelease : i ≠ .release) (hsleep : ∀ ms, i ≠ .sleep ms) (hencode : i ≠ .encode) (hset : ∀ l, i ≠ .setPin .busy l)
    (hread : ∀ r, i = .readPin r → r = .busy) (hframe : i = .displayFrame → s.bufLen.toNat = frameLen) :
    exec i s = .next (s.raise .notAcquired) := by
  cases i with
  | acquire => exact absurd rfl hacquire
  | release => exact absurd rfl hrelease
  | sleep ms => exact absurd rfl (hsleep ms)
  | encode => exact absurd rfl hencode
  | setPin role l =>
    obtain ⟨r, hr⟩ := Option.ne_none_iff_exists'.1 (mt outputOf_eq_none.1 fun h : role = .busy => hset l (by rw [h]))
    rw [exec_setPin hr]
    exact operate_answers hp (needAcquired_not hacq)
  | readPin role =>
    obtain rfl := hread role rfl
    exact operate_answers hp (needAcquired_not hacq)
  | writeBytes => exact operate_answers hp fun _ => needAcquired_not hacq _
  | clear f => exact operate_answers hp fun _ => needAcquired_not hacq _
  | displayFrame =>
    exact operate_answers hp fun _ => (needFrame_whole (hframe rfl) _).trans (needAcquired_not hacq _)
  | _ => exact operate_answers hp (needAcquired_not hacq)

/-- Settles O22, by `exec_not_acquired`. -/
theorem pinAndSpiOperationsNeedTheTransport : Obligations.PinAndSpiOperationsNeedTheTransport := by
  intro i s hp hacq h1 h2 h3 h4 h5 h6 h7
  rw [exec_not_acquired hp hacq h1 h2 h3 h4 h5 h6 h7, raise_of_idle hp]

/-- Settles O16: the role decides, then the acquisition, then the pin is driven. -/
theorem setPinDrivesItsOutput : Obligations.SetPinDrivesItsOutput := by
  intro s role level hp
  refine ⟨?_, fun hrole hacq => ?_, fun r hr hacq => ?_⟩
  · rintro rfl
    rw [exec_setPin_busy hp, raise_of_idle hp]
  · rw [exec_not_acquired hp hacq (by simp) (by simp) (by simp) (by simp) (by simpa using hrole) (by simp) (by simp),
      raise_of_idle hp]
  · rw [exec_setPin hr, operate_single_on hp (needAcquired_acquired hacq) (micro_setPin r level _) rfl, hp]
    rfl

/-- Settles O17: the role decides, then the acquisition, then BUSY is sampled. -/
theorem readPinLeavesTheLevelInRdval : Obligations.ReadPinLeavesTheLevelInRdval := by
  intro s role hp
  refine ⟨fun hrole => ?_, ?_, ?_⟩
  · rw [exec_readPin_output hp hrole, raise_of_idle hp]
  · rintro rfl hacq
    rw [exec_not_acquired hp hacq (by simp) (by simp) (by simp) (by simp) (by simp) (by simp) (by simp), raise_of_idle hp]
  · rintro rfl hacq
    refine (operate_single_on hp (needAcquired_acquired hacq) (micro_readPin _) rfl).trans ?_
    rw [hp]
    rfl

/-- Settles O18: SLEEP has no entry check. -/
theorem sleepRecordsItsDelay : Obligations.SleepRecordsItsDelay := by
  intro s ms hp
  refine (operate_single_on hp (fun _ => rfl) (micro_sleep ms.toNat _) rfl).trans ?_
  rw [hp]
  rfl

/-- Settles O19, by the answer of the environment. -/
theorem writeByteSendsOrFaults : Obligations.WriteByteSendsOrFaults := by
  intro s b hp hacq
  refine ⟨fun hs => ?_, fun hf => ?_⟩
  · have hm : micro (.spiWrite b) (s.start (.writeByte b) (.plain [.spiWrite b])) = .on (afterByte b _) := shiftOut_ok hs
    refine (operate_single_on hp (needAcquired_acquired hacq) hm rfl).trans ?_
    rw [hp]
    rfl
  · have hm : micro (.spiWrite b) (s.start (.writeByte b) (.plain [.spiWrite b])) = .out (afterFault b _) := shiftOut_fail hf
    refine (operate_single_out hp (needAcquired_acquired hacq) hm).trans ?_
    rw [hp]
    rfl

/-! ## ACQUIRE and RELEASE -/

theorem needOpen_acquired (h : s.trState = .acquired) (go : Outcome) : needOpen s go = go := by
  simp only [needOpen, h]

theorem needOpen_not (h : s.trState ≠ .acquired) (go : Outcome) : needOpen s go = .next s.complete := by
  cases hs : s.trState with
  | acquired => exact absurd hs h
  | _ => simp only [needOpen, hs]

theorem tryAcquire_granted (hp : s.pc = .idle) (h : s.grantAt 0 = true) :
    s.tryAcquire = { s with
      trState := .acquired, pins := Pins.closed, err := .ok, trace := s.trace ++ [.opened], grants := s.grants.skip 1 } := by
  simp [State.tryAcquire, h, State.emit, State.complete, hp]

theorem tryAcquire_not_granted (hp : s.pc = .idle) (h : s.grantAt 0 = false) :
    s.tryAcquire = { s with err := .hardwareUnavailable, grants := s.grants.skip 1 } := by
  simp [State.tryAcquire, h, State.raise, hp]

/-- ACQUIRE from UNACQUIRED (40_transport.md R125). -/
theorem exec_acquire_unacquired (hp : s.pc = .idle) (h : s.trState = .unacquired) : exec .acquire s = .next s.tryAcquire := by
  simp only [exec, execAcquire, needIdle_idle hp, h]

/-- ACQUIRE elsewhere (40_transport.md R125 c). -/
theorem exec_acquire_again (hp : s.pc = .idle) (h : s.trState ≠ .unacquired) :
    exec .acquire s = .refused (.contractViolation .acquireAgain) := by
  cases hs : s.trState with
  | unacquired => exact absurd hs h
  | _ => simp only [exec, execAcquire, needIdle_idle hp, hs]

/-- Settles O14, by the lifecycle state and the answer of the environment. -/
theorem acquireOpensAllOrNothing : Obligations.AcquireOpensAllOrNothing := by
  intro s hp
  refine ⟨fun hu hg => ?_, fun hu hg => ?_, exec_acquire_again hp⟩
  · rw [exec_acquire_unacquired hp hu, tryAcquire_granted hp hg]
  · rw [exec_acquire_unacquired hp hu, tryAcquire_not_granted hp hg]

/-- The four micro-operations of RELEASE always go through (40_transport.md R126). -/
theorem perform_release (s : State) :
    perform releasePlan.before s = .on { s with
      trState := .released, pins := Pins.closed, pdState := .poweredOff, pdMode := .none, pc := advanceBy 4 s.pc,
      trace := s.trace ++ [.pinWrite .reset .low, .pinWrite .dc .low, .pinWrite .power .low, .closed] } := by
  simp [releasePlan, Plan.plain, perform_cons, State.closePins, State.emit, advance_eq]

theorem quiet_release : ∀ m ∈ releasePlan.before, quiet m = true := by decide

/-- Settles O15: the list of RELEASE goes through, and outside ACQUIRED its check ends it. -/
theorem releaseClosesOnce : Obligations.ReleaseClosesOnce := by
  intro s hp
  refine ⟨fun hacq => ⟨?_, ?_⟩, fun hacq => ?_⟩
  · refine (operate_passes hp (needOpen_acquired hacq)).trans ?_
    rw [performNext_cons (k := 0) (n := 0) rfl rfl rfl]
    rfl
  · have ha : Accepts .release s := ⟨fun _ => hacq, by simp, by simp, by simp⟩
    have hrun := run_plain (c := Config.setup) (p := releasePlan) rfl rfl hp ha quiet_release (List.cons_ne_nil _ _)
    rw [perform_release, resume_on, ← runOp_eq] at hrun
    refine hrun.trans ?_
    rw [hp]
    rfl
  · rw [← complete_of_idle hp]
    exact operate_answers hp (needOpen_not hacq)

end Sys2Proof.Proofs
end

section
/-! PROOFS. WRITEBYTES: its first byte, its whole run, and its end at the first byte that fails (spec/40_transport.md R131;
spec/60_exceptions.md R250). -/

namespace Sys2Proof.Proofs

open Sys2Proof Sys2Proof.Machine Sys2Proof.Laws

variable {op : Instr} {s : State}

/-- Among the bytes of BUF there is no read of BUSY. -/
theorem quiet_spiBufs (l : List Nat) : ∀ m ∈ l.map Micro.spiBuf, quiet m = true := by
  intro m hm
  obtain ⟨k, -, rfl⟩ := List.mem_map.1 hm
  rfl

/-- The entry checks of WRITEBYTES let it through (40_transport.md R131). -/
theorem accepts_writeBytes (hacq : s.trState = .acquired) (hcap : s.bufLen.toNat ≤ bufCap) : Accepts .writeBytes s :=
  ⟨fun _ => hacq, by simp, by simp, fun _ => hcap⟩

/-- The first step of WRITEBYTES. -/
theorem exec_writeBytes_start (hp : s.pc = .idle) (hacq : s.trState = .acquired) (hcap : s.bufLen.toNat ≤ bufCap) :
    exec .writeBytes s = performNext (bufferPlan s.bufLen.toNat) (s.begin .writeBytes) := by
  rw [← execWith_setup]
  exact execWith_start rfl hp (accepts_writeBytes hacq hcap)

/-- The list of WRITEBYTES is the bytes of BUF, wherever it stands (40_transport.md R131). -/
theorem items_bufferPlan (s : State) (len : Nat) : s.items (bufferPlan len) = (List.range len).map .spiBuf := by
  simp [State.items, Plan.items, bufferPlan, Plan.plain]

/-- In WRITEBYTES BUF[k] is next once `k` bytes are sent. -/
theorem items_bufferPlan_at {k n len : Nat} (hk : s.pc = .running op k n) (hlt : k < len) :
    (s.items (bufferPlan len))[s.pc.done]? = some (.spiBuf k) := by
  rw [hk, done_running, items_bufferPlan, List.getElem?_map, List.getElem?_range hlt, Option.map_some]

/-- In flight WRITEBYTES comes to a byte that fails (40_transport.md R124). -/
theorem exec_writeBytes_fault {k n : Nat} {b : Byte} (hk : s.pc = .running .writeBytes k n) (hlt : k < s.bufLen.toNat)
    (hb : Memory.read s.buf k = some b) (hf : s.spiAt 0 = false) : exec .writeBytes s = .next (afterFault b s) := by
  rw [exec, execWriteBytes, operate_running hk, performNext_some (items_bufferPlan_at hk hlt), spiBuf_some hb,
    shiftOut_fail hf, resume_out]

/-- The list of WRITEBYTES cut before BUF[j]. -/
theorem bufferPlan_split {j len : Nat} (hj : j ≤ len) (l : Level) :
    (bufferPlan len).items 0 l = (List.range j).map .spiBuf ++ (List.range' j (len - j)).map .spiBuf := by
  obtain ⟨n, rfl⟩ := Nat.exists_eq_add_of_le hj
  simp [Plan.items, bufferPlan, Plan.plain, List.range_eq_range', ← List.range'_append_1]

/-- The state after bytes of BUF that went out (40_transport.md R131). -/
def afterBytes (bytes : List Byte) (s : State) : State :=
  { s with
    trace := s.trace ++ bytes.map .spiWrite, spiOk := s.spiOk.skip bytes.length, pc := advanceBy bytes.length s.pc }

@[simp] theorem afterBytes_pc (bytes : List Byte) (s : State) : (afterBytes bytes s).pc = advanceBy bytes.length s.pc := rfl
@[simp] theorem afterBytes_bufLen (bytes : List Byte) (s : State) : (afterBytes bytes s).bufLen = s.bufLen := rfl
@[simp] theorem afterBytes_buf (bytes : List Byte) (s : State) : (afterBytes bytes s).buf = s.buf := rfl
@[simp] theorem afterBytes_spiAt (bytes : List Byte) (s : State) (n : Nat) :
    (afterBytes bytes s).spiAt n = s.spiAt (bytes.length + n) := by
  simp [State.spiAt, afterBytes]

/-- BUF[0] onward, written, its bytes all going out. -/
theorem perform_buffer {bytes : List Byte} (hr : ∀ k < bytes.length, Memory.read s.buf k = bytes[k]?)
    (hs : ∀ k < bytes.length, s.spiAt k = true) :
    perform ((List.range bytes.length).map .spiBuf) s = .on (afterBytes bytes s) := by
  rw [List.range_eq_range']
  exact perform_spiBufs (by simpa using hr) hs

/-- With BUF_LEN 0 WRITEBYTES ends at once. -/
theorem writeBytes_empty (hp : s.pc = .idle) (hacq : s.trState = .acquired) (hlen : s.bufLen.toNat = 0) :
    exec .writeBytes s = .next { s with err := .ok } := by
  rw [exec_writeBytes_start hp hacq (by omega), hlen, ← complete_of_idle hp]
  rfl

/-- The first byte of several. -/
theorem writeBytes_first {b : Byte} (hp : s.pc = .idle) (hacq : s.trState = .acquired) (hcap : s.bufLen.toNat ≤ bufCap)
    (hlen : 1 < s.bufLen.toNat) (hr : Memory.read s.buf 0 = some b) (hs : s.spiAt 0 = true) :
    exec .writeBytes s = .next { s with
      trace := s.trace ++ [.spiWrite b], spiOk := s.spiOk.skip 1, pc := .running .writeBytes 1 0 } := by
  rw [exec_writeBytes_start hp hacq hcap, performNext_some (items_bufferPlan_at (begin_pc s _) (by omega)),
    spiBuf_some (s := s.begin _) hr, shiftOut_ok (s := s.begin _) hs, resume_on, State.settle,
    items_bufferPlan_at (k := 1) rfl hlen]
  rfl

/-- Written entries whose bytes all go out are sent in order, and WRITEBYTES ends OK. -/
theorem writeBytes_sent {bytes : List Byte} (hp : s.pc = .idle) (hacq : s.trState = .acquired)
    (hlen : bytes.length = s.bufLen.toNat) (hcap : s.bufLen.toNat ≤ bufCap) (hne : bytes ≠ [])
    (hr : ∀ k < bytes.length, Memory.read s.buf k = bytes[k]?) (hs : ∀ k < bytes.length, s.spiAt k = true) :
    runOp bytes.length .writeBytes s = .next { s with
      err := .ok, trace := s.trace ++ bytes.map .spiWrite, spiOk := s.spiOk.skip bytes.length } := by
  have hplan : planOf Config.setup s .writeBytes = some (bufferPlan bytes.length) := by rw [hlen]; rfl
  have hcount : (bufferPlan bytes.length).before.length = bytes.length := by simp [bufferPlan, Plan.plain]
  have hrun := run_plain hplan rfl hp (accepts_writeBytes hacq hcap) (quiet_spiBufs _)
    (by rw [← List.length_pos_iff, hcount]; exact List.length_pos_iff.2 hne)
  have hsent := perform_buffer (s := s.begin .writeBytes) hr hs
  rw [hcount, ← runOp_eq] at hrun
  refine hrun.trans ((congrArg (resume · _) hsent).trans ?_)
  rw [hp]
  rfl

/-- A byte that fails after those before it have gone out ends WRITEBYTES there (60_exceptions.md R250). -/
theorem writeBytes_fault {bytes : List Byte} {b : Byte} (hp : s.pc = .idle) (hacq : s.trState = .acquired)
    (hlen : bytes.length < s.bufLen.toNat) (hcap : s.bufLen.toNat ≤ bufCap)
    (hr : ∀ k < bytes.length, Memory.read s.buf k = bytes[k]?) (hb : Memory.read s.buf bytes.length = some b)
    (hs : ∀ k < bytes.length, s.spiAt k = true) (hf : s.spiAt bytes.length = false) :
    runOp (bytes.length + 1) .writeBytes s = .next { s with
      err := .transferFailure, trace := s.trace ++ bytes.map .spiWrite ++ [.spiFault b],
      spiOk := s.spiOk.skip (bytes.length + 1), faultMark := true } := by
  have hrun := run_stretch (c := Config.setup) rfl hp (accepts_writeBytes hacq hcap) (quiet_spiBufs _)
    (bufferPlan_split hlen.le s.rdval) (by simpa using Nat.sub_ne_zero_of_lt hlen) 1 (by omega)
  rw [bufferPlan, start_plain, perform_buffer (s := s.begin _) hr hs, resume_on, ← runOp_eq, List.length_map,
    List.length_range] at hrun
  have hlast := exec_writeBytes_fault (s := afterBytes bytes (s.begin .writeBytes)) (advanceBy_running _ _ _ _)
    (by simpa using hlen) (by simpa using hb) (by simpa using hf)
  refine hrun.trans ((untilEnd_end ((execWith_setup _ _).trans hlast) rfl 0).trans ?_)
  simp [afterFault, afterBytes, hp]

/-- Settles O20: the empty buffer, the first of several bytes, and the whole run. -/
theorem writeBytesSendsTheBuffer : Obligations.WriteBytesSendsTheBuffer := by
  intro s bytes hp hacq hlen hcap hr hs
  refine ⟨?_, ?_, fun hne => writeBytes_sent hp hacq hlen hcap hne hr hs⟩
  · rintro rfl
    exact writeBytes_empty hp hacq hlen.symm
  · rintro b rest rfl hrest
    have hpos := List.length_pos_iff.2 hrest
    rw [List.length_cons] at hlen hr hs
    exact writeBytes_first hp hacq hcap (by omega) (hr 0 (by omega)) (hs 0 (by omega))

/-- Settles O21, by `writeBytes_fault`. -/
theorem writeBytesStopsAtTheFirstFailure : Obligations.WriteBytesStopsAtTheFirstFailure := by
  rintro s bytes _ b hp hacq hlen hcap rfl hr hb hs hf
  exact writeBytes_fault hp hacq hlen hcap hr hb hs hf

end Sys2Proof.Proofs
end

section
/-! PROOFS. A write of a pin is recorded by the micro-operation that drives it, and who drives POWER high (spec/40_transport.md
R121, R126, R127). -/

namespace Sys2Proof.Proofs

open Sys2Proof Sys2Proof.Machine Sys2Proof.Laws

variable {c : Setup} {i : Instr} {p : Plan} {m : Micro} {s t : State}

/-- A byte records no write of a pin. -/
theorem shiftOut_trace_ne_pinWrite {b : Byte} {r : OutPin} {l : Level} (h : s.shiftOut b = .on t ∨ s.shiftOut b = .out t) :
    t.trace ≠ s.trace ++ [.pinWrite r l] := by
  rcases shiftOut_cases b s with ⟨_, h'⟩ | ⟨_, h'⟩ <;> rw [h'] at h
  · obtain rfl : afterByte b s = t := by simpa using h
    simp [afterByte]
  · obtain rfl : afterFault b s = t := by simpa using h
    simp [afterFault]

/-- A write of a pin is recorded by the micro-operation that drives it, and by no other (40_transport.md R121). -/
theorem micro_pinWrite {r : OutPin} {l : Level} (h : micro m s = .on t ∨ micro m s = .out t)
    (ht : t.trace = s.trace ++ [.pinWrite r l]) : m = .setPin r l := by
  cases m with
  | setPin r' l' =>
    obtain rfl : s.drive r' l' = t := by simpa using h
    simpa using ht
  | readPin =>
    obtain rfl : s.sample = t := by simpa using h
    simp at ht
  | sleep ms =>
    obtain rfl : s.delay ms = t := by simpa using h
    simp at ht
  | sleepInto ms q =>
    obtain rfl : State.delay { s with pdState := q } ms = t := by simpa using h
    simp at ht
  | close =>
    obtain rfl : s.closePins = t := by simpa using h
    simp at ht
  | spiWrite b => exact absurd ht (shiftOut_trace_ne_pinWrite h)
  | spiBuf k =>
    cases hb : Memory.read s.buf k with
    | none => rw [spiBuf_none hb] at h; simp at h
    | some b => rw [spiBuf_some hb] at h; exact absurd ht (shiftOut_trace_ne_pinWrite h)
  | poll lim =>
    rcases poll_cases lim s with ⟨h', _⟩ | ⟨_, _, h'⟩ <;> rw [micro_poll, h'] at h
    · obtain rfl : afterRead s = t := by simpa using h
      simp [afterRead] at ht
    · obtain rfl := (by simpa using h : _ = t)
      simp [afterRead] at ht

/-- An operation that records a write of a pin has that micro-operation on its list. -/
theorem execWith_pinWrite {r : OutPin} {l : Level} (h : execWith c i s = .next t)
    (ht : t.trace = s.trace ++ [.pinWrite r l]) :
    ∃ (p : Plan) (n k : Nat) (x : Level), planOf c s i = some p ∧ (p.items n x)[k]? = some (.setPin r l) := by
  rcases execWith_stands h with ⟨_, e, rfl⟩ | ⟨_, _, _, rfl⟩ | ⟨_, rfl⟩ | ⟨_, _, o, buf, _, rfl⟩ | ⟨p, x, hp, hx, hn⟩
  · simp at ht
  · rcases tryAcquire_cases s with h | h <;> simp [h] at ht
  · simp at ht
  · simp at ht
  · obtain ⟨_, htrace⟩ := hx.running
    rw [← htrace] at ht
    rcases performNext_performs hn with ⟨_, rfl⟩ | ⟨m, e, u, hm, _, hcase⟩
    · simp at ht
    · obtain rfl : m = .setPin r l := by
        rcases hcase with ⟨hu, _, rfl⟩ | ⟨hu, _, rfl⟩ | ⟨hu, rfl⟩
        · exact micro_pinWrite (.inl hu) ht
        · exact micro_pinWrite (.inl hu) ht
        · exact micro_pinWrite (.inr hu) ht
      exact ⟨p, _, _, _, hp, hm⟩

/-- POWER high stands on the list of SETPIN POWER, 1 alone: RELEASE drives it low (40_transport.md R126, R127 c). -/
theorem power_high_at (hp : planOf c s i = some p) {n k : Nat} {x : Level}
    (hm : (p.items n x)[k]? = some (.setPin .power .high)) : i = .setPin .power .high := by
  have hmem := List.mem_of_getElem? hm
  rcases drives_of_item hp hm with ⟨l, rfl⟩ | rfl <;> cases hp
  · have hl : Level.high = l := by simpa [Plan.items, Plan.plain] using hmem
    rw [hl]
  · simp [Plan.items, releasePlan, Plan.plain] at hmem

/-- Settles O58: what a step records is one event at most, and POWER high is not it, by `execWith_pinWrite` and `power_high_at`. -/
theorem powerIsRaisedOnlyBySetPin : Obligations.PowerIsRaisedOnlyBySetPin := by
  intro i s t h hi
  rw [← execWith_setup] at h
  rcases execWith_trace h with ht | ⟨e, ht⟩
  · exact ⟨[], by rw [ht, List.append_nil], List.not_mem_nil⟩
  · refine ⟨[e], ht, fun he => hi ?_⟩
    rw [← List.mem_singleton.1 he] at ht
    obtain ⟨p, n, k, x, hp, hm⟩ := execWith_pinWrite h ht
    exact power_high_at hp hm

end Sys2Proof.Proofs
end

section
/-! PROOFS. The reset pulse of RESET, and the wait for BUSY of every operation that has one: from its reads of 1 to the read of 0 that
ends it or to the bound (spec/41_panel_primitives.md R141, R144 to R146; spec/42_panel_sequences.md R162 to R165). -/

namespace Sys2Proof.Proofs

open Sys2Proof Sys2Proof.Machine Sys2Proof.Laws

variable {op : Instr} {p : Plan} {w : Wait} {n N : Nat} {s : State}

/-! ## RESET -/

/-- Among the micro-operations of RESET there is no read of BUSY. -/
theorem quiet_resetPlan : ∀ m ∈ resetPlan.before, quiet m = true := by decide

/-- The list of RESET goes through (41_panel_primitives.md R141). -/
theorem perform_resetPlan (s : State) :
    perform resetPlan.before s = .on { s with
      pins := { s.pins with reset := .driven .high }, trace := s.trace ++ pulseEvents, pc := advanceBy 6 s.pc } := by
  rw [resetPlan, pulse_on, micro_sleep]
  simp [State.delay, State.emit, pulseEvents, resetHighLast, advance_eq]

/-- Settles O26: the list of RESET goes through, and its marks write PD_STATE and PD_MODE at its two ends. -/
theorem resetPulsesAndForgetsTheConfiguration : Obligations.ResetPulsesAndForgetsTheConfiguration := by
  intro s hp hacq
  refine ⟨?_, ?_⟩
  · refine (operate_passes hp (needAcquired_acquired hacq)).trans ?_
    rw [performNext_cons (k := 0) (n := 0) rfl rfl rfl]
    rfl
  · have ha : Accepts .reset s := ⟨fun _ => hacq, by simp, by simp, by simp⟩
    have hrun := run_plain (c := Config.setup) (p := resetPlan) rfl rfl hp ha quiet_resetPlan (List.cons_ne_nil _ _)
    rw [perform_resetPlan, resume_on, ← runOp_eq] at hrun
    refine hrun.trans ?_
    rw [hp]
    rfl

/-! ## An operation at a read of its wait -/

/-- The step of an operation in flight is its next micro-operation. -/
theorem stepOf_exec (h : planOf Config.setup s op = some p) : StepOf (exec op) op p s.bufLen := by
  have he : exec op = execWith Config.setup op := funext fun x => (execWith_setup op x).symm
  rw [he]
  exact stepOf_execWith h

/-- The operation `op` is in flight and comes to a read of its wait `w`, the `n` reads before it having answered 1
(41_panel_primitives.md R144 a; log 12). -/
structure AtRead (op : Instr) (p : Plan) (w : Wait) (n : Nat) (s : State) : Prop where
  plan : planOf Config.setup s op = some p
  wait : p.wait = some w
  pc : s.pc = .running op (p.before.length + 2 * n) n
  last : n = 0 ∨ s.rdval = .high

/-- Where an operation waits, said by the micro-operations before its wait. -/
theorem atRead_of_waitStart {b : Nat} (hb : waitStart Config.setup op = some b) (hp : s.pc = .running op (b + 2 * n) n)
    (hr : n = 0 ∨ s.rdval = .high) :
    ∃ p w, AtRead op p w n s ∧ p.before.length = b ∧ w.limit = Config.setup.pollLimit := by
  obtain ⟨p, w, h, hw, rfl, hl⟩ := plan_of_waitStart hb s
  exact ⟨p, w, ⟨h, hw, hp, hr⟩, rfl, hl⟩

/-- In flight, its step is its next micro-operation. -/
theorem AtRead.stepOf (h : AtRead op p w n s) : StepOf (exec op) op p s.bufLen := stepOf_exec h.plan

/-- A read of 1 below the bound leaves the operation in flight (41_panel_primitives.md R144 a). -/
theorem AtRead.exec_high (h : AtRead op p w n s) (hb : s.busyAt 0 = .high) (hl : w.limit ≠ some (n + 1)) :
    exec op s = .next (afterRead s) := by
  have hread : (s.items p)[s.pc.done]? = some (.poll w.limit) := by
    rw [State.items, h.pc]
    exact items_read h.wait h.last
  have hreads : (afterRead s).pc.reads = n + 1 := by simp [afterRead, h.pc]
  have hpause : ((afterRead s).items p)[(afterRead s).pc.done]? = some (.sleep pollInterval) := by
    simpa [State.items, afterRead, h.pc, hb] using items_pause h.wait n
  rw [h.stepOf _ _ _ h.pc rfl, performNext_some hread, micro_poll, poll_high hb, hreads, if_neg hl, resume_on, State.settle,
    hpause]

/-- A read of 1 that reaches the bound ends the operation with PanelTimeout (41_panel_primitives.md R145). -/
theorem AtRead.exec_timeout (h : AtRead op p w n s) (hb : s.busyAt 0 = .high) (hl : w.limit = some (n + 1)) :
    exec op s = .next { afterRead s with faultMark := true, err := .panelTimeout, pc := .idle } :=
  turn_poll_timeout h.stepOf h.wait h.pc rfl h.last hb hl

/-- A read of 0 ends the wait: the operation ends with it where nothing follows the wait (41_panel_primitives.md R144 a). -/
theorem AtRead.exec_low (h : AtRead op p w n s) (hb : s.busyAt 0 = .low) :
    exec op s = .next (if w.after = [] then (afterRead s).finish p else afterRead s) :=
  (untilEnd_poll_low h.stepOf h.wait h.pc rfl h.last hb 0).1

/-- After `N` reads of 1 below the bound, each with its sleep, the operation is at its next read. -/
theorem AtRead.after_polls (h : AtRead op p w n s) (N : Nat) :
    AtRead op p w (n + N) (afterPolls N op (p.before.length + 2 * n) n s) where
  plan := (planOf_congr rfl op).trans h.plan
  wait := h.wait
  pc := by simp only [afterPolls]; congr 1; omega
  last := by
    cases N with
    | zero => simpa [afterPolls] using h.last
    | succ N => exact .inr rfl

/-- The machine takes two steps for each of `N` reads of 1 below the bound: the read and its sleep. -/
theorem AtRead.steps_polls (h : AtRead op p w n s) (hb : ∀ j < N, s.busyAt j = .high)
    (hl : ∀ j < N, w.limit ≠ some (n + j + 1)) :
    steps (2 * N) s = .next (afterPolls N op (p.before.length + 2 * n) n s) := by
  have hrun : runOp (2 * N) op s = .next (afterPolls N op (p.before.length + 2 * n) n s) :=
    untilEnd_polls h.stepOf h.wait h.pc rfl h.last hb hl 0
  obtain ⟨j, -, hj, hall⟩ := steps_of_runOp h.pc hrun
  rwa [hall (by simp [afterPolls])] at hj

/-- `N` reads of 1 below the bound, and one step more. -/
theorem AtRead.steps_polls_exec (h : AtRead op p w n s) (hb : ∀ j < N, s.busyAt j = .high)
    (hl : ∀ j < N, w.limit ≠ some (n + j + 1)) {t : State}
    (ht : exec op (afterPolls N op (p.before.length + 2 * n) n s) = .next t) : steps (2 * N + 1) s = .next t := by
  rw [steps_add (h.steps_polls hb hl), steps_succ ((step_running rfl).trans ht), steps_zero]

@[simp] theorem afterPolls_busyAt (N : Nat) (i : Instr) (k n : Nat) (s : State) (j : Nat) :
    (afterPolls N i k n s).busyAt j = s.busyAt (N + j) := by
  simp [State.busyAt, afterPolls]

/-- Where the bound is reached after `N` reads of 1 and one more, that one raises PanelTimeout (41_panel_primitives.md R145). -/
theorem AtRead.steps_timeout (h : AtRead op p w n s) (hb : ∀ j < N + 1, s.busyAt j = .high)
    (hl : w.limit = some (n + N + 1)) :
    steps (2 * N + 1) s = .next { s with
      pc := .idle, rdval := .high, err := .panelTimeout, faultMark := true,
      trace := s.trace ++ (List.replicate N [Event.pinRead .high, Event.sleep 200]).flatten ++ [.pinRead .high],
      busy := s.busy.skip (N + 1) } := by
  have hbelow : ∀ j < N, w.limit ≠ some (n + j + 1) := fun j hj => by
    rw [hl, ne_eq, Option.some_inj]
    omega
  have hlast : (afterPolls N op (p.before.length + 2 * n) n s).busyAt 0 = .high := by
    simpa using hb N (Nat.lt_succ_self N)
  rw [h.steps_polls_exec (fun j hj => hb j (Nat.lt_succ_of_lt hj)) hbelow ((h.after_polls N).exec_timeout hlast hl)]
  simp only [afterRead, hlast]
  simp [afterPolls]

/-- Settles O30: below the bound the operation reads and sleeps, and the read that reaches the bound ends it. -/
theorem waitGoesOnWhileBusyUnlessBounded : Obligations.WaitGoesOnWhileBusyUnlessBounded := by
  intro s op b n N hstart hp hr hb waiting
  obtain ⟨p, w, h, rfl, hl⟩ := atRead_of_waitStart hstart hp hr
  cases hM : Config.setup.pollLimit with
  | none => exact h.steps_polls hb (by simp [hl, hM])
  | some M =>
    rw [hM] at hl
    intro hn
    split
    · exact h.steps_polls hb fun j hj => by
        rw [hl, ne_eq, Option.some_inj]
        omega
    · obtain ⟨d, rfl⟩ : ∃ d, M = n + d + 1 := ⟨M - n - 1, by omega⟩
      have hd : n + d + 1 - n = d + 1 := by omega
      rw [hd]
      exact h.steps_timeout (N := d) (fun j hj => hb j (by omega)) hl

/-! ## The end of the wait -/

/-- `N` reads of 1 below the bound, each with its sleep, and the read of 0 that ends the wait (41_panel_primitives.md R144 a). -/
theorem AtRead.steps_low (h : AtRead op p w n s) (hb : ∀ j < N, s.busyAt j = .high) (hlow : s.busyAt N = .low)
    (hl : ∀ j < N, w.limit ≠ some (n + j + 1)) :
    steps (2 * N + 1) s = .next (if w.after = [] then (afterWait N op (p.before.length + 2 * n) n s).finish p
      else afterWait N op (p.before.length + 2 * n) n s) := by
  have hread : (afterPolls N op (p.before.length + 2 * n) n s).busyAt 0 = .low := by simpa using hlow
  have hwait : afterRead (afterPolls N op (p.before.length + 2 * n) n s) = afterWait N op (p.before.length + 2 * n) n s := by
    simp only [afterRead, hread]
    simp [afterPolls, afterWait, waitEvents]
  rw [h.steps_polls_exec hb hl ((h.after_polls N).exec_low hread), hwait]

/-- Frames have micro-operations. -/
theorem framesItems_ne_nil {fs : List Frame} (h : fs ≠ []) : framesItems fs ≠ [] := by
  rw [← List.length_pos_iff, framesItems_length]
  exact Nat.mul_pos (by decide) (List.length_pos_iff.2 h)

/-- A configuration that follows the wait, its last frame of data and every byte going out, ends the operation in Idle with its mode
after the read of 0 and four micro-operations a frame (42_panel_sequences.md R162, R163). -/
theorem AtRead.run_configuration {fs : List Frame} {mode : PdMode} (h : AtRead op p w n s) (ha : w.after = framesItems fs)
    (hleave : p.leave = ⟨some .idle, some mode⟩) (hlast : fs.getLast?.map Frame.dc = some .high)
    (hb : s.busyAt 0 = .low) (hspi : ∀ j < fs.length, s.spiAt j = true) :
    runOp (1 + 4 * fs.length) op s = .next { s with
      pc := .idle, err := .ok, rdval := .low, pdState := .idle, pdMode := mode,
      pins := { s.pins with dc := .driven .high, cs := .driven .high },
      trace := s.trace ++ [.pinRead .low] ++ framesEvents fs,
      spiOk := s.spiOk.skip fs.length, busy := s.busy.skip 1 } := by
  have hne : framesItems fs ≠ [] := framesItems_ne_nil (by rintro rfl; cases hlast)
  have hpc : (afterRead s).pc = .running op (p.before.length + 2 * n + 1) (n + 1) := by simp [afterRead, h.pc]
  have hrest : ((afterRead s).items p).drop (p.before.length + 2 * n + 1) = framesItems fs := by
    rw [State.items, hpc, ← ha, ← items_after h.wait n]
    simp [afterRead, hb]
  have hread := (untilEnd_poll_low h.stepOf h.wait h.pc rfl h.last hb (4 * fs.length)).2
  rw [ha, if_neg hne] at hread
  have hsend := untilEnd_finish h.stepOf (quiet_framesItems fs) hne hpc rfl hrest 0
  rw [framesItems_length, perform_frames (s := afterRead s) hspi, resume_on, afterFrames_last hlast] at hsend
  refine hread.trans (hsend.trans ?_)
  simp [State.finish, State.mark, State.complete, hleave, afterRead, hb]

/-- Settles O36: the read of 0 by `AtRead.exec_low`, and the configuration after it by `AtRead.run_configuration`. -/
theorem waitEndsWhenBusyReadsIdle : Obligations.WaitEndsWhenBusyReadsIdle := by
  intro s op b n hstart hp hr hb
  obtain ⟨p, w, h, rfl, -⟩ := atRead_of_waitStart hstart hp hr
  have hplan := h.plan
  have hwait := h.wait
  refine ⟨?_, ?_, fun hi => ?_, ?_, ?_⟩
  · rintro rfl
    cases hplan; cases hwait
    rw [h.exec_low hb, afterRead, hb]
    rfl
  · rintro (⟨f, rfl⟩ | rfl) <;>
    · cases hplan; cases hwait
      rw [h.exec_low hb, afterRead, hb]
      rfl
  · have ha : w.after ≠ [] := by
      rcases hi with rfl | rfl <;> cases hplan <;> cases hwait
      · exact framesItems_ne_nil (List.ne_nil_of_length_eq_add_one (stdFrames_length _))
      · exact framesItems_ne_nil (List.ne_nil_of_length_eq_add_one gray4Frames_length)
    rw [h.exec_low hb, if_neg ha, afterRead, hb, hp]
    rfl
  · rintro rfl hspi
    cases hplan; cases hwait
    exact h.run_configuration rfl rfl (stdFrames_last _) hb hspi
  · rintro rfl hspi
    cases hplan; cases hwait
    exact h.run_configuration rfl rfl gray4Frames_last hb hspi

/-! ## READBUSY from its issue -/

/-- READBUSY issued: no read made yet (41_panel_primitives.md R144). -/
def readBusyIssued (s : State) : State := { s with pc := .running .readBusy 0 0 }

@[simp] theorem readBusyIssued_busyAt (s : State) (j : Nat) : (readBusyIssued s).busyAt j = s.busyAt j := rfl

/-- It stands at its first read. -/
theorem atRead_issued (s : State) :
    AtRead .readBusy (readBusyPlan Config.setup.pollLimit) ⟨Config.setup.pollLimit, []⟩ 0 (readBusyIssued s) :=
  ⟨rfl, rfl, rfl, .inl rfl⟩

/-- From IDLE with the Transport acquired READBUSY takes the step it takes once issued. -/
theorem exec_issue_readBusy (hp : s.pc = .idle) (hacq : s.trState = .acquired) :
    exec .readBusy s = exec .readBusy (readBusyIssued s) :=
  (operate_passes hp (needAcquired_acquired hacq)).trans ((atRead_issued s).stepOf _ _ _ rfl rfl).symm

/-- Settles O28: the first read, by the level it answers and by the bound. -/
theorem readBusyEndsOrWaits : Obligations.ReadBusyEndsOrWaits := by
  intro s hp hacq
  have h := atRead_issued s
  have hissue := exec_issue_readBusy hp hacq
  refine ⟨fun hb => ?_, fun hb hl => ?_, fun hb hl => ⟨?_, ?_⟩⟩
  · rw [hissue, h.exec_low hb, afterRead, readBusyIssued_busyAt, hb, hp]
    rfl
  · rw [hissue, h.exec_timeout hb hl, afterRead, readBusyIssued_busyAt, hb, hp]
    rfl
  · rw [hissue, h.exec_high hb hl, afterRead, readBusyIssued_busyAt, hb]
    rfl
  · refine (untilEnd_congr hissue 1).trans ((untilEnd_poll_high h.stepOf h.wait h.pc rfl h.last hb hl 0).trans ?_)
    simp [afterPolls, readBusyIssued, readBusyPlan]

/-- The word of READBUSY (30_encoding.md R95). -/
theorem decodeWord_readBusy : decodeWord 0xD3000000 = .ok .readBusy := by decide

/-- The host's READBUSY runs as from its first read. -/
theorem steps_issue_readBusy {rest : List HostMove} (hp : s.pc = .idle) (hacq : s.trState = .acquired)
    (hh : s.host = .writeReg 0 0xD3000000 :: rest) (m : Nat) :
    steps (m + 1) s = steps (m + 1) (readBusyIssued { s with host := rest }) := by
  obtain ⟨hissue, -, -⟩ := stepRunsTheDecodedInstruction s .readBusy
  have hstep : step s = step (readBusyIssued { s with host := rest }) :=
    (hissue _ rest hp hh decodeWord_readBusy).trans
      ((exec_issue_readBusy (s := { s with host := rest }) hp hacq).trans (step_running rfl).symm)
  rw [steps, steps, hstep]

/-- The device's bound on the reads of BUSY is at least one (41_panel_primitives.md R145). -/
theorem pollLimit_ne_zero : Config.setup.pollLimit ≠ some 0 := by
  simp [Config.setup, Config.busyTimeoutPolls]

/-- Where none of `N` reads of 1 reaches the bound, the read of 0 after them ends READBUSY (41_panel_primitives.md R144 a). -/
theorem steps_readBusyIssued (hb : ∀ j < N, s.busyAt j = .high) (hlow : s.busyAt N = .low)
    (hl : ∀ j < N, Config.setup.pollLimit ≠ some (j + 1)) :
    steps (2 * N + 1) (readBusyIssued s) = .next { s with
      pc := .idle, rdval := .low, err := .ok, trace := s.trace ++ waitEvents N, busy := s.busy.skip (N + 1) } :=
  (atRead_issued s).steps_low hb hlow (by simpa using hl)

/-- Settles O29: from its first read, to the read of 0 or to the bound. -/
theorem readBusyMakesNPlusOneReads : Obligations.ReadBusyMakesNPlusOneReads := by
  intro s rest N hp hacq hh hb hlow done
  have hdone (hl : ∀ j < N, Config.setup.pollLimit ≠ some (j + 1)) : done := by
    refine (steps_issue_readBusy hp hacq hh (2 * N)).trans
      ((steps_readBusyIssued (s := { s with host := rest }) hb hlow hl).trans ?_)
    rw [hp]
  cases hM : Config.setup.pollLimit with
  | none => exact hdone (by simp [hM])
  | some M =>
    dsimp only
    split
    · exact hdone fun j hj => by
        rw [hM, ne_eq, Option.some_inj]
        omega
    · obtain ⟨d, rfl⟩ : ∃ d, M = d + 1 := Nat.exists_eq_succ_of_ne_zero (fun h0 => pollLimit_ne_zero (h0 ▸ hM))
      have htimeout := (atRead_issued { s with host := rest }).steps_timeout (N := d) (fun j hj => hb j (by omega))
        (hM.trans (by rw [Nat.zero_add]))
      rw [show 2 * (d + 1) - 1 = 2 * d + 1 by omega, steps_issue_readBusy hp hacq hh, htimeout, hp]
      rfl

end Sys2Proof.Proofs
end

section
/-! PROOFS. Streams of frames read back as commands: the words written out from the encoding tables, and what INIT and INIT4GRAY send
before and after their wait (spec/30_encoding.md R92, R95 to R102; spec/42_panel_sequences.md R161 to R170). -/

namespace Sys2Proof.Proofs

open Sys2Proof Sys2Proof.Machine Sys2Proof.Laws

/-- Settles O6: an operation's word and frames by the round trip of its encoding, an illegal word by the reason it has. -/
theorem specWordsDecode : Obligations.SpecWordsDecode := by
  have legal := decodeOfEncodeIsTheInstruction
  exact ⟨legal (.setPin .power .high) rfl, legal (.readPin .busy) rfl, legal (.sleep 2000) rfl, legal (.sendData 0xAF) rfl,
    legal (.clear 0xFF) rfl, by decide, by decide, by decide, legal (.resolutionSetting 176 264) rfl⟩

/-! ## A stream of frames -/

/-- The entry is the encoding of the operation, and the operation is well formed. -/
def Spells (e : Entry) (i : Instr) : Prop := encode i = .frames e.frames ∧ i.wellFormed = true

theorem Spells.decode {e : Entry} {i : Instr} (h : Spells e i) : decodeEntry e = .ok i := by
  obtain ⟨henc, hwf⟩ := h
  have hround := decodeOfEncodeIsTheInstruction i hwf
  rw [henc] at hround
  exact (decodeFrames_frames e).symm.trans hround

/-- The frames of a CommandSequence read back as the operations its entries spell (30_encoding.md R92). -/
theorem decodeStream_seqFrames {es : List Entry} {is : List Instr} (h : List.Forall₂ Spells es is) :
    decodeStream (seqFrames es) = .ok is := by
  have hcut : decodeStream (seqFrames es) = es.mapM decodeEntry := by
    simp only [decodeStream, framesAreCutIntoTheirEntries es]
  rw [hcut]
  clear hcut
  induction h with
  | nil => rfl
  | cons he _ ih => rw [List.mapM_cons, he.decode, ih]; rfl

/-- A waveform table holds as many bytes as its command takes (00_scope.md R7; 44_wire_commands.md R229). -/
theorem wellFormed_of_table {n : Nat} {i : Instr} {table : Vector Byte n} (hn : i.fixedCount = some n)
    (hd : i.carries = table.toList) : i.wellFormed = true := by
  simp [Instr.wellFormed, hn, hd]

/-! ## The configurations -/

/-- Settles O39: each entry of CFG_STD, LUT_SEQ and CFG_GRAY4 spells its command. -/
theorem configurationsAreAsymmetric : Obligations.ConfigurationsAreAsymmetric := by
  have table {n : Nat} {cmd : Byte} {i : Instr} {t : Vector Byte n} (henc : encode i = wireForm cmd t.toList)
      (hn : i.fixedCount = some n) (hd : i.carries = t.toList) : Spells ⟨cmd, t.toList⟩ i :=
    ⟨henc, wellFormed_of_table hn hd⟩
  refine ⟨decodeStream_seqFrames ?_, decodeStream_seqFrames ?_⟩
  · exact .cons ⟨rfl, rfl⟩ (.cons ⟨rfl, rfl⟩ (.cons ⟨rfl, rfl⟩ (.cons ⟨rfl, rfl⟩ (.cons (table rfl rfl rfl)
      (.cons (table rfl rfl rfl) (.cons (table rfl rfl rfl) (.cons (table rfl rfl rfl) (.cons (table rfl rfl rfl) .nil))))))))
  · exact .cons ⟨rfl, rfl⟩ (.cons ⟨rfl, rfl⟩ (.cons ⟨rfl, rfl⟩ (.cons ⟨rfl, rfl⟩ (.cons ⟨rfl, rfl⟩ .nil))))

/-! ## PREFIX_SEQ -/

/-- The command of an entry of PREFIX_SEQ (42_panel_sequences.md R161 c). -/
def prefixCommand (e : Entry) : Instr :=
  if e.cmd = 0x01 then .powerSetting e.data
  else if e.cmd = 0x06 then .boosterSoftStart e.data
  else if e.cmd = 0x16 then .partialRefreshControl e.data
  else .powerOptimization e.data

/-- PREFIX_SEQ meets R161 whatever its contents (log 5). -/
theorem admissiblePrefix_prefixSeq : admissiblePrefix Config.prefixSeq = true := by
  unfold Config.prefixSeq
  split
  · assumption
  · decide

/-- Only its four commands occur in it (42_panel_sequences.md R161 c). -/
theorem cmd_of_mem_prefixSeq {e : Entry} (h : e ∈ Config.prefixSeq) : e.cmd ∈ [0x01#8, 0x06#8, 0xF8#8, 0x16#8] := by
  have hall := (Bool.and_eq_true_iff.1 admissiblePrefix_prefixSeq).1
  simpa using List.all_eq_true.1 hall e h

/-- Three of them do (42_panel_sequences.md R161 d). -/
theorem prefixSeq_has {c : Byte} (hc : c ∈ [0x01#8, 0x06#8, 0xF8#8]) : ∃ e ∈ Config.prefixSeq, e.cmd = c := by
  have hany := List.all_eq_true.1 (Bool.and_eq_true_iff.1 admissiblePrefix_prefixSeq).2 c hc
  simpa using List.any_eq_true.1 hany

theorem spells_prefixCommand {e : Entry} (h : e ∈ Config.prefixSeq) : Spells e (prefixCommand e) := by
  obtain ⟨cmd, data⟩ := e
  have hc := cmd_of_mem_prefixSeq h
  simp only [List.mem_cons, List.not_mem_nil, or_false] at hc
  rcases hc with rfl | rfl | rfl | rfl <;> exact ⟨rfl, rfl⟩

/-- A command byte that occurs in it is read back as its command. -/
theorem mem_prefixCommands {c : Byte} {f : List Byte → Instr} (hc : c ∈ [0x01#8, 0x06#8, 0xF8#8])
    (hf : ∀ ds, prefixCommand ⟨c, ds⟩ = f ds) : ∃ ds, f ds ∈ Config.prefixSeq.map prefixCommand := by
  obtain ⟨⟨_, ds⟩, he, rfl⟩ := prefixSeq_has hc
  exact ⟨ds, List.mem_map.2 ⟨_, he, hf ds⟩⟩

/-- Settles O40: each entry of PREFIX_SEQ spells its command, and 0x04 POWER_ON. -/
theorem prefixHoldsOnlyItsFourCommands : Obligations.PrefixHoldsOnlyItsFourCommands := by
  refine ⟨Config.prefixSeq.map prefixCommand, decodeStream_seqFrames ?_, fun i hi => ?_,
    mem_prefixCommands (c := 0x01) (by simp) fun _ => rfl, mem_prefixCommands (c := 0x06) (by simp) fun _ => rfl,
    mem_prefixCommands (c := 0xF8) (by simp) fun _ => rfl⟩
  · refine List.rel_append (List.forall₂_map_right_iff.2 (List.forall₂_same.2 fun e => spells_prefixCommand)) ?_
    exact .cons ⟨rfl, rfl⟩ .nil
  · obtain ⟨e, -, rfl⟩ := List.mem_map.1 hi
    unfold prefixCommand
    split_ifs
    · exact .inl ⟨_, rfl⟩
    · exact .inr (.inl ⟨_, rfl⟩)
    · exact .inr (.inr (.inl ⟨_, rfl⟩))
    · exact .inr (.inr (.inr ⟨_, rfl⟩))

end Sys2Proof.Proofs
end

section
/-! PROOFS. INIT, INIT4GRAY, CLEAR and DISPLAYFRAME from their issue to their end: the first step, and the whole run when every byte
goes out and BUSY comes to read 0 (spec/42_panel_sequences.md R160 to R165). -/

namespace Sys2Proof.Proofs

open Sys2Proof Sys2Proof.Machine Sys2Proof.Laws

variable {i : Instr} {p : Plan} {s : State} {N : Nat}

/-! ## The first step and the wait -/

/-- An operation whose list starts with a write of a pin and goes on drives that pin in its first step. -/
theorem exec_first_setPin {r : OutPin} {l : Level} {m : Micro} {ms : List Micro} (hpl : planOf Config.setup s i = some p)
    (hp : s.pc = .idle) (ha : Accepts i s) (hb : p.before = .setPin r l :: m :: ms) :
    exec i s = .next ((s.start i p).drive r l) := by
  obtain ⟨rest, hd⟩ : ∃ rest, ((s.start i p).items p).drop 0 = .setPin r l :: m :: rest :=
    ⟨_, by rw [State.items, Plan.items, hb, List.drop_zero, List.cons_append, List.cons_append]⟩
  rw [← execWith_setup, execWith_start hpl hp ha, performNext_cons (start_pc s i p) rfl hd, micro_setPin, resume_on,
    if_neg (List.cons_ne_nil _ _)]

/-- DISPLAYFRAME starts with its first command frame (42_panel_sequences.md R165). -/
theorem displayBefore_head : ∃ ms, displayBefore = .setPin .dc .low :: .setPin .cs .low :: ms := by
  have hold : oldPlaneFrames = ⟨.low, 0x10⟩ :: (List.replicate frameLen 0xFF).map (Frame.mk .high) := by
    simp [-List.reduceReplicate, oldPlaneFrames, seqFrames, Entry.frames]
  exact ⟨_, by rw [displayBefore, hold, framesItems_cons]; rfl⟩

/-- Reads of 1 fewer than the bound do not reach it (41_panel_primitives.md R145). -/
theorem below_limit {limit : Option Nat} (h : ∀ M, limit = some M → N < M) : ∀ j < N, limit ≠ some (j + 1) := by
  intro j hj hl
  have := h _ hl
  omega

/-- CLEAR and DISPLAYFRAME, ready, what they send before the wait going out and BUSY reading 0 after `N` reads of 1
(42_panel_sequences.md R164, R165). -/
theorem run_refresh {before : List Micro} {es : List Event}
    (hpl : planOf Config.setup s i = some (refreshPlan Config.setup.pollLimit before)) (hp : s.pc = .idle) (ha : Accepts i s)
    (hon : ∀ x : State, x.buf = s.buf → x.spiOk = s.spiOk → perform before x = .on { x with
      pins := { x.pins with dc := .driven .low, cs := .driven .high }, trace := x.trace ++ es, spiOk := x.spiOk.skip 11619,
      pc := advanceBy before.length x.pc })
    (hb : ∀ j < N, s.busyAt j = .high) (hlow : s.busyAt N = .low) (hM : ∀ M, Config.setup.pollLimit = some M → N < M) :
    runOp (before.length + 2 * N + 1) i s = .next { s with
      pins := { s.pins with dc := .driven .low, cs := .driven .high }, pdState := .idle, err := .ok, rdval := .low,
      trace := s.trace ++ es ++ waitEvents N, spiOk := s.spiOk.skip 11619, busy := s.busy.skip (N + 1) } := by
  have hq : ∀ m ∈ before, quiet m = true := by
    rcases (shape hpl).before with h | ⟨_, hn, _⟩
    · exact h
    · cases hn
  rw [runOp_eq]
  refine (run_waiting hpl rfl hp ha hq (by simp) (hon (s.start i _) rfl rfl) ?_ rfl hb hlow (below_limit hM) rfl).trans ?_
  · simp [refreshPlan]
  · simp [refreshPlan, afterWait, State.finish, State.mark, State.complete, hp]

/-- INIT and INIT4GRAY, every byte going out and BUSY reading 0 after `N` reads of 1: the pulse, PREFIX_SEQ and POWER_ON, the wait
and the configuration `fs` (42_panel_sequences.md R162, R163). -/
theorem run_init {fs : List Frame} {mode : PdMode}
    (hpl : planOf Config.setup s i = some
      ⟨pulseMark, initBefore Config.setup, some ⟨Config.setup.pollLimit, framesItems fs⟩, ⟨some .idle, some mode⟩⟩)
    (hlast : fs.getLast?.map Frame.dc = some .high) (hp : s.pc = .idle) (ha : Accepts i s)
    (hb : ∀ j < N, s.busyAt j = .high) (hlow : s.busyAt N = .low) (hM : ∀ M, Config.setup.pollLimit = some M → N < M)
    (hspi : ∀ n < (initFrames Config.setup).length + fs.length, s.spiAt n = true) :
    runOp (6 + 4 * (initFrames Config.setup).length + (2 * N + 1 + 4 * fs.length)) i s = .next { s with
      pins := { s.pins with reset := .driven .high, dc := .driven .high, cs := .driven .high },
      pdState := .idle, pdMode := mode, err := .ok, rdval := .low,
      trace := s.trace ++ pulseEvents ++ framesEvents (initFrames Config.setup) ++ waitEvents N ++ framesEvents fs,
      spiOk := s.spiOk.skip ((initFrames Config.setup).length + fs.length), busy := s.busy.skip (N + 1) } := by
  rw [runOp_eq, ← initBefore_length, ← framesItems_length fs]
  refine (run_waiting hpl rfl hp ha (quiet_initBefore _) (quiet_framesItems fs)
    (initBefore_on (s := s.start i _) fun n hn => hspi n (by omega)) ?_ rfl hb hlow (below_limit hM)
    (perform_frames fun n hn => ?_)).trans ?_
  · simp [initBefore_length]
  · simpa [State.spiAt, afterWait] using hspi ((initFrames Config.setup).length + n) (by omega)
  · rw [afterFrames_last hlast]
    simp [afterWait, State.finish, State.mark, State.complete, hp]

/-! ## The four sequences -/

/-- Settles O31, by `run_init` with CFG_STD and LUT_SEQ. -/
theorem initLoadsTheStandardConfiguration : Obligations.InitLoadsTheStandardConfiguration := by
  intro s hp hacq
  have ha : Accepts .init s := ⟨fun _ => hacq, by simp, by simp, by simp⟩
  refine ⟨(exec_first_setPin (p := initPlan Config.setup) rfl hp ha rfl).trans rfl, fun N hb hlow hM hspi => ?_⟩
  rw [← run_init rfl (stdFrames_last _) hp ha hb hlow hM hspi, initFrames_length, stdFrames_length]
  congr 1
  simp only [Config.setup]
  omega

/-- Settles O32, by `run_init` with CFG_GRAY4. -/
theorem init4GrayLoadsTheGrayConfiguration : Obligations.Init4GrayLoadsTheGrayConfiguration := by
  intro s hp hacq
  have ha : Accepts .init4Gray s := ⟨fun _ => hacq, by simp, by simp, by simp⟩
  refine ⟨(exec_first_setPin (p := init4GrayPlan Config.setup) rfl hp ha rfl).trans rfl, fun N hb hlow hM hspi => ?_⟩
  rw [← run_init rfl gray4Frames_last hp ha hb hlow hM hspi, initFrames_length, gray4Frames_length]
  congr 1
  simp only [Config.setup]
  omega

/-- Settles O33, by `run_refresh` with the frames of both planes and the refresh command. -/
theorem clearFillsBothPlanes : Obligations.ClearFillsBothPlanes := by
  intro s f hp hacq hidle hmode
  have ha : Accepts (.clear f) s := ⟨fun _ => hacq, fun _ => ⟨hidle, hmode⟩, by simp, by simp⟩
  refine ⟨(exec_first_setPin (p := clearPlan Config.setup.pollLimit f) rfl hp ha rfl).trans rfl, fun N hb hlow hM hspi => ?_⟩
  have hlen : (framesItems (clearFrames f)).length = 46476 := by rw [framesItems_length, clearFrames_length]
  rw [← hlen]
  exact run_refresh rfl hp ha (fun x _ hx => by
    rw [hlen]
    exact clearBefore_on fun n hn => by rw [State.spiAt, hx]; exact hspi n hn) hb hlow hM

/-- Settles O34, by `run_refresh` with the old plane, the settle delay, the buffer and the refresh command. -/
theorem displayFrameSendsTheBuffer : Obligations.DisplayFrameSendsTheBuffer := by
  intro s hp hacq hidle hmode hlen
  have ha : Accepts .displayFrame s := ⟨fun _ => hacq, fun _ => ⟨hidle, hmode⟩, fun _ => hlen, by simp⟩
  obtain ⟨ms, hhead⟩ := displayBefore_head
  refine ⟨(exec_first_setPin (p := displayPlan Config.setup.pollLimit) rfl hp ha hhead).trans rfl,
    fun bytes N hbytes hbuf hb hlow hM hspi => ?_⟩
  rw [← displayBefore_length]
  refine (run_refresh rfl hp ha (fun x hx hx' => by
    rw [displayBefore_length, ← List.append_assoc, ← List.append_assoc]
    exact displayBefore_on hbytes (fun k hk => by rw [hx]; exact hbuf k hk)
      fun n hn => by rw [State.spiAt, hx']; exact hspi n hn) hb hlow hM).trans ?_
  simp only [← List.append_assoc]
  rfl

end Sys2Proof.Proofs
end

section
/-! PROOFS. The end of a refresh: CLEAR and DISPLAYFRAME return with a read of BUSY that answered 0 (spec/42_panel_sequences.md R164,
R165; spec/60_exceptions.md R250). -/

namespace Sys2Proof.Proofs

open Sys2Proof Sys2Proof.Machine Sys2Proof.Laws

variable {c : Setup} {i : Instr} {p : Plan} {m : Micro} {s t u : State} {k n : Nat}

/-! ## One micro-operation -/

theorem shiftOut_on {b : Byte} (h : s.shiftOut b = .on t) : t = afterByte b s := by
  rcases shiftOut_cases b s with ⟨_, h'⟩ | ⟨_, h'⟩ <;> rw [h'] at h <;> cases h
  rfl

theorem shiftOut_out {b : Byte} (h : s.shiftOut b = .out t) : t = afterFault b s := by
  rcases shiftOut_cases b s with ⟨_, h'⟩ | ⟨_, h'⟩ <;> rw [h'] at h <;> cases h
  rfl

theorem poll_on {lim : Option Nat} (h : s.poll lim = .on t) : t = afterRead s := by
  rcases poll_cases lim s with ⟨h', _⟩ | ⟨_, _, h'⟩ <;> rw [h'] at h <;> cases h
  rfl

/-- A micro-operation that ends its operation leaves an error (60_exceptions.md R250). -/
theorem micro_out_err (h : micro m s = .out t) : t.err ≠ .ok := by
  cases m with
  | spiWrite b => rw [shiftOut_out h]; simp [afterFault]
  | spiBuf j =>
    cases hb : Memory.read s.buf j with
    | none => rw [spiBuf_none hb] at h; cases h
    | some b => rw [spiBuf_some hb] at h; rw [shiftOut_out h]; simp [afterFault]
  | poll lim =>
    rcases poll_cases lim s with ⟨h', _⟩ | ⟨_, _, h'⟩ <;> rw [micro_poll, h'] at h <;> cases h
    simp
  | _ => cases h

/-! ## A refresh returns at a read of 0 -/

/-- The last micro-operation of CLEAR and DISPLAYFRAME is a read of BUSY (42_panel_sequences.md R164 e). -/
theorem Midway.last_is_read (h : Midway c i p s k n) (hi : refreshes i) (hm : (p.items n s.rdval)[k]? = some m)
    (hon : micro m s = .on u) (hend : (u.items p)[u.pc.done]? = none) : ∃ lim, m = .poll lim := by
  obtain ⟨w, hw, ha⟩ : ∃ w, p.wait = some w ∧ w.after = [] := by
    have hp := h.plan
    rcases hi with ⟨f, rfl⟩ | rfl <;> cases hp <;> exact ⟨_, rfl, rfl⟩
  cases hq : quiet m with
  | true =>
    obtain ⟨hr, hpc⟩ := micro_on_quiet hq hon
    rw [State.items, hr, hpc, h.pc, advance_running, done_running, reads_running] at hend
    exact ⟨_, last_is_poll hw ha hm hend⟩
  | false =>
    obtain ⟨w, _, hpoll, _⟩ := h.poll_position hm hq (by
      rintro rfl
      obtain ⟨rfl, _⟩ := readPin_at h.plan hm
      simp [refreshes] at hi)
    exact ⟨_, hpoll⟩

/-- Settles O37: from IDLE the first step leaves a refresh in flight, and in flight its last micro-operation is a read of 0. -/
theorem refreshReturnsOnlyAtAnIdleRead : Obligations.RefreshReturnsOnlyAtAnIdleRead := by
  intro i s t hi hinv ht hpc herr
  rw [← execWith_setup] at ht
  rcases execWith_next ht with ⟨_, e, he, rfl⟩ | ⟨_, rfl, _⟩ | ⟨_, rfl, _⟩ | ⟨_, rfl, _⟩ | ⟨p, hp, ⟨_, _, hn⟩ | ⟨⟨k, n, hs⟩, hn⟩⟩
  · rw [raise_err] at herr
    simp [herr] at he
  · simp at hi
  · simp at hi
  · simp at hi
  · rw [(first_step_of_moving hp (.inr hi) hn).1] at hpc
    cases hpc
  obtain ⟨hmid, _, hk⟩ := midway_of_inv hinv hs hp
  obtain ⟨hitems, hdone⟩ := hmid.items
  rcases performNext_performs hn with ⟨hnone, _⟩ | ⟨m, e, u, hm, hu, ⟨hon, hend, rfl⟩ | ⟨hon, _, rfl⟩ | ⟨hout, rfl⟩⟩
  · rw [hitems, hdone, List.getElem?_eq_none_iff] at hnone
    omega
  · rw [hitems, hdone] at hm
    obtain ⟨lim, rfl⟩ := hmid.last_is_read hi hm hon hend
    have hlow : u.rdval = .low := hmid.rdval_of_refreshed hi hm hu hon hend
    obtain rfl := poll_on hon
    have hbusy : s.busyAt 0 = .low := hlow
    have hleave : p.leave = ⟨some .idle, none⟩ := by
      rcases hi with ⟨f, rfl⟩ | rfl <;> cases hp <;> rfl
    exact ⟨hlow, by simp [hleave], by simp [afterRead, hbusy]⟩
  · obtain ⟨k', n', hrun⟩ := micro_on_op hon hs
    rw [hrun] at hpc
    cases hpc
  · exact absurd herr (micro_out_err hout)

end Sys2Proof.Proofs
end

section
/-! PROOFS. An operation that ends OK has performed its whole list, so that its trace has the list's length, reads and delays
(spec/10_state.md R23, R40; spec/42_panel_sequences.md R162 to R165; spec/70_reset_and_hazards.md R311). -/

namespace Sys2Proof.Proofs

open Sys2Proof Sys2Proof.Machine Sys2Proof.Laws

variable {c : Setup} {i : Instr} {p : Plan} {w : Wait} {m : Micro} {s t u x : State} {k n : Nat} {l : Level} {es : List Event}

/-! ## What a list of micro-operations records -/

/-- The delay of a micro-operation, in ms (40_transport.md R123). -/
def delayOf : Micro → Nat
  | .sleep ms | .sleepInto ms _ => ms
  | .setPin _ _ | .readPin | .spiWrite _ | .spiBuf _ | .close | .poll _ => 0

/-- The event counts as the micro-operation does: a read of BUSY as one read, a sleep as its delay. -/
def Records (m : Micro) (e : Event) : Prop := readCount [e] = (if quiet m then 0 else 1) ∧ sleptTotal [e] = delayOf m

/-- A micro-operation that goes through is recorded (10_state.md R40). -/
theorem micro_records (h : micro m s = .on t) : ∃ e, t.trace = s.trace ++ [e] ∧ Records m e := by
  cases m with
  | setPin r l => cases h; exact ⟨_, rfl, rfl, rfl⟩
  | readPin => cases h; exact ⟨_, rfl, rfl, rfl⟩
  | sleep ms => cases h; exact ⟨_, rfl, rfl, rfl⟩
  | sleepInto ms q => cases h; exact ⟨_, rfl, rfl, rfl⟩
  | close => cases h; exact ⟨_, rfl, rfl, rfl⟩
  | spiWrite b => exact ⟨.spiWrite b, by rw [shiftOut_on h]; rfl, rfl, rfl⟩
  | spiBuf j =>
    cases hb : Memory.read s.buf j with
    | none => rw [spiBuf_none hb] at h; cases h
    | some b => rw [spiBuf_some hb] at h; exact ⟨.spiWrite b, by rw [shiftOut_on h]; rfl, rfl, rfl⟩
  | poll lim => exact ⟨.pinRead (s.busyAt 0), by rw [poll_on h]; rfl, rfl, rfl⟩

/-- The reads of BUSY on a list. -/
def readsOn (ms : List Micro) : Nat := ms.countP (fun m => !quiet m)

/-- The delays on a list, in ms. -/
def delaysOn (ms : List Micro) : Nat := (ms.map delayOf).sum

@[simp] theorem readsOn_append (a b : List Micro) : readsOn (a ++ b) = readsOn a + readsOn b := List.countP_append

@[simp] theorem delaysOn_append (a b : List Micro) : delaysOn (a ++ b) = delaysOn a + delaysOn b := by simp [delaysOn]

theorem readsOn_quiet {ms : List Micro} (h : ∀ m ∈ ms, quiet m = true) : readsOn ms = 0 :=
  List.countP_eq_zero.2 fun m hm => by simp [h m hm]

theorem delaysOn_zero {ms : List Micro} (h : ∀ m ∈ ms, delayOf m = 0) : delaysOn ms = 0 :=
  List.sum_eq_zero fun d hd => by
    obtain ⟨m, hm, rfl⟩ := List.mem_map.1 hd
    exact h m hm

/-- The length, the reads and the time slept of a trace are those of the list it records (70_reset_and_hazards.md R311). -/
theorem totals_of_records {ms : List Micro} (h : List.Forall₂ Records ms es) :
    es.length = ms.length ∧ readCount es = readsOn ms ∧ sleptTotal es = delaysOn ms := by
  induction h with
  | nil => exact ⟨rfl, rfl, rfl⟩
  | @cons m e ms es he _ ih =>
    obtain ⟨hlen, hreads, hslept⟩ := ih
    obtain ⟨hread, hsleep⟩ := he
    refine ⟨by simp [hlen], ?_, ?_⟩
    · have hsplit : readCount (e :: es) = readCount [e] + readCount es := List.countP_append (l₁ := [e])
      rw [hsplit, hread, hreads, show m :: ms = [m] ++ ms from rfl, readsOn_append]
      cases hq : quiet m <;> simp [readsOn, hq]
    · have hsplit : sleptTotal (e :: es) = sleptTotal [e] + sleptTotal es := by simp [sleptTotal]
      rw [hsplit, hsleep, hslept, show m :: ms = [m] ++ ms from rfl, delaysOn_append]
      simp [delaysOn]

/-! ## The list of an operation that waits -/

/-- Reads of 1, each with its sleep (41_panel_primitives.md R144). -/
def pollsOf (limit : Option Nat) (n : Nat) : List Micro := (List.replicate n [Micro.poll limit, .sleep pollInterval]).flatten

@[simp] theorem pollsOf_length (limit : Option Nat) (n : Nat) : (pollsOf limit n).length = 2 * n := by
  simp [pollsOf, Nat.mul_comm]

theorem pollsOf_succ (limit : Option Nat) (n : Nat) :
    pollsOf limit (n + 1) = pollsOf limit n ++ [.poll limit, .sleep pollInterval] := by
  simp [pollsOf, List.replicate_succ']

theorem pollsOf_totals (limit : Option Nat) (n : Nat) :
    readsOn (pollsOf limit n) = n ∧ delaysOn (pollsOf limit n) = 200 * n := by
  induction n with
  | zero => exact ⟨rfl, rfl⟩
  | succ n ih =>
    obtain ⟨hreads, hdelays⟩ := ih
    rw [pollsOf_succ, readsOn_append, delaysOn_append, hreads, hdelays]
    exact ⟨rfl, by simp [delaysOn, delayOf, pollInterval]; omega⟩

/-- The list while the wait goes on: the next read is its last micro-operation so far. -/
theorem items_waiting (hw : p.wait = some w) (h : n = 0 ∨ l = .high) :
    p.items n l = (p.before ++ pollsOf w.limit n) ++ [.poll w.limit] := by
  have hi : p.items n l = p.before ++ w.items n l := by simp [Plan.items, hw]
  rw [hi, List.append_assoc]
  rcases n with _ | n
  · rfl
  · obtain rfl : l = .high := by simpa using h
    rfl

/-- The list once a read has answered 0. -/
theorem items_waited (hw : p.wait = some w) (n : Nat) :
    p.items (n + 1) .low = (p.before ++ pollsOf w.limit n) ++ .poll w.limit :: w.after := by
  have hi : p.items (n + 1) .low = p.before ++ w.items (n + 1) .low := by simp [Plan.items, hw]
  rw [hi, List.append_assoc]
  rfl

/-- One more read made, whatever it answers, leaves the list as it was up to that read. -/
theorem take_items_read (hw : p.wait = some w) (h : n = 0 ∨ l = .high) (l' : Level) :
    (p.items (n + 1) l').take (p.before.length + 2 * n + 1) =
      (p.items n l).take (p.before.length + 2 * n) ++ [.poll w.limit] := by
  have hlen : (p.before ++ pollsOf w.limit n).length = p.before.length + 2 * n := by simp
  obtain ⟨rest, hrest⟩ : ∃ rest, p.items (n + 1) l' = (p.before ++ pollsOf w.limit n) ++ .poll w.limit :: rest := by
    cases l' with
    | low => exact ⟨_, items_waited hw n⟩
    | high => exact ⟨[.sleep pollInterval, .poll w.limit], by rw [items_waiting hw (.inr rfl), pollsOf_succ]; simp⟩
  rw [hrest, items_waiting hw h, ← hlen, List.take_left, List.take_length_add_append]
  rfl

/-- Before and after its wait an operation that waits reads no BUSY. -/
theorem quiet_around_wait (hp : planOf c s i = some p) (hw : p.wait = some w) :
    (∀ m ∈ p.before, quiet m = true) ∧ ∀ m ∈ w.after, quiet m = true := by
  refine ⟨?_, fun m hm => (((shape hp).wait w hw).2 m hm).1⟩
  rcases (shape hp).before with h | ⟨_, hn, _⟩
  · exact h
  · rw [hw] at hn; cases hn

/-- A read of BUSY at a position the list comes through is the wait's, and those before it answered 1. -/
theorem poll_of_item (hp : planOf c s i = some p) (hq : ∀ m ∈ p.before, quiet m = true)
    (hm : (p.items n l)[k]? = some m) (hread : quiet m = false) (hk : n = 0 ∨ p.before.length + 2 * n ≤ k + 1) :
    ∃ w, p.wait = some w ∧ (n = 0 ∨ l = .high) ∧ k = p.before.length + 2 * n ∧ m = .poll w.limit := by
  rcases item_in hm with hb | ⟨w, hw, _⟩
  · rw [hq m (List.mem_of_getElem? hb)] at hread
    cases hread
  · exact ⟨w, hw, poll_at hw hq (quiet_around_wait hp hw).2 hm hread hk⟩

/-! ## An operation and what it has recorded -/

/-- The events `es` record the whole list of an operation, as the levels read determine it. -/
def RecordsAll (p : Plan) (es : List Event) : Prop := ∃ l, List.Forall₂ Records (p.items (readCount es) l) es

/-- The operation `i` in flight, issued in `s`, has recorded the part of its list that it has performed, the reads of BUSY counted in
its position (10_state.md R23; log 12). -/
structure Recorded (i : Instr) (p : Plan) (s x : State) (k n : Nat) (es : List Event) : Prop where
  pc : x.pc = .running i k n
  bufLen : x.bufLen = s.bufLen
  trace : x.trace = s.trace ++ es
  past : n = 0 ∨ p.before.length + 2 * n ≤ k + 1
  reads : readCount es = n
  done : List.Forall₂ Records ((p.items n x.rdval).take k) es

theorem Recorded.items (h : Recorded i p s x k n es) : x.items p = p.items n x.rdval ∧ x.pc.done = k := by
  simp [State.items, h.pc]

/-- With nothing left on its list it has recorded all of it. -/
theorem Recorded.all (h : Recorded i p s x k n es) (hend : (x.items p)[x.pc.done]? = none) : RecordsAll p es := by
  rw [h.items.1, h.items.2, List.getElem?_eq_none_iff] at hend
  refine ⟨x.rdval, ?_⟩
  rw [h.reads, ← List.take_of_length_le hend]
  exact h.done

/-- The next micro-operation, gone through, is recorded with the others. -/
theorem Recorded.next (h : Recorded i p s x k n es) (hp : planOf c s i = some p) (hq : ∀ m ∈ p.before, quiet m = true)
    (hm : (x.items p)[x.pc.done]? = some m) (hon : micro m x = .on u) :
    ∃ k' n' es', Recorded i p s u k' n' es' := by
  obtain ⟨e, htrace, he⟩ := micro_records hon
  have hread : readCount (es ++ [e]) = n + if quiet m then 0 else 1 := by
    rw [← he.1, ← h.reads]
    exact List.countP_append
  have hlen : u.bufLen = s.bufLen := (micro_on_bufLen hon).trans h.bufLen
  rw [h.items.1, h.items.2] at hm
  cases hquiet : quiet m with
  | true =>
    obtain ⟨hr, hpc⟩ := micro_on_quiet hquiet hon
    refine ⟨k + 1, n, es ++ [e], by rw [hpc, h.pc]; rfl, hlen, by rw [htrace, h.trace, List.append_assoc],
      h.past.imp_right (by omega), by simpa [hquiet] using hread, ?_⟩
    rw [hr, List.take_add_one, hm]
    exact List.rel_append h.done (.cons he .nil)
  | false =>
    obtain ⟨w, hw, hn, rfl, rfl⟩ := poll_of_item hp hq hm hquiet h.past
    obtain rfl := poll_on hon
    refine ⟨_, n + 1, es ++ [e], by rw [afterRead, h.pc]; rfl, hlen, by rw [htrace, h.trace, List.append_assoc],
      .inr (by omega), by simpa [hquiet] using hread, ?_⟩
    rw [take_items_read hw hn]
    exact List.rel_append h.done (.cons he .nil)

/-- A run of at least one step is that step, which ends the operation or is followed by the rest of the run. -/
theorem untilEnd_next {turn : State → Outcome} {j : Nat} (h : untilEnd turn (j + 1) s = .next t) :
    ∃ u, turn s = .next u ∧ (u.pc = .idle ∧ u = t ∨ u.pc ≠ .idle ∧ untilEnd turn j u = .next t) := by
  rw [untilEnd] at h
  split at h
  · next u hu =>
    refine ⟨u, hu, ?_⟩
    split at h
    · next hpc => exact .inl ⟨hpc, by simpa using h⟩
    · next hpc => exact .inr ⟨by simp [hpc], h⟩
  · cases h
  · cases h

/-- An operation in flight that comes to end OK has then recorded its whole list. -/
theorem Recorded.run {j : Nat} (h : Recorded i p s x k n es) (hp : planOf c s i = some p)
    (hq : ∀ m ∈ p.before, quiet m = true) (hrun : runWith c j i x = .next t) (hpc : t.pc = .idle) (herr : t.err = .ok) :
    ∃ es, t.trace = s.trace ++ es ∧ RecordsAll p es := by
  induction j generalizing x k n es with
  | zero =>
    cases hrun
    rw [h.pc] at hpc
    cases hpc
  | succ j ih =>
    obtain ⟨v, hv, hcase⟩ := untilEnd_next hrun
    rw [stepOf_execWith hp x k n h.pc h.bufLen] at hv
    have ended : ∀ y : State, v = y.finish p → v = t := by
      rintro y rfl
      rcases hcase with ⟨_, hvt⟩ | ⟨hne, _⟩
      · exact hvt
      · exact absurd rfl hne
    rcases performNext_performs hv with ⟨hend, hvx⟩ | ⟨m, e, u, hm, _, ⟨hon, hend, hvu⟩ | ⟨hon, _, rfl⟩ | ⟨hout, rfl⟩⟩
    · obtain rfl := ended x hvx
      exact ⟨es, by rw [hvx, finish_trace, h.trace], h.all hend⟩
    · obtain rfl := ended u hvu
      obtain ⟨_, _, es', hu⟩ := h.next hp hq hm hon
      exact ⟨es', by rw [hvu, finish_trace, hu.trace], hu.all hend⟩
    · obtain ⟨_, _, es', hu⟩ := h.next hp hq hm hon
      rcases hcase with ⟨hidle, _⟩ | ⟨_, hrest⟩
      · rw [hu.pc] at hidle; cases hidle
      · exact ih hu hrest
    · rcases hcase with ⟨_, rfl⟩ | ⟨hne, _⟩
      · exact absurd herr (micro_out_err hout)
      · exact absurd (micro_out_pc hout) hne

/-- An operation with a list, from its issue: where it ends OK it has recorded its whole list. RELEASE alone may end OK without it
(40_transport.md R126). -/
theorem run_records {j : Nat} (hp : planOf c s i = some p) (hq : ∀ m ∈ p.before, quiet m = true) (hi : i ≠ .release)
    (hidle : s.pc = .idle) (hrun : runWith c (j + 1) i s = .next t) (hpc : t.pc = .idle) (herr : t.err = .ok) :
    ∃ es, t.trace = s.trace ++ es ∧ RecordsAll p es := by
  obtain ⟨u, hu, hcase⟩ := untilEnd_next hrun
  rcases execWith_next hu with ⟨_, e, he, rfl⟩ | ⟨_, rfl, _⟩ | ⟨_, rfl, _⟩ | ⟨_, rfl, _⟩ | ⟨_, _, ⟨_, ha, _⟩ | ⟨⟨k, n, hs⟩, _⟩⟩
  · rcases hcase with ⟨_, rfl⟩ | ⟨hne, _⟩
    · rw [raise_err] at herr
      simp [herr] at he
    · exact absurd rfl hne
  · cases hp
  · exact absurd rfl hi
  · cases hp
  · rw [runWith_start hp hidle ha] at hrun
    exact Recorded.run (x := s.start i p) (es := [])
      ⟨rfl, rfl, (List.append_nil _).symm, .inl rfl, rfl, by rw [List.take_zero]; exact .nil⟩ hp hq hrun hpc herr
  · rw [hs] at hidle; cases hidle

/-- Whatever an operation does, its run adds events to the trace (10_state.md R40). -/
theorem run_trace {j : Nat} (hrun : runWith c j i s = .next t) : ∃ es, t.trace = s.trace ++ es := by
  induction j generalizing s with
  | zero => cases hrun; exact ⟨[], (List.append_nil _).symm⟩
  | succ j ih =>
    obtain ⟨u, hu, hcase⟩ := untilEnd_next hrun
    obtain ⟨first, hfirst⟩ : ∃ first, u.trace = s.trace ++ first := by
      rcases execWith_trace hu with h | ⟨e, h⟩
      · exact ⟨[], by rw [h, List.append_nil]⟩
      · exact ⟨[e], h⟩
    rcases hcase with ⟨_, rfl⟩ | ⟨_, hrest⟩
    · exact ⟨first, hfirst⟩
    · obtain ⟨es, hes⟩ := ih hrest
      exact ⟨first ++ es, by rw [hes, hfirst, List.append_assoc]⟩

/-! ## Counts and times -/

/-- An operation without a wait: the length and the delays of its list. -/
theorem RecordsAll.totals_plain (h : RecordsAll p es) (hw : p.wait = none) :
    es.length = p.before.length ∧ sleptTotal es = delaysOn p.before := by
  obtain ⟨l, h⟩ := h
  have hitems : p.items (readCount es) l = p.before := by simp [Plan.items, hw]
  rw [hitems] at h
  obtain ⟨hlen, _, hslept⟩ := totals_of_records h
  exact ⟨hlen, hslept⟩

/-- An operation with a wait: the read that ended the wait, and `N` reads of 1 with their sleeps before it. The last read answered 0,
since after a read of 1 the list holds one read more than were made. -/
theorem RecordsAll.totals_wait (h : RecordsAll p es) (hp : planOf c s i = some p) (hw : p.wait = some w) :
    ∃ N, readCount es = N + 1 ∧ es.length = p.before.length + 2 * N + 1 + w.after.length ∧
      sleptTotal es = delaysOn p.before + 200 * N + delaysOn w.after := by
  obtain ⟨l, h⟩ := h
  obtain ⟨hlen, hreads, hslept⟩ := totals_of_records h
  obtain ⟨hbefore, hafter⟩ := quiet_around_wait hp hw
  have hpoll : ∀ ms : List Micro, readsOn (.poll w.limit :: ms) = readsOn ms + 1 ∧
      delaysOn (.poll w.limit :: ms) = delaysOn ms := fun ms => by simp [readsOn, delaysOn, quiet, delayOf]
  have waited : ¬(readCount es = 0 ∨ l = .high) := by
    intro hn
    rw [items_waiting hw hn, readsOn_append, readsOn_append, readsOn_quiet hbefore, (pollsOf_totals _ _).1, (hpoll []).1] at hreads
    omega
  obtain ⟨N, hN⟩ := Nat.exists_eq_succ_of_ne_zero fun h0 => waited (.inl h0)
  obtain rfl : l = .low := by
    cases l with
    | low => rfl
    | high => exact absurd (.inr rfl) waited
  rw [hN, items_waited hw] at hlen hslept
  refine ⟨N, hN, ?_, ?_⟩
  · rw [hlen]
    simp only [List.length_append, List.length_cons, pollsOf_length]
    omega
  · rw [hslept, delaysOn_append, delaysOn_append, (pollsOf_totals _ _).2, (hpoll _).2]

theorem delaysOn_framesItems (fs : List Frame) : delaysOn (framesItems fs) = 0 :=
  delaysOn_zero fun m hm => by
    rcases mem_framesItems hm with ⟨_, _, rfl, _⟩ | ⟨_, rfl⟩ <;> rfl

theorem delaysOn_initBefore (c : Setup) : delaysOn (initBefore c) = 405 := by
  rw [initBefore, delaysOn_append, delaysOn_framesItems]
  rfl

theorem delaysOn_displayBefore : delaysOn displayBefore = 2000 := by
  have hframe : ∀ f, delaysOn (frameItems f) = 0 := fun _ => rfl
  have hplane : delaysOn newPlaneItems = 0 := delaysOn_zero fun m hm => by
    obtain ⟨j, -, hm⟩ := List.mem_flatMap.1 hm
    simp only [bufFrameItems, List.mem_cons, List.not_mem_nil, or_false] at hm
    rcases hm with rfl | rfl | rfl | rfl <;> rfl
  have hsplit : displayBefore = framesItems oldPlaneFrames ++ ([.sleep settleTime] ++
      (frameItems ⟨.low, 0x13⟩ ++ newPlaneItems ++ frameItems ⟨.low, 0x12⟩)) := rfl
  rw [hsplit, delaysOn_append, delaysOn_append, delaysOn_append, delaysOn_append, delaysOn_framesItems, hframe, hframe, hplane]
  rfl

/-- INIT and INIT4GRAY: the pulse, the frames before the wait and those after it (42_panel_sequences.md R162 d, R163 c). -/
theorem RecordsAll.totals_init {lim : Option Nat} {fs : List Frame} {leave : Mark}
    (hp : planOf Config.setup s i = some ⟨pulseMark, initBefore Config.setup, some ⟨lim, framesItems fs⟩, leave⟩)
    (h : RecordsAll ⟨pulseMark, initBefore Config.setup, some ⟨lim, framesItems fs⟩, leave⟩ es) :
    ∃ N, readCount es = N + 1 ∧ es.length = 10 + 4 * (seqFrames Config.prefixSeq).length + 4 * fs.length + 2 * N + 1 ∧
      sleptTotal es = 405 + 200 * N := by
  obtain ⟨N, hreads, hlen, hslept⟩ := h.totals_wait hp rfl
  simp only [initBefore_length, initFrames_length, framesItems_length, Config.setup] at hlen
  rw [delaysOn_initBefore, delaysOn_framesItems, Nat.add_zero] at hslept
  exact ⟨N, hreads, by omega, hslept⟩

/-- Settles O41: an operation that ends OK has recorded its whole list, by `run_records`, and the list has these totals. -/
theorem sequenceLengthsAndTimes : Obligations.SequenceLengthsAndTimes := by
  intro i s t m hidle hm hrun hpc herr
  obtain ⟨j, rfl⟩ := Nat.exists_eq_add_of_le' hm
  rw [runOp_eq] at hrun
  obtain ⟨es, hes⟩ := run_trace hrun
  have all {p : Plan} (hp : planOf Config.setup s i = some p) (hq : ∀ m ∈ p.before, quiet m = true) (hi : i ≠ .release) :
      RecordsAll p es := by
    obtain ⟨es', hes', h⟩ := run_records hp hq hi hidle hrun hpc herr
    rwa [List.append_cancel_left (hes.symm.trans hes')]
  have wait {p : Plan} {w : Wait} (hp : planOf Config.setup s i = some p) (hw : p.wait = some w) (hi : i ≠ .release) :=
    (all hp (quiet_around_wait hp hw).1 hi).totals_wait hp hw
  have init {fs : List Frame} {leave : Mark} (hp : planOf Config.setup s i =
      some ⟨pulseMark, initBefore Config.setup, some ⟨Config.setup.pollLimit, framesItems fs⟩, leave⟩) (hi : i ≠ .release) :=
    (all hp (quiet_initBefore _) hi).totals_init hp
  refine ⟨es, hes, ?_, ?_, ?_, ?_, ?_, ?_⟩
  · rintro rfl
    exact (all (p := resetPlan) rfl quiet_resetPlan (by simp)).totals_plain rfl
  · rintro rfl
    simpa [readBusyPlan, delaysOn] using wait (p := readBusyPlan Config.setup.pollLimit) rfl rfl (by simp)
  · rintro rfl
    obtain ⟨N, hreads, hlen, hslept⟩ := init rfl (by simp)
    exact ⟨N, hreads, by rw [hlen, stdFrames_length]; omega, hslept⟩
  · rintro rfl
    obtain ⟨N, hreads, hlen, hslept⟩ := init rfl (by simp)
    exact ⟨N, hreads, by rw [hlen, gray4Frames_length]; omega, hslept⟩
  · rintro ⟨f, rfl⟩
    obtain ⟨N, hreads, hlen, hslept⟩ := wait (p := clearPlan Config.setup.pollLimit f) rfl rfl (by simp)
    simp only [clearPlan, refreshPlan, framesItems_length, clearFrames_length] at hlen
    simp only [clearPlan, refreshPlan, delaysOn_framesItems] at hslept
    exact ⟨N, hreads, hlen, by simpa [delaysOn] using hslept⟩
  · rintro rfl
    obtain ⟨N, hreads, hlen, hslept⟩ := wait (p := displayPlan Config.setup.pollLimit) rfl rfl (by simp)
    simp only [displayPlan, refreshPlan, displayBefore_length] at hlen
    simp only [displayPlan, refreshPlan, delaysOn_displayBefore] at hslept
    exact ⟨N, hreads, hlen, by simpa [delaysOn] using hslept⟩

end Sys2Proof.Proofs
end

section
/-! PROOFS. The bytes an image packs into: which bit each pixel visited clears, and the closed form that follows from it
(spec/43_frame_encoder.md R191 to R198). -/

namespace Sys2Proof.Proofs

open Sys2Proof Sys2Proof.Machine Sys2Proof.Laws

/-! ## The bits of a byte -/

/-- Bit 7 − j of a byte is under mask 0x80 >> j and under no other (43_frame_encoder.md R194). -/
theorem getLsbD_mask : ∀ m < 8, ∀ j < 8, ((0x80#8 >>> m).getLsbD (7 - j) = true ↔ m = j) := by decide

/-- Every bit of a white byte is 1. -/
theorem getLsbD_white : ∀ i < 8, (0xFF#8).getLsbD i = true := by decide

/-- Clearing the bits of a mask makes them 0 and leaves the others (43_frame_encoder.md R191). -/
theorem getLsbD_clear (b m : Byte) {i : Nat} (hi : i < 8) :
    (b &&& ~~~m).getLsbD i = false ↔ b.getLsbD i = false ∨ m.getLsbD i = true := by
  rw [BitVec.getLsbD_and, BitVec.getLsbD_not, decide_eq_true hi, Bool.true_and, Bool.and_eq_false_iff, Bool.not_eq_false']

/-- Two bytes whose bits 7 − j are 0 for the same j are equal. -/
theorem byte_ext {b c : Byte} (h : ∀ j < 8, (b.getLsbD (7 - j) = false ↔ c.getLsbD (7 - j) = false)) : b = c := by
  refine BitVec.eq_of_getLsbD_eq fun i hi => ?_
  have hbit := h (7 - i) (by omega)
  rw [Nat.sub_sub_self (by omega)] at hbit
  exact Bool.not_inj (Bool.coe_false_iff_false.1 hbit)

/-! ## The source pixel of a bit -/

/-- The entry of IMG that holds the source of panel pixel (px, py) (43_frame_encoder.md R191, R195, R197). -/
def sourceEntry (o : Orientation) (px py : Nat) : Nat :=
  match o with
  | .portrait => px + py * 176
  | .landscape => (263 - py) + px * 264

theorem sourceEntry_lt (o : Orientation) {px py : Nat} (hx : px < 176) (hy : py < 264) : sourceEntry o px py < 46464 := by
  cases o <;> simp only [sourceEntry] <;> omega

/-- A source pixel stands in the entry of the panel pixel it becomes. -/
theorem sourceEntry_panelPixel {o : Orientation} {x y : Nat} (hx : x < o.width) :
    sourceEntry o (panelPixel o x y).1 (panelPixel o x y).2 = x + y * o.width := by
  cases o with
  | portrait => rfl
  | landscape =>
    simp only [sourceEntry, panelPixel, Orientation.width, panelHeight] at *
    omega

/-- The source pixel `p` is black, and bit `i` of BUF[k] is the one that it clears (43_frame_encoder.md R191 to R194). -/
def Clears (o : Orientation) (img : List (Nat × Pixel)) (k i : Nat) (p : Nat × Nat) : Prop :=
  targetIndex o p.1 p.2 = k ∧ (targetMask o p.1 p.2).getLsbD i = true ∧ Memory.read img (p.1 + p.2 * o.width) = some 0

/-- Bit 7 − j of BUF[k] is the bit of panel pixel (8 (k mod 22) + j, k div 22) (30_encoding.md R106). -/
theorem panelPixel_of_bit {o : Orientation} {k j x y : Nat} (hj : j < 8) (hx : x < o.width) (hy : y < o.height) :
    (targetIndex o x y = k ∧ (targetMask o x y).getLsbD (7 - j) = true) ↔ panelPixel o x y = (8 * (k % 22) + j, k / 22) := by
  obtain ⟨hpx, -⟩ := panelPixel_lt hx hy
  rw [targetIndex_eq, targetMask_eq, getLsbD_mask _ (Nat.mod_lt _ (by decide)) j hj, Prod.ext_iff]
  dsimp only
  omega

/-- A pixel of the image clears bit 7 − j of BUF[k] exactly when the one pixel of that bit is black (43_frame_encoder.md
R195). -/
theorem exists_clears_iff {o : Orientation} {img : List (Nat × Pixel)} {k j : Nat} (hk : k < 5808) (hj : j < 8) :
    (∃ p ∈ pixelOrder o.width o.height, Clears o img k (7 - j) p) ↔
      Memory.read img (sourceEntry o (8 * (k % 22) + j) (k / 22)) = some 0 := by
  constructor
  · rintro ⟨⟨x, y⟩, hp, hindex, hmask, hblack⟩
    obtain ⟨hx, hy⟩ := mem_pixelOrder.1 hp
    have hpanel := (panelPixel_of_bit hj hx hy).1 ⟨hindex, hmask⟩
    rw [← sourceEntry_panelPixel hx, hpanel] at hblack
    exact hblack
  · intro hblack
    obtain ⟨x, hx, y, hy, hpanel⟩ :=
      panelPixel_surjective o (px := 8 * (k % 22) + j) (py := k / 22) (by omega) (by omega)
    obtain ⟨hindex, hmask⟩ := (panelPixel_of_bit hj hx hy).2 hpanel
    refine ⟨(x, y), mem_pixelOrder.2 ⟨hx, hy⟩, hindex, hmask, ?_⟩
    rw [← sourceEntry_panelPixel hx, hpanel]
    exact hblack

/-! ## The loops and the bytes they leave -/

/-- What the loops of ENCODE do to a byte: a bit is 0 in the end when it was 0 before or a pixel visited clears it. -/
theorem encodePixels_bit {o : Orientation} {img : List (Nat × Pixel)} {k : Nat} {ps : List (Nat × Nat)}
    {buf buf' : List Host.Cell} {b : Byte} (h : encodePixels o img ps buf = .ok buf') (hb : Memory.read buf k = some b) :
    ∃ b', Memory.read buf' k = some b' ∧
      ∀ i < 8, (b'.getLsbD i = false ↔ b.getLsbD i = false ∨ ∃ p ∈ ps, Clears o img k i p) := by
  induction ps generalizing buf b with
  | nil => cases h; exact ⟨b, hb, by simp⟩
  | cons p ps ih =>
    obtain ⟨x, y⟩ := p
    rw [encodePixels] at h
    split at h
    · cases h
    · rename_i c hc
      split at h
      · rename_i hwhite
        have hstays (i : Nat) : ¬ Clears o img k i (x, y) := fun ⟨_, _, hblack⟩ => by
          cases hc.symm.trans hblack
          cases hwhite
        obtain ⟨b', hb', hbits⟩ := ih h hb
        exact ⟨b', hb', fun i hi => by rw [hbits i hi, List.exists_mem_cons_iff, or_iff_right (hstays i)]⟩
      · rename_i hblack
        obtain rfl : c = 0 := by simpa [isBlack] using hblack
        split at h
        · cases h
        · rename_i d hd
          by_cases hk : k = targetIndex o x y
          · subst hk
            obtain rfl : d = b := Option.some.inj (hd.symm.trans hb)
            obtain ⟨b', hb', hbits⟩ := ih h (read_write_same _ _ _)
            refine ⟨b', hb', fun i hi => ?_⟩
            have hclears : Clears o img (targetIndex o x y) i (x, y) ↔ (targetMask o x y).getLsbD i = true :=
              ⟨fun ⟨_, hmask, _⟩ => hmask, fun hmask => ⟨rfl, hmask, hc⟩⟩
            rw [hbits i hi, getLsbD_clear _ _ hi, List.exists_mem_cons_iff, hclears, or_assoc]
          · have hstays (i : Nat) : ¬ Clears o img k i (x, y) := fun ⟨hindex, _⟩ => hk hindex.symm
            obtain ⟨b', hb', hbits⟩ := ih h ((read_write_other _ _ hk).trans hb)
            exact ⟨b', hb', fun i hi => by rw [hbits i hi, List.exists_mem_cons_iff, or_iff_right (hstays i)]⟩

/-- BUF[k] after ENCODE, for k below 5808: bit 7 − j is 0 exactly when the pixel of that bit is black (43_frame_encoder.md
R195). -/
theorem packImage_bit {o : Orientation} {img : List (Nat × Pixel)} {buf buf' : List Host.Cell}
    (h : packImage o img buf = .ok buf') {k : Nat} (hk : k < 5808) :
    ∃ b, Memory.read buf' k = some b ∧ ∀ j < 8,
      (b.getLsbD (7 - j) = false ↔ Memory.read img (sourceEntry o (8 * (k % 22) + j) (k / 22)) = some 0) := by
  have hwhite : Memory.read (Memory.fill 0xFF frameLen buf) k = some 0xFF#8 := (read_fill _ _ _ _).trans (if_pos hk)
  obtain ⟨b, hb, hbits⟩ := encodePixels_bit h hwhite
  refine ⟨b, hb, fun j hj => ?_⟩
  rw [hbits _ (by omega), exists_clears_iff hk hj, getLsbD_white _ (by omega)]
  simp

/-- ENCODE of an image written whole goes through and leaves the packed image in BUF (43_frame_encoder.md R191). -/
theorem exec_encode {s : State} {o : Orientation} (hp : s.pc = .idle) (ho : orientationOf s.imgW s.imgH = some o)
    (hi : ∀ k < 46464, (Memory.read s.img k).isSome = true) :
    ∃ buf, packImage o s.img s.buf = .ok buf ∧
      exec .encode s = .next { s with buf := buf, bufLen := 5808, err := .ok } := by
  obtain ⟨buf, h⟩ := packImage_ok (o := o) s.buf hi
  refine ⟨buf, h, ?_⟩
  simp only [exec, execEncode, needIdle_idle hp, ho, h, State.complete, hp]
  rfl

/-! ## The settled statements -/

/-- Settles O42, by `packImage_bit` for the bytes of the frame and `packImage_read_beyond` for the others. -/
theorem encodeFollowsTheClosedForm : Obligations.EncodeFollowsTheClosedForm := by
  intro s o hp ho hi
  obtain ⟨buf, hpack, hexec⟩ := exec_encode hp ho hi
  refine ⟨buf, hexec, fun k hk j hj => ?_, fun a ha => packImage_read_beyond hpack ha⟩
  obtain ⟨b, hb, hbits⟩ := packImage_bit hpack hk
  refine ⟨b, hb, ?_⟩
  cases o <;> exact hbits j hj

/-- An image of one colour encodes to one byte throughout, whose bits are all of that colour. -/
theorem exec_encode_uniform {s : State} {o : Orientation} {c : Byte} (hp : s.pc = .idle)
    (ho : orientationOf s.imgW s.imgH = some o) (hi : ∀ k < 46464, (Memory.read s.img k).isSome = true)
    (hc : ∀ k < 46464, ∀ i < 8, (Memory.read s.img k = some 0 ↔ c.getLsbD i = false)) :
    ∃ t, exec .encode s = .next t ∧ ∀ k < 5808, Memory.read t.buf k = some c := by
  obtain ⟨buf, hpack, hexec⟩ := exec_encode hp ho hi
  refine ⟨_, hexec, fun k hk => ?_⟩
  obtain ⟨b, hb, hbits⟩ := packImage_bit hpack hk
  have hbyte : b = c := byte_ext fun j hj =>
    (hbits j hj).trans (hc _ (sourceEntry_lt o (by omega) (by omega)) _ (by omega))
  exact hb.trans (congrArg some hbyte)

/-- Settles O44: the bits of 0xFF are all 1, those of 0x00 all 0. -/
theorem allWhiteAndAllBlackEncode : Obligations.AllWhiteAndAllBlackEncode := by
  refine fun s o hp ho =>
    ⟨fun hwhite => exec_encode_uniform hp ho (fun k hk => ?_) fun k hk i hi => ?_,
      fun hblack => exec_encode_uniform hp ho (fun k hk => ?_) fun k hk i _ => ?_⟩
  · obtain ⟨p, hread, -⟩ := hwhite k hk
    rw [hread]
    rfl
  · obtain ⟨p, hread, hne⟩ := hwhite k hk
    rw [hread, Option.some_inj, iff_false_left hne]
    exact ne_of_eq_of_ne (getLsbD_white i hi) (by decide)
  · rw [hblack k hk]
    rfl
  · rw [hblack k hk]
    exact iff_of_true rfl BitVec.getLsbD_zero

/-- A portrait image rotated from a landscape one that is written whole is written whole (43_frame_encoder.md R197). -/
theorem rotation_written {img img' : List (Nat × Pixel)} (hi : ∀ k < 46464, (Memory.read img k).isSome = true)
    (hrot : ∀ px < 176, ∀ py < 264,
      Memory.read img' (sourceEntry .portrait px py) = Memory.read img (sourceEntry .landscape px py)) :
    ∀ k < 46464, (Memory.read img' k).isSome = true := by
  intro k hk
  have hx : k % 176 < 176 := Nat.mod_lt _ (by decide)
  have hy : k / 176 < 264 := by omega
  have hentry : sourceEntry .portrait (k % 176) (k / 176) = k := Nat.mod_add_div' k 176
  rw [← hentry, hrot _ hx _ hy]
  exact hi _ (sourceEntry_lt .landscape hx hy)

/-- Settles O45: by `packImage_bit`, each bit is that of one panel pixel, whose two sources are the same pixel. -/
theorem landscapeEncodesAsItsRotation : Obligations.LandscapeEncodesAsItsRotation := by
  intro s s' hp hp' ho ho' hi hrot
  obtain ⟨buf, hpack, hexec⟩ := exec_encode hp ho hi
  obtain ⟨buf', hpack', hexec'⟩ := exec_encode hp' ho' (rotation_written hi hrot)
  refine ⟨_, _, hexec, hexec', fun k hk => ?_⟩
  obtain ⟨b, hb, hbits⟩ := packImage_bit hpack hk
  obtain ⟨b', hb', hbits'⟩ := packImage_bit hpack' hk
  have hbytes : b = b' := byte_ext fun j hj => by
    rw [hbits j hj, hbits' j hj, sourceEntry, sourceEntry, hrot _ (by omega) _ (by omega)]
  rw [hbytes] at hb
  exact hb.trans hb'.symm

end Sys2Proof.Proofs
end

section
/-! PROOFS. The eighteen panel commands: each sends the frames of its entry, whole or up to the first byte that fails
(spec/44_wire_commands.md R210 to R228; spec/60_exceptions.md R250, R251). -/

namespace Sys2Proof.Proofs

open Sys2Proof Sys2Proof.Machine Sys2Proof.Laws

section
variable {i : Instr} {e : Entry} {s : State}

/-- An entry whose every byte goes out: DC stays as its last frame set it, low where it has no data (30_encoding.md R91, R92). -/
theorem Sends.run_entry (h : Sends i e.frames) (hp : s.pc = .idle) (hacq : s.trState = .acquired)
    (hs : ∀ n < e.data.length + 1, s.spiAt n = true) :
    runOp (4 * (e.data.length + 1)) i s = .next { s with
      pins := { s.pins with dc := .driven (if e.data = [] then .low else .high), cs := .driven .high },
      err := .ok, trace := s.trace ++ framesEvents e.frames, spiOk := s.spiOk.skip (e.data.length + 1) } := by
  have hlen : e.frames.length = e.data.length + 1 := by simp [Entry.frames]
  rw [← hlen, h.run (List.cons_ne_nil _ _) hp hacq (by rwa [hlen]), afterFrames_last (getLast_frames e), State.complete, hp]

/-- An entry whose byte `j` is the first to fail: the operation ends at that frame (60_exceptions.md R250, R251; log 7). -/
theorem Sends.run_entry_fault (h : Sends i e.frames) (hp : s.pc = .idle) (hacq : s.trState = .acquired) {j : Nat} {f : Frame}
    (hj : e.frames[j]? = some f) (hs : ∀ n < j, s.spiAt n = true) (hf : s.spiAt j = false) :
    runOp (4 * j + 3) i s = .next { s with
      pins := { s.pins with dc := .driven f.dc, cs := .driven .low }, err := .transferFailure, faultMark := true,
      trace := s.trace ++ framesEvents (e.frames.take j) ++ [.pinWrite .dc f.dc, .pinWrite .cs .low, .spiFault f.byte],
      spiOk := s.spiOk.skip (j + 1) } := by
  rw [h.run_fault hj hp hacq hs hf, afterFramesFault, hp]

end

/-- RESOLUTION_SETTING sends its two 16-bit values each high byte first (44_wire_commands.md R226). -/
theorem encode_resolutionSetting (wh wl hh hl : Byte) :
    encode (.resolutionSetting (wh ++ wl) (hh ++ hl)) = wireForm 0x61 [wh, wl, hh, hl] := by
  rw [encode, bytesOf16_append, bytesOf16_append]
  rfl

/-- Settles O47: a command sends the frames of its entry, and the entry of each of the eighteen is its encoding. -/
theorem wireCommandSendsItsEntry : Obligations.WireCommandSendsItsEntry := by
  intro s cmd data hp hacq fs does
  have hdoes {i : Instr} {c : Byte} {ds : List Byte} (hc : cmd = c) (hd : data = ds) (hi : encode i = wireForm c ds) :
      does i := by
    have hsends : Sends i (Entry.frames ⟨cmd, data⟩) := sends_of_encode (by rw [hi, hc, hd, wireForm])
    exact ⟨hsends.first hp hacq, hsends.run_entry hp hacq, fun _ _ hj hs hf => hsends.run_entry_fault hp hacq hj hs hf⟩
  exact ⟨
    fun _ hc hd => hdoes hc hd rfl, -- PANEL_SETTING
    fun hc => hdoes hc rfl rfl, -- POWER_SETTING
    fun hc hd => hdoes hc hd rfl, -- POWER_ON
    fun hc => hdoes hc rfl rfl, -- BOOSTER_SOFT_START
    fun hc => hdoes hc rfl rfl, -- WRITE_PLANE_OLD
    fun hc hd => hdoes hc hd rfl, -- DISPLAY_REFRESH
    fun hc => hdoes hc rfl rfl, -- WRITE_PLANE_NEW
    fun hc => hdoes hc rfl rfl, -- PARTIAL_REFRESH_CONTROL
    fun hc => hdoes hc rfl rfl, -- LUT_VCOM
    fun hc => hdoes hc rfl rfl, -- LUT_W2W
    fun hc => hdoes hc rfl rfl, -- LUT_B2W
    fun hc => hdoes hc rfl rfl, -- LUT_B2B
    fun hc => hdoes hc rfl rfl, -- LUT_W2B
    fun _ hc hd => hdoes hc hd rfl, -- PLL_CONTROL
    fun _ hc hd => hdoes hc hd rfl, -- VCOM_AND_INTERVAL
    fun wh wl hh hl hc hd => hdoes hc hd (encode_resolutionSetting wh wl hh hl), -- RESOLUTION_SETTING
    fun _ hc hd => hdoes hc hd rfl, -- VCOM_DC
    fun hc => hdoes hc rfl rfl⟩ -- POWER_OPTIMIZATION

end Sys2Proof.Proofs
end

section
/-! PROOFS. What is rejected before anything is done: a word that spells no operation, a buffer or an image of another size, and the
three contract violations (spec/60_exceptions.md R243, R244, R247 to R249; spec/42_panel_sequences.md R166). -/

namespace Sys2Proof.Proofs

open Sys2Proof Sys2Proof.Machine Sys2Proof.Laws

variable {s : State} {w : Word}

/-! ## Words that spell no operation -/

/-- The role codes 5, 6 and 7 are reserved (30_encoding.md R98). -/
theorem roleField_reserved (h : 5 ≤ (w.extractLsb' 16 3).toNat) : roleField w = .error .reservedRole := by
  obtain ⟨n, hn⟩ := Nat.exists_eq_add_of_le' h
  rw [roleField, hn]
  rfl

/-- The rows of SETPIN and READPIN read the role (30_encoding.md R98, R100). -/
theorem decodeWord_role (h : opcField w = 0xC2 ∨ opcField w = 0xC3) :
    ∃ mask code f, decodeWord w = if w &&& mask = code then (roleField w).map f else .error .reservedBit := by
  rcases h with h | h
  · have hrow : opRows.find? (fun r => opcField r.code == 0xC2) =
        some ⟨0xC2000000, 0xFFF8FFFE, fun w => (roleField w).map (fun r => .setPin r (levelField w))⟩ := rfl
    exact ⟨_, _, _, by rw [decodeWord, h, hrow]⟩
  · have hrow : opRows.find? (fun r => opcField r.code == 0xC3) =
        some ⟨0xC3000000, 0xFFF8FFFF, fun w => (roleField w).map .readPin⟩ := rfl
    exact ⟨_, _, _, by rw [decodeWord, h, hrow]⟩

/-- A word that no row matches, or that names a reserved role, is not decoded (30_encoding.md R102). -/
theorem decodeWord_illegal
    (h : (∀ r ∈ opRows, w &&& r.mask ≠ r.code) ∨
      (opcField w = 0xC2 ∨ opcField w = 0xC3) ∧ 5 ≤ (w.extractLsb' 16 3).toNat) : ∃ e, decodeWord w = .error e := by
  rcases h with hno | ⟨hopc, hrole⟩
  · cases hw : decodeWord w with
    | error e => exact ⟨e, rfl⟩
    | ok i =>
      obtain ⟨r, hr, hmatch, -⟩ := match_of_decodeWord hw
      exact absurd hmatch (hno r hr)
  · obtain ⟨mask, code, f, hw⟩ := decodeWord_role hopc
    rw [hw, roleField_reserved hrole]
    split
    · exact ⟨_, rfl⟩
    · exact ⟨_, rfl⟩

/-- Settles O5: the word is not decoded, and the host's move raises IllegalOperation. -/
theorem illegalWordChangesOnlyErr : Obligations.IllegalWordChangesOnlyErr := by
  intro s w rest hp hh h
  obtain ⟨e, hw⟩ := decodeWord_illegal h
  have hmove : hostMove (.writeReg 0 w) { s with host := rest } =
      .done (.next (State.raise { s with host := rest } .illegalOperation)) := by
    simp only [hostMove, hp, issueWord, hw]
  rw [step_idle_done hp hh hmove, raise_of_idle (s := { s with host := rest }) hp]

/-! ## Contract violations -/

/-- CLEAR when the panel is not ready (42_panel_sequences.md R166). -/
theorem exec_clear_not_ready (hp : s.pc = .idle) (hacq : s.trState = .acquired)
    (hready : ¬(s.pdState = .idle ∧ s.pdMode ≠ .none)) (f : Byte) :
    exec (.clear f) s = .refused (.contractViolation .notReady) :=
  operate_answers hp fun go => (needAcquired_acquired hacq _).trans (needReady_not hready go)

/-- DISPLAYFRAME of a whole frame when the panel is not ready (42_panel_sequences.md R166). -/
theorem exec_displayFrame_not_ready (hp : s.pc = .idle) (hacq : s.trState = .acquired) (hlen : s.bufLen.toNat = frameLen)
    (hready : ¬(s.pdState = .idle ∧ s.pdMode ≠ .none)) :
    exec .displayFrame s = .refused (.contractViolation .notReady) :=
  operate_answers hp fun go =>
    (needFrame_whole hlen _).trans ((needAcquired_acquired hacq _).trans (needReady_not hready go))

/-- WRITEBYTES of more bytes than BUF has (40_transport.md R131). -/
theorem exec_writeBytes_too_long (hp : s.pc = .idle) (hacq : s.trState = .acquired) (hlen : bufCap < s.bufLen.toNat) :
    exec .writeBytes s = .refused (.contractViolation .bufferTooLong) :=
  operate_answers hp fun _ => (needAcquired_acquired hacq _).trans (if_pos hlen)

/-- Settles O23, one violation after the other. -/
theorem contractViolationsAreRefused : Obligations.ContractViolationsAreRefused := by
  intro s hp
  refine ⟨fun hs => exec_acquire_again hp ?_, fun hacq hnot => ?_, fun hacq hlen => exec_writeBytes_too_long hp hacq hlen⟩
  · rcases hs with hs | hs <;> simp [hs]
  · have hready : ¬(s.pdState = .idle ∧ s.pdMode ≠ .none) := by
      rintro ⟨hidle, hmode⟩
      exact hnot.elim (fun h => h hidle) hmode
    exact ⟨exec_clear_not_ready hp hacq hready, fun hlen => exec_displayFrame_not_ready hp hacq hlen hready⟩

/-! ## Sizes -/

/-- Settles O24: the length is the first thing DISPLAYFRAME checks. -/
theorem displayFrameRejectsOtherLengths : Obligations.DisplayFrameRejectsOtherLengths := by
  intro s hp hlen
  rw [← raise_of_idle hp]
  exact operate_answers hp fun _ => if_pos hlen

/-- The two sizes accepted, as 16-bit values (43_frame_encoder.md R191). -/
theorem orientationOf_eq (w h : BitVec 16) : orientationOf w h =
    if w = 176 ∧ h = 264 then some .portrait else if w = 264 ∧ h = 176 then some .landscape else none := by
  simp only [orientationOf, panelWidth, panelHeight, ← BitVec.toNat_inj]
  rfl

/-- Settles O43, by `orientationOf_eq`. -/
theorem encodeRejectsOtherSizes : Obligations.EncodeRejectsOtherSizes := by
  refine ⟨orientationOf_eq, fun s hp hportrait hlandscape => ?_⟩
  have ho : orientationOf s.imgW s.imgH = none := by rw [orientationOf_eq, if_neg hportrait, if_neg hlandscape]
  simp only [exec, execEncode, needIdle_idle hp, ho, raise_of_idle hp]

end Sys2Proof.Proofs
end

section
/-! PROOFS. A sequence that an error ends: the error comes from a byte or from a read of BUSY, and leaves PD_STATE, PD_MODE and the
pins as reached (spec/60_exceptions.md R250 to R252; spec/41_panel_primitives.md R145). -/

namespace Sys2Proof.Proofs

open Sys2Proof Sys2Proof.Machine Sys2Proof.Laws

variable {c : Setup} {i : Instr} {p : Plan} {m : Micro} {s t : State} {k n : Nat}

/-- The state after the read of BUSY that reaches the bound (41_panel_primitives.md R145). -/
def afterTimeout (s : State) : State :=
  { afterRead s with faultMark := true, err := .panelTimeout, pc := .idle }

/-- Everything that ends an operation with an error: a byte that fails, or a read of 1 at the bound (60_exceptions.md R242,
R250). -/
theorem micro_out_cases (h : micro m s = .out t) :
    m.sends = true ∧ (∃ b, t = afterFault b s) ∨ (∃ lim, m = .poll lim) ∧ s.busyAt 0 = .high ∧ t = afterTimeout s := by
  cases m with
  | spiWrite b => exact .inl ⟨rfl, b, shiftOut_out h⟩
  | spiBuf j =>
    cases hb : Memory.read s.buf j with
    | none => rw [spiBuf_none hb] at h; cases h
    | some b => rw [spiBuf_some hb] at h; exact .inl ⟨rfl, b, shiftOut_out h⟩
  | poll lim =>
    rcases poll_cases lim s with ⟨hon, _⟩ | ⟨hhigh, _, hout⟩
    · rw [micro_poll, hon] at h; cases h
    · rw [micro_poll, hout] at h; cases h
      exact .inr ⟨⟨lim, rfl⟩, hhigh, rfl⟩
  | _ => cases h

/-- An error leaves PD_STATE, PD_MODE and the pins as they were and marks the run (60_exceptions.md R251, R252). -/
theorem micro_out_keeps (h : micro m s = .out t) :
    t.pdState = s.pdState ∧ t.pdMode = s.pdMode ∧ t.pins = s.pins ∧ t.faultMark = true := by
  rcases micro_out_cases h with ⟨_, b, rfl⟩ | ⟨_, _, rfl⟩
  · exact ⟨rfl, rfl, rfl, rfl⟩
  · exact ⟨rfl, rfl, rfl, rfl⟩

/-- A step that ends a sequence with TransferFailure or PanelTimeout is one of its micro-operations in flight, which fails. -/
theorem failing_micro (hi : pulses i ∨ refreshes i) (hinv : s.InvUnder c) (ht : execWith c i s = .next t)
    (herr : t.err = .transferFailure ∨ t.err = .panelTimeout) (hpc : t.pc = .idle) :
    ∃ p k n m, Midway c i p s k n ∧ (p.items n s.rdval)[k]? = some m ∧ micro m s = .out t := by
  rcases execWith_next ht with ⟨_, e, he, rfl⟩ | ⟨_, rfl, _⟩ | ⟨_, _, _, rfl⟩ | ⟨_, rfl, _⟩ |
      ⟨p, hp, ⟨_, _, hn⟩ | ⟨⟨k, n, hs⟩, hn⟩⟩
  · rw [raise_err] at herr
    rcases herr with rfl | rfl <;> simp at he
  · simp [pulses, refreshes] at hi
  · simp at herr
  · simp [pulses, refreshes] at hi
  · rw [(first_step_of_moving hp hi hn).1] at hpc
    cases hpc
  obtain ⟨hmid, _⟩ := midway_of_inv hinv hs hp
  obtain ⟨hitems, hdone⟩ := hmid.items
  rcases performNext_performs hn with ⟨_, rfl⟩ | ⟨m, e, u, hm, _, ⟨_, _, rfl⟩ | ⟨hon, _, rfl⟩ | ⟨hout, rfl⟩⟩
  · simp at herr
  · simp at herr
  · obtain ⟨k', n', hrun⟩ := micro_on_op hon hs
    rw [hrun] at hpc
    cases hpc
  · exact ⟨p, k, n, m, hmid, by rwa [hitems, hdone] at hm, hout⟩

/-- The reset pulse of INIT and INIT4GRAY has no byte and no read of BUSY, so they fail in Configuring (41_panel_primitives.md
R141). -/
theorem Midway.fails_past_pulse (h : Midway c i p s k n) (hi : i = .init ∨ i = .init4Gray)
    (hm : (p.items n s.rdval)[k]? = some m) (hout : micro m s = .out t) : 6 ≤ k := by
  by_contra hk
  have hbefore : p.before = initBefore c := by
    have hp := h.plan
    rcases hi with rfl | rfl <;> cases hp <;> rfl
  have hlen : (resetPulse (.sleepInto resetHighLast .configuring)).length = 6 := rfl
  rw [Plan.items, hbefore, initBefore, List.append_assoc, List.getElem?_append_left (by omega)] at hm
  have hpulse := List.mem_of_getElem? hm
  simp only [resetPulse, List.mem_cons, List.not_mem_nil, or_false] at hpulse
  rcases hpulse with rfl | rfl | rfl | rfl | rfl | rfl <;> cases hout

/-- A byte of a sequence that fails leaves CS low (30_encoding.md R91; 60_exceptions.md R251). -/
theorem Midway.fails_with_cs_low (h : Midway c i p s k n) (hi : pulses i ∨ refreshes i)
    (hm : (p.items n s.rdval)[k]? = some m) (hs : m.sends = true) : s.pins.cs = .driven .low := by
  obtain ⟨hitems, hdone⟩ := h.items
  refine h.frame ?_ ?_ m (by rw [hitems, hdone]; exact hm) hs
  · rintro b rfl
    simp [pulses, refreshes] at hi
  · rintro rfl
    simp [pulses, refreshes] at hi

/-- Settles O38: the failing step is a micro-operation in flight, and what it had reached the invariant says. -/
theorem failedSequenceLeavesWhatItReached : Obligations.FailedSequenceLeavesWhatItReached := by
  refine ⟨execWith_setup, fun c i s t hi hinv ht herr hpc => ?_⟩
  have hmoving : pulses i ∨ refreshes i := by
    rcases hi with hi | hi | hi
    exacts [.inl (.inr (.inl hi)), .inl (.inr (.inr hi)), .inr hi]
  obtain ⟨p, k, n, m, hmid, hm, hout⟩ := failing_micro hmoving hinv ht herr hpc
  obtain ⟨hstate, hmode, hpins, hmark⟩ := micro_out_keeps hout
  obtain ⟨-, init, refresh⟩ := hmid.panel
  refine ⟨fun hinit => ?_, fun hrefresh => ⟨hstate.trans (refresh hrefresh).1, hmode⟩, hpins, hmark, fun hfail => ?_,
    fun htime => ?_⟩
  · obtain ⟨hreached, hnone⟩ := init hinit
    rw [if_neg (Nat.not_lt.2 (hmid.fails_past_pulse hinit hm hout))] at hreached
    exact ⟨hstate.trans hreached, hmode.trans hnone⟩
  · rcases micro_out_cases hout with ⟨hsends, b, rfl⟩ | ⟨_, _, rfl⟩
    · exact ⟨hmid.fails_with_cs_low hmoving hm hsends, b, rfl⟩
    · cases hfail
  · rcases micro_out_cases hout with ⟨_, b, rfl⟩ | ⟨_, hhigh, rfl⟩
    · cases htime
    · exact ⟨hhigh, by simp [afterTimeout, afterRead, hhigh]⟩

end Sys2Proof.Proofs
end

section
/-! PROOFS. While an operation waits for BUSY it reads or sleeps, and nothing else (spec/41_panel_primitives.md R144;
spec/42_panel_sequences.md R164, R165; spec/70_reset_and_hazards.md R292). -/

namespace Sys2Proof.Proofs

open Sys2Proof Sys2Proof.Machine Sys2Proof.Laws

variable {c : Setup} {i : Instr} {p : Plan} {m : Micro} {s t : State} {k n : Nat}

/-! ## A read or a sleep of the wait -/

/-- A micro-operation of WAITIDLE (41_panel_primitives.md R144 a). -/
def ofWait (m : Micro) : Prop := (∃ limit, m = .poll limit) ∨ m = .sleep 200

/-- The step from `s` to `t` sends nothing and drives no pin: it has read BUSY or slept (70_reset_and_hazards.md R292). -/
def OnlyWaits (s t : State) : Prop :=
  t.pins = s.pins ∧ t.spiOk = s.spiOk ∧
  (t.trace = s.trace ++ [.sleep 200] ∨ ∃ l, t.rdval = l ∧ t.trace = s.trace ++ [.pinRead l])

/-- A micro-operation of the wait does no more than wait, also where it ends in PanelTimeout (41_panel_primitives.md R145). -/
theorem onlyWaits_micro (hm : ofWait m) (h : micro m s = .on t ∨ micro m s = .out t) : OnlyWaits s t := by
  rcases hm with ⟨limit, rfl⟩ | rfl
  · have ht : t = afterRead s ∨ t = afterTimeout s := h.imp poll_on fun hout => by
      rcases micro_out_cases hout with ⟨hsends, _⟩ | ⟨_, _, ht⟩
      · cases hsends
      · exact ht
    rcases ht with rfl | rfl
    · exact ⟨rfl, rfl, .inr ⟨_, rfl, rfl⟩⟩
    · exact ⟨rfl, rfl, .inr ⟨_, rfl, rfl⟩⟩
  · obtain rfl : s.delay 200 = t := by simpa using h
    exact ⟨rfl, rfl, .inl rfl⟩

/-- The end of an operation, reached with such a step, adds nothing to it (10_state.md R23). -/
theorem OnlyWaits.finish (h : OnlyWaits s t) (p : Plan) : OnlyWaits s (t.finish p) := h

/-! ## Where an operation waits -/

theorem ofWait_of_mem_pollsOf {limit : Option Nat} (h : m ∈ pollsOf limit n) : ofWait m := by
  obtain ⟨turn, hturn, hm⟩ := List.mem_flatten.1 h
  rw [(List.mem_replicate.1 hturn).2] at hm
  rcases List.mem_pair.1 hm with rfl | rfl
  · exact .inl ⟨limit, rfl⟩
  · exact .inr rfl

/-- After a read of 1 an operation is past what it does before its wait, and what it does after it has not begun
(41_panel_primitives.md R144 a). -/
theorem Midway.ofWait_of_high (h : Midway c i p s k n) (hm : (p.items n s.rdval)[k]? = some m) (hn : 1 ≤ n)
    (hhigh : s.rdval = .high) : ofWait m := by
  have hk : p.before.length ≤ k := by have := h.reads; omega
  rcases item_in hm with hbefore | ⟨w, hw, -, -⟩
  · have := (List.getElem?_eq_some_iff.1 hbefore).1
    omega
  rw [items_waiting hw (.inr hhigh), List.append_assoc, List.getElem?_append_right hk] at hm
  rcases List.mem_append.1 (List.mem_of_getElem? hm) with hpolls | hlast
  · exact ofWait_of_mem_pollsOf hpolls
  · exact .inl ⟨_, List.mem_singleton.1 hlast⟩

/-- Past the refresh command CLEAR and DISPLAYFRAME have their wait alone (42_panel_sequences.md R164, R165). -/
theorem Midway.ofWait_of_refresh (h : Midway c i p s k n) (hm : (p.items n s.rdval)[k]? = some m) (hi : refreshes i)
    (hk : p.before.length ≤ k) : ofWait m := by
  rcases item_in hm with hbefore | ⟨w, hw, -, hpoll | hsleep | hafter⟩
  · have := (List.getElem?_eq_some_iff.1 hbefore).1
    omega
  · exact .inl ⟨_, hpoll⟩
  · exact .inr hsleep
  · have hnil : w.after = [] := by
      have hp := h.plan
      rcases hi with ⟨f, rfl⟩ | rfl <;> cases hp <;> cases hw <;> rfl
    rw [hnil] at hafter
    cases hafter

/-- An operation in flight has a list. -/
theorem plan_of_inv (h : s.InvUnder c) (hpc : s.pc = .running i k n) : ∃ p, planOf c s i = some p := by
  have hflight := h.inFlight
  rw [State.InFlightProperly, hpc] at hflight
  obtain ⟨-, -, -, p, hp, -⟩ := hflight
  exact ⟨p, hp⟩

/-- A step of an operation whose next micro-operation is one of its wait does no more than wait. -/
theorem onlyWaits_performNext (hm : (s.items p)[s.pc.done]? = some m) (hwait : ofWait m) (h : performNext p s = .next t) :
    OnlyWaits s t := by
  rcases performNext_performs h with ⟨hnone, _⟩ | ⟨m', e, u, hm', _, hcase⟩
  · rw [hm] at hnone
    cases hnone
  obtain rfl : m = m' := Option.some.inj (hm.symm.trans hm')
  rcases hcase with ⟨hon, _, rfl⟩ | ⟨hon, _, rfl⟩ | ⟨hout, rfl⟩
  · exact (onlyWaits_micro hwait (.inl hon)).finish p
  · exact onlyWaits_micro hwait (.inl hon)
  · exact onlyWaits_micro hwait (.inr hout)

/-- Settles O59: an operation in flight has a next micro-operation, and where it waits that is a read or a sleep. -/
theorem waitingSendsNothing : Obligations.WaitingSendsNothing := by
  intro i s t k n hinv hpc ht hwhere
  obtain ⟨p, hp⟩ := plan_of_inv hinv hpc
  obtain ⟨hmid, -, hk⟩ := midway_of_inv hinv hpc hp
  obtain ⟨m, hm⟩ : ∃ m, (p.items n s.rdval)[k]? = some m := ⟨_, List.getElem?_eq_getElem hk⟩
  have hwait : ofWait m := by
    rcases hwhere with ⟨hn, hhigh⟩ | ⟨⟨f, rfl⟩, hpast⟩ | ⟨rfl, hpast⟩
    · exact hmid.ofWait_of_high hm hn hhigh
    · exact hmid.ofWait_of_refresh hm (.inl ⟨f, rfl⟩) (((shape hp).start _ rfl).1 ▸ hpast)
    · exact hmid.ofWait_of_refresh hm (.inr rfl) (((shape hp).start _ rfl).1 ▸ hpast)
  rw [stepOf_exec hp s k n hpc rfl] at ht
  obtain ⟨hitems, hdone⟩ := hmid.items
  exact onlyWaits_performNext (by rwa [hitems, hdone]) hwait ht

end Sys2Proof.Proofs
end
